-- ==== Sys2Proof/Word.lean ====
section
/-! DEFINITION. The word types of the machine (00_scope.md R8, R9; 30_encoding.md R72). -/

namespace Sys2Proof

/-- A byte: a memory cell, a general register, a timer, the immediate NN. -/
abbrev Byte := BitVec 8

/-- A 16-bit word: an instruction word, `I`, `pc`, a stack entry. -/
abbrev Word := BitVec 16

/-- A 4-bit fragment of an instruction word. -/
abbrev Nibble := BitVec 4

/-- The 12-bit immediate NNN. -/
abbrev Imm12 := BitVec 12

/-- The index of a general register, V0 to VF (10_state.md R21). -/
abbrev Reg := Fin 16

/-- VF, the register that doubles as the flag (10_state.md R22). -/
abbrev VF : Reg := 15

end Sys2Proof
end

