-- ==== Sys2Proof/Config.lean ====
section
/-! DEFINITION. The fixed parameters of the CORE (00_scope.md R8) and its one free value.

Two configuration tables stand where a repair may mend them: the font (R8) in Machine/Font.lean, and the bit patterns of
the 35 forms (30_encoding.md R85; 92_eei_decisions.md D1) in Machine/Patterns.lean. The type of the second is here. -/

namespace Sys2Proof.Config

/-- MEM_SIZE: addresses 0x000 to 0xFFF. -/
abbrev memSize : Nat := 0x1000

/-- The highest address that exists. -/
abbrev lastAddr : Nat := 0xFFF

/-- PROG_BASE: where a program image is loaded and where the machine starts. -/
abbrev progBase : Nat := 0x200

/-- PROG_MAX: the longest image, MEM_SIZE - 512 bytes. -/
abbrev progMax : Nat := 3584

/-- FONT_SIZE: the glyph table occupies 0x000 to 0x04F. -/
abbrev fontSize : Nat := 80

/-- STACK_DEPTH. -/
abbrev stackDepth : Nat := 16

/-- The display is 64 cells wide. -/
abbrev displayWidth : Nat := 64

/-- The display is 32 cells tall. -/
abbrev displayHeight : Nat := 32

/-- The pseudo-random byte of the n-th free draw (45_timers_input_random.md R200; 92_eei_decisions.md D20):
a free value, so nothing can be proved of any draw or of two of them [log 3]. -/
opaque randomByte : Nat → Byte

/-- The names of the 35 forms (30_encoding.md R70), without operands: the keys of the pattern table. -/
inductive Form where
  | cls | ret | sys | jp | call | seImm | sneImm | seReg | ldImm | addImm
  | ldReg | orReg | andReg | xorReg | addReg | subReg | shr | subnReg | shl
  | sneReg | ldI | jpV0 | rnd | drw | skp | sknp
  | ldVxDT | ldVxK | ldDTVx | ldSTVx | addI | ldF | ldB | dump | load
  deriving DecidableEq, Repr

/-- A row of the pattern table: which bits of a word are fixed, and what they hold. -/
structure Pattern where
  mask : Word
  value : Word
  deriving DecidableEq, Repr

/-- A table of bit patterns: a row for every form, and the order in which a decoder tries them, which matters where two
patterns overlap (30_encoding.md R84). -/
structure PatternTable where
  pattern : Form → Pattern
  order : List Form

end Sys2Proof.Config
end

