-- ==== Sys2Proof/Machine/Patterns.lean ====
section
/-! DEFINITION. The configuration table of the bit patterns of the 35 forms (30_encoding.md R70, R85).

The source fixes the patterns of 1NNN and 6XNN only. The spec takes the others from general knowledge of CHIP-8 and asks
that they be held as a configuration table (92_eei_decisions.md D1) [log 7]. The decoder and the encoder read this one
table and hold no pattern of their own. -/

namespace Sys2Proof.Config

/-- The fixed bits of each form. -/
def pattern : Form → Pattern
  | .cls => { mask := 0xFFFF#16, value := 0x00E0#16 } -- 00E0
  | .ret => { mask := 0xFFFF#16, value := 0x00EE#16 } -- 00EE
  | .sys => { mask := 0xF000#16, value := 0x0000#16 } -- 0NNN
  | .jp => { mask := 0xF000#16, value := 0x1000#16 } -- 1NNN
  | .call => { mask := 0xF000#16, value := 0x2000#16 } -- 2NNN
  | .seImm => { mask := 0xF000#16, value := 0x3000#16 } -- 3XNN
  | .sneImm => { mask := 0xF000#16, value := 0x4000#16 } -- 4XNN
  | .seReg => { mask := 0xF00F#16, value := 0x5000#16 } -- 5XY0
  | .ldImm => { mask := 0xF000#16, value := 0x6000#16 } -- 6XNN
  | .addImm => { mask := 0xF000#16, value := 0x7000#16 } -- 7XNN
  | .ldReg => { mask := 0xF00F#16, value := 0x8000#16 } -- 8XY0
  | .orReg => { mask := 0xF00F#16, value := 0x8001#16 } -- 8XY1
  | .andReg => { mask := 0xF00F#16, value := 0x8002#16 } -- 8XY2
  | .xorReg => { mask := 0xF00F#16, value := 0x8003#16 } -- 8XY3
  | .addReg => { mask := 0xF00F#16, value := 0x8004#16 } -- 8XY4
  | .subReg => { mask := 0xF00F#16, value := 0x8005#16 } -- 8XY5
  | .shr => { mask := 0xF00F#16, value := 0x8006#16 } -- 8XY6
  | .subnReg => { mask := 0xF00F#16, value := 0x8007#16 } -- 8XY7
  | .shl => { mask := 0xF00F#16, value := 0x800E#16 } -- 8XYE
  | .sneReg => { mask := 0xF00F#16, value := 0x9000#16 } -- 9XY0
  | .ldI => { mask := 0xF000#16, value := 0xA000#16 } -- ANNN
  | .jpV0 => { mask := 0xF000#16, value := 0xB000#16 } -- BNNN
  | .rnd => { mask := 0xF000#16, value := 0xC000#16 } -- CXNN
  | .drw => { mask := 0xF000#16, value := 0xD000#16 } -- DXYN
  | .skp => { mask := 0xF0FF#16, value := 0xE09E#16 } -- EX9E
  | .sknp => { mask := 0xF0FF#16, value := 0xE0A1#16 } -- EXA1
  | .ldVxDT => { mask := 0xF0FF#16, value := 0xF007#16 } -- FX07
  | .ldVxK => { mask := 0xF0FF#16, value := 0xF00A#16 } -- FX0A
  | .ldDTVx => { mask := 0xF0FF#16, value := 0xF015#16 } -- FX15
  | .ldSTVx => { mask := 0xF0FF#16, value := 0xF018#16 } -- FX18
  | .addI => { mask := 0xF0FF#16, value := 0xF01E#16 } -- FX1E
  | .ldF => { mask := 0xF0FF#16, value := 0xF029#16 } -- FX29
  | .ldB => { mask := 0xF0FF#16, value := 0xF033#16 } -- FX33
  | .dump => { mask := 0xF0FF#16, value := 0xF055#16 } -- FX55
  | .load => { mask := 0xF0FF#16, value := 0xF065#16 } -- FX65

/-- The order of R70, in which 00E0 and 00EE come before 0NNN (R84). -/
def decodeOrder : List Form :=
  [.cls, .ret, .sys, .jp, .call, .seImm, .sneImm, .seReg, .ldImm] ++
  [.addImm, .ldReg, .orReg, .andReg, .xorReg, .addReg, .subReg, .shr, .subnReg, .shl] ++
  [.sneReg, .ldI, .jpV0, .rnd, .drw, .skp, .sknp] ++
  [.ldVxDT, .ldVxK, .ldDTVx, .ldSTVx, .addI, .ldF, .ldB, .dump, .load]

/-- The table of this machine. -/
def patterns : PatternTable := { pattern := pattern, order := decodeOrder }

end Sys2Proof.Config
end

