-- ==== Sys2Proof/Decode.lean ====
section
/-! DEFINITION. From words to instructions and back (30_encoding.md R70 to R85).

Decoder and encoder read the bit patterns from the configuration table (R85; 92_eei_decisions.md D1). That the result
is the tree of R76, first the top nibble and then, in groups 0, 5, 8, 9, E and F, the low nibble or byte, is the lemma
`decode_eq_decodeTree` of Laws/DecodeTree.lean. -/

namespace Sys2Proof

/-- Why no instruction was read. -/
inductive Reject where
  /-- The word is one of the 17488 unrecognized words (R82). The machine runs it as a no-op (40_cycle.md R104). -/
  | unrecognized (w : Word)
  /-- Fewer than two bytes were given, and every instruction has two (R71). The machine never meets this: its
  fetch always reads two. -/
  | truncated
  deriving DecidableEq, Repr

/-! ### Fields (R72) -/

/-- `w[15:12]`, the top-level key. -/
def opOf (w : Word) : Nibble := w.extractLsb' 12 4

/-- `w[11:8]`. -/
def xNibble (w : Word) : Nibble := w.extractLsb' 8 4

/-- `w[7:4]`. -/
def yNibble (w : Word) : Nibble := w.extractLsb' 4 4

/-- `N = w[3:0]`. -/
def nOf (w : Word) : Nibble := w.extractLsb' 0 4

/-- `NN = w[7:0]`. -/
def nnOf (w : Word) : Byte := w.extractLsb' 0 8

/-- `NNN = w[11:0]`. -/
def nnnOf (w : Word) : Imm12 := w.extractLsb' 0 12

/-- The register a nibble selects (R75). -/
def regOf (n : Nibble) : Reg := n.toFin

/-- The nibble that selects a register. -/
def nibbleOf (r : Reg) : Nibble := BitVec.ofFin r

/-- Vx's index. -/
def xOf (w : Word) : Reg := regOf (xNibble w)

/-- Vy's index. -/
def yOf (w : Word) : Reg := regOf (yNibble w)

/-- Two bytes as a word, the first the high-order byte (R71; 20_memory.md R55). -/
def wordOfBytes (hi lo : Byte) : Word := hi.setWidth 16 <<< 8 ||| lo.setWidth 16

/-- The high-order byte of a word, which is stored first. -/
def hiByte (w : Word) : Byte := w.extractLsb' 8 8

/-- The low-order byte of a word. -/
def loByte (w : Word) : Byte := w.extractLsb' 0 8

/-! ### The decoder, over a table of patterns -/

/-- A word has a pattern if its fixed bits hold the pattern's value. -/
def hasPattern (p : Config.Pattern) (w : Word) : Bool := w &&& p.mask == p.value

/-- The form of a word: the first in the table's order whose pattern the word has (R76, R84). -/
def formOf (t : Config.PatternTable) (w : Word) : Option Config.Form :=
  t.order.find? fun f => hasPattern (t.pattern f) w

/-- The instruction of a form, its operands read from the form's fields (R72 to R75). -/
def buildInstr (w : Word) : Config.Form → Instr
  | .cls => .cls
  | .ret => .ret
  | .sys => .sys (nnnOf w)
  | .jp => .jp (nnnOf w)
  | .call => .call (nnnOf w)
  | .seImm => .seImm (xOf w) (nnOf w)
  | .sneImm => .sneImm (xOf w) (nnOf w)
  | .seReg => .seReg (xOf w) (yOf w)
  | .ldImm => .ldImm (xOf w) (nnOf w)
  | .addImm => .addImm (xOf w) (nnOf w)
  | .ldReg => .ldReg (xOf w) (yOf w)
  | .orReg => .orReg (xOf w) (yOf w)
  | .andReg => .andReg (xOf w) (yOf w)
  | .xorReg => .xorReg (xOf w) (yOf w)
  | .addReg => .addReg (xOf w) (yOf w)
  | .subReg => .subReg (xOf w) (yOf w)
  | .shr => .shr (xOf w) (yOf w)
  | .subnReg => .subnReg (xOf w) (yOf w)
  | .shl => .shl (xOf w) (yOf w)
  | .sneReg => .sneReg (xOf w) (yOf w)
  | .ldI => .ldI (nnnOf w)
  | .jpV0 => .jpV0 (nnnOf w)
  | .rnd => .rnd (xOf w) (nnOf w)
  | .drw => .drw (xOf w) (yOf w) (nOf w)
  | .skp => .skp (xOf w)
  | .sknp => .sknp (xOf w)
  | .ldVxDT => .ldVxDT (xOf w)
  | .ldVxK => .ldVxK (xOf w)
  | .ldDTVx => .ldDTVx (xOf w)
  | .ldSTVx => .ldSTVx (xOf w)
  | .addI => .addI (xOf w)
  | .ldF => .ldF (xOf w)
  | .ldB => .ldB (xOf w)
  | .dump => .dump (xOf w)
  | .load => .load (xOf w)

/-- The total decoder of a word over a table: a word without a form is unrecognized (R82, R83). -/
def decodeWith (t : Config.PatternTable) (w : Word) : Except Reject Instr :=
  match formOf t w with
  | some f => .ok (buildInstr w f)
  | none => .error (.unrecognized w)

/-- The decoder of this machine. -/
def decode (w : Word) : Except Reject Instr := decodeWith Config.patterns w

/-- The decoder on bytes in memory order: the instruction and the bytes after it. -/
def decodeBytes : List Byte → Except Reject (Instr × List Byte)
  | hi :: lo :: rest =>
    match decode (wordOfBytes hi lo) with
    | .ok i => .ok (i, rest)
    | .error r => .error r
  | [_] => .error .truncated
  | [] => .error .truncated

/-! ### The encoder, over the same table -/

/-- The form of an instruction. -/
def Instr.form : Instr → Config.Form
  | .cls => .cls
  | .ret => .ret
  | .sys _ => .sys
  | .jp _ => .jp
  | .call _ => .call
  | .seImm _ _ => .seImm
  | .sneImm _ _ => .sneImm
  | .seReg _ _ => .seReg
  | .ldImm _ _ => .ldImm
  | .addImm _ _ => .addImm
  | .ldReg _ _ => .ldReg
  | .orReg _ _ => .orReg
  | .andReg _ _ => .andReg
  | .xorReg _ _ => .xorReg
  | .addReg _ _ => .addReg
  | .subReg _ _ => .subReg
  | .shr _ _ => .shr
  | .subnReg _ _ => .subnReg
  | .shl _ _ => .shl
  | .sneReg _ _ => .sneReg
  | .ldI _ => .ldI
  | .jpV0 _ => .jpV0
  | .rnd _ _ => .rnd
  | .drw _ _ _ => .drw
  | .skp _ => .skp
  | .sknp _ => .sknp
  | .ldVxDT _ => .ldVxDT
  | .ldVxK _ => .ldVxK
  | .ldDTVx _ => .ldDTVx
  | .ldSTVx _ => .ldSTVx
  | .addI _ => .addI
  | .ldF _ => .ldF
  | .ldB _ => .ldB
  | .dump _ => .dump
  | .load _ => .load

/-- `x` in its place, bits 11:8 (R73). -/
def xBits (x : Reg) : Word := (nibbleOf x).setWidth 16 <<< 8

/-- `y` in its place, bits 7:4 (R73). -/
def yBits (y : Reg) : Word := (nibbleOf y).setWidth 16 <<< 4

/-- The operands of an instruction, each in its form's place (R73), every fixed bit zero. -/
def operandBits : Instr → Word
  | .cls => 0x0000#16
  | .ret => 0x0000#16
  | .sys nnn => nnn.setWidth 16
  | .jp nnn => nnn.setWidth 16
  | .call nnn => nnn.setWidth 16
  | .seImm x nn => xBits x ||| nn.setWidth 16
  | .sneImm x nn => xBits x ||| nn.setWidth 16
  | .seReg x y => xBits x ||| yBits y
  | .ldImm x nn => xBits x ||| nn.setWidth 16
  | .addImm x nn => xBits x ||| nn.setWidth 16
  | .ldReg x y => xBits x ||| yBits y
  | .orReg x y => xBits x ||| yBits y
  | .andReg x y => xBits x ||| yBits y
  | .xorReg x y => xBits x ||| yBits y
  | .addReg x y => xBits x ||| yBits y
  | .subReg x y => xBits x ||| yBits y
  | .shr x y => xBits x ||| yBits y
  | .subnReg x y => xBits x ||| yBits y
  | .shl x y => xBits x ||| yBits y
  | .sneReg x y => xBits x ||| yBits y
  | .ldI nnn => nnn.setWidth 16
  | .jpV0 nnn => nnn.setWidth 16
  | .rnd x nn => xBits x ||| nn.setWidth 16
  | .drw x y n => xBits x ||| yBits y ||| n.setWidth 16
  | .skp x => xBits x
  | .sknp x => xBits x
  | .ldVxDT x => xBits x
  | .ldVxK x => xBits x
  | .ldDTVx x => xBits x
  | .ldSTVx x => xBits x
  | .addI x => xBits x
  | .ldF x => xBits x
  | .ldB x => xBits x
  | .dump x => xBits x
  | .load x => xBits x

/-- The word of an instruction over a table: its form's fixed bits and its operands. -/
def encodeWith (t : Config.PatternTable) (i : Instr) : Word := (t.pattern i.form).value ||| operandBits i

/-- The encoder of this machine. -/
def encode (i : Instr) : Word := encodeWith Config.patterns i

/-- The bytes of an instruction in memory order. -/
def encodeBytes (i : Instr) : List Byte := [hiByte (encode i), loByte (encode i)]

/-! ### The opcode table's numbering -/

/-- The word whose bits the opcode table numbers `w`, given on `nbits` bits. The table has 16-bit rows only, so its bit 0
is bit 0 of the word; bits at or above `nbits` are 0. -/
def tableWord (nbits w : Nat) : Nat := w % 2 ^ nbits

/-- The instruction the decoder reads from a row's bits, laid out as memory holds them. A number that does not fit one
word is no instruction [log 12]. -/
def decodeTableWord (nbits w : Nat) : Option Instr :=
  let v := tableWord nbits w
  if v < 0x10000 then
    match decodeBytes [hiByte (BitVec.ofNat 16 v), loByte (BitVec.ofNat 16 v)] with
    | .ok (i, _) => some i
    | .error _ => none
  else none

end Sys2Proof
end

