-- ==== Sys2Proof/Machine/Font.lean ====
section
/-! DEFINITION. What reset writes into memory (20_memory.md R52, R56; 70_reset_and_hazards.md R250).

FONT is the configuration value of R56. The spec takes its bytes from general knowledge of CHIP-8, not from its source
(92_eei_decisions.md D36), so a claim about glyph pixels names `font` [log 6]. -/

namespace Sys2Proof.Machine

/-- FONT: 16 glyphs of 5 rows, each row's most significant bit leftmost. -/
def font : List Byte :=
  [0xF0#8, 0x90#8, 0x90#8, 0x90#8, 0xF0#8] ++ -- 0
  [0x20#8, 0x60#8, 0x20#8, 0x20#8, 0x70#8] ++ -- 1
  [0xF0#8, 0x10#8, 0xF0#8, 0x80#8, 0xF0#8] ++ -- 2
  [0xF0#8, 0x10#8, 0xF0#8, 0x10#8, 0xF0#8] ++ -- 3
  [0x90#8, 0x90#8, 0xF0#8, 0x10#8, 0x10#8] ++ -- 4
  [0xF0#8, 0x80#8, 0xF0#8, 0x10#8, 0xF0#8] ++ -- 5
  [0xF0#8, 0x80#8, 0xF0#8, 0x90#8, 0xF0#8] ++ -- 6
  [0xF0#8, 0x10#8, 0x20#8, 0x40#8, 0x40#8] ++ -- 7
  [0xF0#8, 0x90#8, 0xF0#8, 0x90#8, 0xF0#8] ++ -- 8
  [0xF0#8, 0x90#8, 0xF0#8, 0x10#8, 0xF0#8] ++ -- 9
  [0xF0#8, 0x90#8, 0xF0#8, 0x90#8, 0x90#8] ++ -- A
  [0xE0#8, 0x90#8, 0xE0#8, 0x90#8, 0xE0#8] ++ -- B
  [0xF0#8, 0x80#8, 0x80#8, 0x80#8, 0xF0#8] ++ -- C
  [0xE0#8, 0x90#8, 0x90#8, 0x90#8, 0xE0#8] ++ -- D
  [0xF0#8, 0x80#8, 0xF0#8, 0x80#8, 0xF0#8] ++ -- E
  [0xF0#8, 0x80#8, 0xF0#8, 0x80#8, 0x80#8]    -- F

/-- The byte at an address right after reset: the font at 0x000 to 0x04F, zero above (R52). -/
def resetByte (a : Nat) : Byte :=
  if a < Config.fontSize then font.getD a 0x00#8 else 0x00#8

end Sys2Proof.Machine
end

