-- ==== Sys2Proof/Machine/State.lean ====
section
/-! DEFINITION. The Machine State (10_state.md R20 to R36), the ways a step can stop, and the state after reset. -/

namespace Sys2Proof.Machine

/-- Memory: the bytes that differ from what reset leaves, at strictly rising addresses. The canonical form and the
reading and writing of a byte are in Machine/Memory.lean. -/
abbrev Memory := List Host.Cell

/-- The 64 x 32 display, one bit a cell, row-major and 64 wide (10_state.md R31): row py holds the 64 cells
disp[64 * py] to disp[64 * py + 63], cell px at bit px [log 5]. -/
abbrev Display := Vector (BitVec 64) 32

/-- The code in the fault latch (10_state.md R33; 60_exceptions.md R221). Codes 6 and 7 are unused. -/
inductive FaultCode where
  /-- 0: no fault. -/
  | none
  /-- 1: the fetch would read above 0xFFF. -/
  | fetchRange
  /-- 2: an instruction would touch memory above 0xFFF. -/
  | dataRange
  /-- 3: CALL with 16 entries in use. -/
  | stackOverflow
  /-- 4: RET with no entry in use. -/
  | stackUnderflow
  /-- 5: SKP or SKNP with a key index above 0xF. -/
  | keyRange
  deriving DecidableEq, Repr

/-- The whole state of one machine. Field names are the spec's. -/
structure State where
  /-- 4096 bytes (R20; 20_memory.md R50). -/
  mem : Memory
  /-- V0 to VF (R21). -/
  V : Vector Byte 16
  /-- The index register (R24). -/
  I : Word
  /-- The program counter (R25). -/
  pc : Word
  /-- The saved program-counter values (R26). -/
  stack : Vector Word 16
  /-- The number of stack entries in use, 0 to 16 in five bits (R26, R27; 92_eei_decisions.md D25). -/
  SP : BitVec 5
  /-- The delay timer (R28). -/
  DT : Byte
  /-- The sound timer (R29). -/
  ST : Byte
  /-- keys[k] is bit k, 1 when pressed (R30). -/
  keys : BitVec 16
  /-- disp[px + 64 * py] is bit px of row py (R31). -/
  disp : Display
  /-- The dirty flag (R32). -/
  dirty : Bool
  /-- The fault latch's code (R33). -/
  FAULT : FaultCode
  /-- The address of the word that faulted (R33). -/
  FAULT_PC : Word
  /-- The faulting address or value (R33). -/
  FAULT_INFO : Word
  /-- The model's own: the byte handed in with CYCLE(rnd) that no RND has consumed yet (40_cycle.md R100) [log 4]. -/
  rndIn : Option Byte
  /-- The model's own: how many free draws RND has taken (45_timers_input_random.md R200) [log 3]. -/
  draws : Nat
  deriving DecidableEq, Repr

/-- Why the model stops, where the machine has nothing to go on with. The five faults of the spec are NOT here: the
machine takes them as states (60_exceptions.md R222). -/
inductive Fault where
  /-- Raised by CALL and RET when SP is above 16. The spec says such values are never reached (10_state.md R27;
  92_eei_decisions.md D25) and gives no effect for them. Safe: no run from reset meets it [log 2]. -/
  | stackPointerOutOfRange
  deriving DecidableEq, Repr

/-- What the model gives no meaning. -/
inductive Refusal where
  /-- Raised by exec for an instruction that has no meaning yet. Safe. No instruction of this model is left so. -/
  | notModelled (mnemonic : String)
  /-- Raised by the host operation LOAD after a CYCLE or after a successful LOAD (70_reset_and_hazards.md R253:
  "refused (not modelled)" in 92_eei_decisions.md D31). Safe. No instruction raises it [log 9]. -/
  | loadNotAdmitted
  deriving DecidableEq, Repr

/-- What a meaning answers. -/
abbrev Result := Host.Outcome State Fault Refusal

/-- What one cycle reports to the host (40_cycle.md R106). It is not state (10_state.md R34). -/
structure CycleResult where
  displayChanged : Bool
  beep : Bool
  fault : FaultCode
  deriving DecidableEq, Repr

/-- The state RESET leaves (10_state.md R20; 70_reset_and_hazards.md R250). No memory byte is listed: an unlisted byte
reads as what reset writes there. `rndIn` and `draws` are the model's own [log 3, log 4]. -/
def State.reset : State where
  mem := []
  V := Vector.replicate 16 0x00#8
  I := 0x0000#16
  pc := 0x0200#16
  stack := Vector.replicate 16 0x0000#16
  SP := 0#5
  DT := 0x00#8
  ST := 0x00#8
  keys := 0#16
  disp := Vector.replicate 32 0#64
  dirty := true
  FAULT := .none
  FAULT_PC := 0x0000#16
  FAULT_INFO := 0x0000#16
  rndIn := none
  draws := 0

end Sys2Proof.Machine
end

