-- ==== Sys2Proof/Machine/Memory.lean ====
section
/-! DEFINITION. Reading and writing one byte of memory (20_memory.md R50 to R63; 00_scope.md R12), and the canonical
form of a memory. Wider transfers are sequences of bytes (R58), and they are built here, once. -/

namespace Sys2Proof.Machine

/-- The canonical form from address `lo` up: addresses strictly rising, all in the address space, and no entry equal to
what an unlisted address reads as. -/
def Memory.wfFrom (lo : Nat) : Memory → Bool
  | [] => true
  | (a, v) :: m => decide (lo ≤ a) && decide (a < Config.memSize) && (v != resetByte a) && Memory.wfFrom (a + 1) m

/-- The canonical form: equal memories are equal lists. -/
def Memory.wf (m : Memory) : Bool := Memory.wfFrom 0 m

/-- MemRead(a, 1). An unlisted address reads as reset left it (70_reset_and_hazards.md R250). -/
def Memory.read : Memory → Nat → Byte
  | [], a => resetByte a
  | (b, v) :: m, a => if a = b then v else Memory.read m a

/-- Writing one byte at an address that exists, keeping the list canonical. -/
def Memory.put (a : Nat) (v : Byte) : Memory → Memory
  | [] => if v = resetByte a then [] else [(a, v)]
  | (b, u) :: m =>
    if a < b then if v = resetByte a then (b, u) :: m else (a, v) :: (b, u) :: m
    else if a = b then if v = resetByte a then m else (a, v) :: m
    else (b, u) :: Memory.put a v m

/-- MemWrite(a, 1, v). It is never performed above 0xFFF (R53); there it changes nothing [log 11]. -/
def Memory.write (m : Memory) (a : Nat) (v : Byte) : Memory :=
  if a < Config.memSize then Memory.put a v m else m

/-- MemWrite of consecutive bytes from `a`, in order. -/
def Memory.writeList (m : Memory) (a : Nat) : List Byte → Memory
  | [] => m
  | v :: vs => Memory.writeList (Memory.write m a v) (a + 1) vs

end Sys2Proof.Machine
end

