-- ==== Sys2Proof/Machine/Ops.lean ====
section
/-! DEFINITION. The named operations over registers, memory, stack, display, timers and the fault latch, which every
meaning is written from. -/

namespace Sys2Proof.Machine

/-! ### Registers -/

/-- `V[r]` (10_state.md R21). -/
def State.getV (s : State) (r : Reg) : Byte := s.V[r]

/-- `V[r] <- v`. No register is hardwired (R21). -/
def State.setV (s : State) (r : Reg) (v : Byte) : State := { s with V := s.V.set r v }

/-- `I <- a` (R24). -/
def State.setI (s : State) (a : Word) : State := { s with I := a }

/-- `pc <- a` (R25). -/
def State.setPc (s : State) (a : Word) : State := { s with pc := a }

/-- `DT <- v` (R28). -/
def State.setDT (s : State) (v : Byte) : State := { s with DT := v }

/-- `ST <- v` (R29). -/
def State.setST (s : State) (v : Byte) : State := { s with ST := v }

/-- `keys <- k`: only the host does this (R30). -/
def State.setKeys (s : State) (k : BitVec 16) : State := { s with keys := k }

/-- `dirty <- d` (R32). -/
def State.setDirty (s : State) (d : Bool) : State := { s with dirty := d }

/-- `keys[k]` (R30). -/
def State.key (s : State) (k : Nat) : Bool := s.keys.getLsbD k

/-! ### Memory -/

/-- MemRead(a, 1) (00_scope.md R12). -/
def State.readMem (s : State) (a : Nat) : Byte := s.mem.read a

/-- The whole memory replaced. -/
def State.setMem (s : State) (m : Memory) : State := { s with mem := m }

/-- MemWrite of consecutive bytes from `a` (R12; 20_memory.md R58). -/
def State.writeBytes (s : State) (a : Nat) (vs : List Byte) : State := s.setMem (s.mem.writeList a vs)

/-! ### The program counter -/

/-- The fetch advance, `pc <- trunc_16(ipc + 2)` (40_cycle.md R101). A taken skip does the same once more
(41_control.md R120). -/
def State.advance (s : State) : State := s.setPc (s.pc + 2#16)

/-- `pc <- ipc`: back to the address of the word being executed. During execute `pc` is `ipc + 2` (10_state.md R25), so
`ipc` is read from it [log 10]. -/
def State.undoFetch (s : State) : State := s.setPc (s.pc - 2#16)

/-- The word at `pc`, first byte high (40_cycle.md R101; 20_memory.md R55). -/
def State.fetchWord (s : State) : Word := wordOfBytes (s.readMem s.pc.toNat) (s.readMem (s.pc.toNat + 1))

/-- The fetch stays in memory: `pc + 1 ≤ 0xFFF` (40_cycle.md R101). -/
def State.fetchable (s : State) : Bool := decide (s.pc.toNat + 1 ≤ Config.lastAddr)

/-- A skip that is taken when `c` holds (41_control.md R120). -/
def State.skipIf (s : State) (c : Bool) : State := if c then s.advance else s

/-! ### Faults: taking one (60_exceptions.md R222)

There is no return from a fault: no handler, no vector, no saved-state area (R222, R231). Only RESET clears the latch. -/

/-- The fault entry. `s0` is the state at the start of the cycle: all of it is kept, `pc` pointing at the faulting word,
and only the latch is written. -/
def State.takeFault (s0 : State) (c : FaultCode) (info : Nat) : State :=
  { s0 with FAULT := c, FAULT_PC := s0.pc, FAULT_INFO := BitVec.ofNat 16 info }

/-- `raise F(info)` inside execute (00_scope.md R13). Every form checks before it writes anything, so the state at the
start of the cycle is the present one with the fetch advance undone. -/
def State.raise (s : State) (c : FaultCode) (info : Nat) : Result := .next (s.undoFetch.takeFault c info)

/-- The 3-bit code of a latch value (60_exceptions.md R221). -/
def FaultCode.toBits : FaultCode → BitVec 3
  | .none => 0#3
  | .fetchRange => 1#3
  | .dataRange => 2#3
  | .stackOverflow => 3#3
  | .stackUnderflow => 4#3
  | .keyRange => 5#3

/-- The lowest address outside memory among those from `lo` up (43_index_memory.md R170; 40_cycle.md R101). -/
def firstOutside (lo : Nat) : Nat := max lo 0x1000

/-- CheckRange(lo, hi), then `k` (43_index_memory.md R170). -/
def State.checkRange (s : State) (lo hi : Nat) (k : Result) : Result :=
  if hi > Config.lastAddr then s.raise .dataRange (firstOutside lo) else k

/-! ### The call stack (10_state.md R26) -/

/-- The stack and its pointer written together. -/
def State.setStack (s : State) (st : Vector Word 16) (sp : BitVec 5) : State := { s with stack := st, SP := sp }

/-- `stack[SP] <- a; SP <- SP + 1`, for SP below 16. A full stack is the caller's fault; above 16 nothing is defined
[log 2]. -/
def State.push (s : State) (a : Word) : Option State :=
  if h : s.SP.toNat < 16 then some (s.setStack (s.stack.set s.SP.toNat a) (s.SP + 1#5)) else none

/-- `SP <- SP - 1` and the entry then at the top, for SP from 1 to 16. The entry keeps its value. -/
def State.pop (s : State) : Option (Word × State) :=
  if h : s.SP.toNat - 1 < 16 then some (s.stack[s.SP.toNat - 1], s.setStack s.stack (s.SP - 1#5)) else none

/-! ### The display (10_state.md R31) -/

/-- `disp[j]`, for j from 0 to 2047: column j mod 64 of row j div 64. -/
def Display.cell (d : Display) (j : Nat) : Bool :=
  if h : j / Config.displayWidth < 32 then d[j / Config.displayWidth].getLsbD (j % Config.displayWidth) else false

/-- `disp[j]`. -/
def State.cell (s : State) (j : Nat) : Bool := Display.cell s.disp j

/-- Every cell 0. -/
def Display.clear : Display := Vector.replicate 32 0#64

/-- `disp[px + 64 * py] <- disp[px + 64 * py] ^ 1`, and nothing outside the frame. -/
def Display.flip (d : Display) (px py : Nat) : Display :=
  if h : py < 32 then d.set py (d[py] ^^^ BitVec.twoPow 64 px) else d

/-- The display written whole, and marked dirty (R32). -/
def State.setDisp (s : State) (d : Display) : State := { s with disp := d, dirty := true }

/-- The display under a draw: the cells, and whether some cell went from 1 to 0 so far (44_display.md R191). -/
structure Canvas where
  cells : Display
  hit : Bool
  deriving DecidableEq, Repr

/-- Index of the cell at column `px`, row `py` (10_state.md R31; 44_display.md R192). -/
def cellIndex (px py : Nat) : Nat := px + Config.displayWidth * py

/-- Flip one cell, clipped to the frame (44_display.md R191). -/
def Canvas.flip (c : Canvas) (px py : Nat) : Canvas :=
  if px < Config.displayWidth ∧ py < Config.displayHeight then
    { cells := Display.flip c.cells px py, hit := c.hit || Display.cell c.cells (cellIndex px py) }
  else c

/-- One sprite row: bit 7 of `row` at column `xc`, bit 0 at column `xc + 7` (44_display.md R191, R192). -/
def Canvas.drawRow (c : Canvas) (xc py : Nat) (row : Byte) : Canvas :=
  (List.range 8).foldl (fun c k => if row.getLsbD (7 - k) then c.flip (xc + k) py else c) c

/-- A sprite, its rows downward from row `yc` (44_display.md R191). -/
def Canvas.drawRows (c : Canvas) (xc : Nat) : Nat → List Byte → Canvas
  | _, [] => c
  | yc, row :: rows => Canvas.drawRows (c.drawRow xc yc row) xc (yc + 1) rows

/-- The `n` bytes of memory from `I` (43_index_memory.md R175, R176; 44_display.md R191). -/
def State.bytesAtI (s : State) (n : Nat) : List Byte := (List.range n).map fun k => s.readMem (s.I.toNat + k)

/-! ### The random byte (45_timers_input_random.md R200) -/

/-- `rnd`: the byte handed in with the cycle, or else a free draw [log 3, log 4]. -/
def State.rnd (s : State) : Byte :=
  match s.rndIn with
  | some b => b
  | none => Config.randomByte s.draws

/-- The draw is used up, so that the next one is unrelated. -/
def State.useRnd (s : State) : State :=
  match s.rndIn with
  | some _ => { s with rndIn := none }
  | none => { s with draws := s.draws + 1 }

/-- The host hands in the random byte of the coming cycle, or takes it back (60_exceptions.md R243). -/
def State.setRndIn (s : State) (b : Option Byte) : State := { s with rndIn := b }

/-! ### Timers (40_cycle.md R105) -/

/-- A timer decremented by at most 1, floored at 0. -/
def tickByte (t : Byte) : Byte := if t = 0x00#8 then 0x00#8 else t - 0x01#8

/-- The timer update at the end of a completed cycle. -/
def State.tick (s : State) : State := (s.setDT (tickByte s.DT)).setST (tickByte s.ST)

/-- `beep`: the sound timer goes from 1 to 0 in this update. -/
def State.beeps (s : State) : Bool := s.ST == 0x01#8

end Sys2Proof.Machine
end

