-- ==== Sys2Proof/Machine/Flags.lean ====
section
/-! DEFINITION. Every value an instruction writes to VF as a flag (10_state.md R22; 42_alu.md R140). -/

namespace Sys2Proof.Machine

/-- `bool8(c)`: 0x01 if `c` holds and 0x00 otherwise (00_scope.md R10). -/
def bool8 (c : Bool) : Byte := if c then 0x01#8 else 0x00#8

/-- Carry of ADD Vx, Vy: the exact sum exceeds 255 (42_alu.md R147). -/
def carryFlag (a b : Byte) : Byte := bool8 (decide (a.toNat + b.toNat > 255))

/-- NOT borrow of `a - b`: 1 when a ≥ b (42_alu.md R148; R150 with the operands exchanged). -/
def notBorrowFlag (a b : Byte) : Byte := bool8 (decide (a.toNat ≥ b.toNat))

/-- The bit SHR shifts out (42_alu.md R149). -/
def lsbFlag (a : Byte) : Byte := a &&& 0x01#8

/-- The bit SHL shifts out (42_alu.md R151). -/
def msbFlag (a : Byte) : Byte := (a >>> 7) &&& 0x01#8

/-- Index overflow of ADD I, Vx, tested on the stored 16-bit result (43_index_memory.md R172). -/
def indexFlag (t : Word) : Byte := bool8 (decide (t.toNat > 0x0FFF))

/-- Collision of DRW (44_display.md R191). -/
def collisionFlag (hit : Bool) : Byte := bool8 hit

/-- The result first, the flag last, so that VF ends with the flag (42_alu.md R140; 92_eei_decisions.md D5). -/
def State.setVThenFlag (s : State) (x : Reg) (v flag : Byte) : State := (s.setV x v).setV VF flag

end Sys2Proof.Machine
end

