-- ==== Sys2Proof/Machine/Operands.lean ====
section
/-! DEFINITION. The operand forms (30_encoding.md R74, R75): a register, the immediates NN, NNN and N, memory at `I`, and
the values the rules compute from them. -/

namespace Sys2Proof.Machine

/-- `zext_16(NNN)` (R74). -/
def addrOf (nnn : Imm12) : Word := nnn.setWidth 16

/-- `zext_16(V[r])`. -/
def State.wideV (s : State) (r : Reg) : Word := (s.getV r).setWidth 16

/-- The glyph address of a value, `v * 5`, not masked (43_index_memory.md R173). -/
def glyphAddr (v : Byte) : Word := v.setWidth 16 * 5#16

/-- Hundreds, tens and units of a byte (43_index_memory.md R174). -/
def bcdDigits (v : Byte) : List Byte :=
  [BitVec.ofNat 8 (v.toNat / 100), BitVec.ofNat 8 (v.toNat / 10 % 10), BitVec.ofNat 8 (v.toNat % 10)]

/-- V0 to Vx, as the register dump stores them (43_index_memory.md R175). -/
def State.regsUpTo (s : State) (x : Reg) : List Byte := s.V.toList.take (x.val + 1)

/-- `V[k] <- MemRead(I + k, 1)` for k = 0 to x (43_index_memory.md R176). -/
def State.loadRegs (s : State) (x : Reg) : State :=
  { s with V := Vector.ofFn fun k : Fin 16 => if k.val ≤ x.val then s.readMem (s.I.toNat + k.val) else s.V[k] }

/-- `I <- trunc_16(I + x + 1)`: the index x, not the value of Vx (43_index_memory.md R175, R176; 90_conflicts.md C2). -/
def State.bumpI (s : State) (x : Reg) : State := s.setI (s.I + BitVec.ofNat 16 (x.val + 1))

/-- `k <- V[x]`, a key index, which must be at most 0xF (45_timers_input_random.md R201, R202). -/
def State.withKeyIndex (s : State) (x : Reg) (k : Nat → Result) : Result :=
  if (s.getV x).toNat > 0x0F then s.raise .keyRange (s.getV x).toNat else k (s.getV x).toNat

/-- The least pressed key from key `k` on, looking at `fuel` keys. -/
def leastKeyFrom (keys : BitVec 16) (k : Nat) : Nat → Option Nat
  | 0 => none
  | fuel + 1 => if keys.getLsbD k then some k else leastKeyFrom keys (k + 1) fuel

/-- The least k in 0 to 15 with keys[k] = 1 (45_timers_input_random.md R206; 92_eei_decisions.md D16). -/
def State.leastKey (s : State) : Option Nat := leastKeyFrom s.keys 0 16

end Sys2Proof.Machine
end

