-- ==== Sys2Proof/Machine/Alu.lean ====
section
/-! DEFINITION. Register loads and arithmetic and logic (42_alu.md R140 to R152). Operands are read before anything is
written, the result is written before the flag (R140). -/

namespace Sys2Proof.Machine

/-- LD Vx, NN (R141). -/
def execLdImm (x : Reg) (nn : Byte) (s : State) : Result := .next (s.setV x nn)

/-- ADD Vx, NN: no flag (R142). -/
def execAddImm (x : Reg) (nn : Byte) (s : State) : Result := .next (s.setV x (s.getV x + nn))

/-- LD Vx, Vy (R143). -/
def execLdReg (x y : Reg) (s : State) : Result := .next (s.setV x (s.getV y))

/-- OR Vx, Vy: VF unchanged (R144; 92_eei_decisions.md D6). -/
def execOrReg (x y : Reg) (s : State) : Result := .next (s.setV x (s.getV x ||| s.getV y))

/-- AND Vx, Vy: VF unchanged (R145; 92_eei_decisions.md D6). -/
def execAndReg (x y : Reg) (s : State) : Result := .next (s.setV x (s.getV x &&& s.getV y))

/-- XOR Vx, Vy: VF unchanged (R146; 92_eei_decisions.md D6). -/
def execXorReg (x y : Reg) (s : State) : Result := .next (s.setV x (s.getV x ^^^ s.getV y))

/-- ADD Vx, Vy: VF = carry (R147). -/
def execAddReg (x y : Reg) (s : State) : Result :=
  .next (s.setVThenFlag x (s.getV x + s.getV y) (carryFlag (s.getV x) (s.getV y)))

/-- SUB Vx, Vy: VF = NOT borrow (R148). -/
def execSubReg (x y : Reg) (s : State) : Result :=
  .next (s.setVThenFlag x (s.getV x - s.getV y) (notBorrowFlag (s.getV x) (s.getV y)))

/-- SHR Vx: Vy is ignored (R149; 92_eei_decisions.md D7). -/
def execShr (x _y : Reg) (s : State) : Result :=
  .next (s.setVThenFlag x (s.getV x >>> 1) (lsbFlag (s.getV x)))

/-- SUBN Vx, Vy: Vy is the minuend (R150). -/
def execSubnReg (x y : Reg) (s : State) : Result :=
  .next (s.setVThenFlag x (s.getV y - s.getV x) (notBorrowFlag (s.getV y) (s.getV x)))

/-- SHL Vx: Vy is ignored (R151; 92_eei_decisions.md D7). -/
def execShl (x _y : Reg) (s : State) : Result :=
  .next (s.setVThenFlag x (s.getV x <<< 1) (msbFlag (s.getV x)))

end Sys2Proof.Machine
end

