-- ==== Sys2Proof/Machine/Control.lean ====
section
/-! DEFINITION. Control transfer (41_control.md R120 to R129). Each meaning is the execute step of one form, run with
`pc = ipc + 2`. -/

namespace Sys2Proof.Machine

/-- RET (R121). -/
def execRet (s : State) : Result :=
  if s.SP = 0#5 then s.raise .stackUnderflow 0
  else
    match s.pop with
    | some (a, t) => .next (t.setPc a)
    | none => .fault .stackPointerOutOfRange

/-- SYS NNN: no effect (R129). -/
def execSys (_nnn : Imm12) (s : State) : Result := .next s

/-- JP NNN (R122). -/
def execJp (nnn : Imm12) (s : State) : Result := .next (s.setPc (addrOf nnn))

/-- CALL NNN (R123). -/
def execCall (nnn : Imm12) (s : State) : Result :=
  if s.SP = 16#5 then s.raise .stackOverflow nnn.toNat
  else
    match s.push s.pc with
    | some t => .next (t.setPc (addrOf nnn))
    | none => .fault .stackPointerOutOfRange

/-- SE Vx, NN (R124). -/
def execSeImm (x : Reg) (nn : Byte) (s : State) : Result := .next (s.skipIf (s.getV x == nn))

/-- SNE Vx, NN (R125). -/
def execSneImm (x : Reg) (nn : Byte) (s : State) : Result := .next (s.skipIf (s.getV x != nn))

/-- SE Vx, Vy (R126). -/
def execSeReg (x y : Reg) (s : State) : Result := .next (s.skipIf (s.getV x == s.getV y))

/-- SNE Vx, Vy (R127). -/
def execSneReg (x y : Reg) (s : State) : Result := .next (s.skipIf (s.getV x != s.getV y))

/-- JP V0, NNN (R128). -/
def execJpV0 (nnn : Imm12) (s : State) : Result := .next (s.setPc (addrOf nnn + s.wideV 0))

end Sys2Proof.Machine
end

