-- ==== Sys2Proof/Machine/Display.lean ====
section
/-! DEFINITION. The display (44_display.md R190 to R192). -/

namespace Sys2Proof.Machine

/-- CLS: `dirty` is set even when the buffer was clear (R190; 92_eei_decisions.md D22). -/
def execCls (s : State) : Result := .next (s.setDisp Display.clear)

/-- What a draw of `n` rows at Vx, Vy leaves on the display (R191). -/
def State.drawn (s : State) (x y : Reg) (n : Nibble) : Canvas :=
  Canvas.drawRows { cells := s.disp, hit := false } (s.getV x).toNat (s.getV y).toNat (s.bytesAtI n.toNat)

/-- The draw itself, once its bytes are known to lie in memory (R191). -/
def State.draw (s : State) (x y : Reg) (n : Nibble) : State :=
  (s.setV VF (collisionFlag (s.drawn x y n).hit)).setDisp (s.drawn x y n).cells

/-- DRW Vx, Vy, N: coordinates are read before VF is written, and a draw of no rows checks no range (R191;
92_eei_decisions.md D13, D14). -/
def execDrw (x y : Reg) (n : Nibble) (s : State) : Result :=
  if n = 0x0#4 then .next (s.draw x y n)
  else s.checkRange s.I.toNat (s.I.toNat + n.toNat - 1) (.next (s.draw x y n))

end Sys2Proof.Machine
end

