-- ==== Sys2Proof/Machine/IndexMemory.lean ====
section
/-! DEFINITION. The index register and memory transfer (43_index_memory.md R170 to R176). -/

namespace Sys2Proof.Machine

/-- LD I, NNN (R171). -/
def execLdI (nnn : Imm12) (s : State) : Result := .next (s.setI (addrOf nnn))

/-- ADD I, Vx: VF = index overflow of the stored result (R172; 92_eei_decisions.md D8). -/
def execAddI (x : Reg) (s : State) : Result :=
  .next ((s.setI (s.I + s.wideV x)).setV VF (indexFlag (s.I + s.wideV x)))

/-- LD F, Vx (R173). -/
def execLdF (x : Reg) (s : State) : Result := .next (s.setI (glyphAddr (s.getV x)))

/-- LD B, Vx (R174). -/
def execLdB (x : Reg) (s : State) : Result :=
  s.checkRange s.I.toNat (s.I.toNat + 2) (.next (s.writeBytes s.I.toNat (bcdDigits (s.getV x))))

/-- LD [I], Vx (R175). -/
def execDump (x : Reg) (s : State) : Result :=
  s.checkRange s.I.toNat (s.I.toNat + x.val) (.next ((s.writeBytes s.I.toNat (s.regsUpTo x)).bumpI x))

/-- LD Vx, [I] (R176). -/
def execLoad (x : Reg) (s : State) : Result :=
  s.checkRange s.I.toNat (s.I.toNat + x.val) (.next ((s.loadRegs x).bumpI x))

end Sys2Proof.Machine
end

