-- ==== Sys2Proof/Machine/RandomKeysTimers.lean ====
section
/-! DEFINITION. Random, key input and timer transfer (45_timers_input_random.md R200 to R206). -/

namespace Sys2Proof.Machine

/-- RND Vx, NN (R200). -/
def execRnd (x : Reg) (nn : Byte) (s : State) : Result := .next (s.useRnd.setV x (s.rnd &&& nn))

/-- SKP Vx (R201). -/
def execSkp (x : Reg) (s : State) : Result := s.withKeyIndex x fun k => .next (s.skipIf (s.key k))

/-- SKNP Vx (R202). -/
def execSknp (x : Reg) (s : State) : Result := s.withKeyIndex x fun k => .next (s.skipIf (!s.key k))

/-- LD Vx, DT (R203). -/
def execLdVxDT (x : Reg) (s : State) : Result := .next (s.setV x s.DT)

/-- LD DT, Vx (R204). -/
def execLdDTVx (x : Reg) (s : State) : Result := .next (s.setDT (s.getV x))

/-- LD ST, Vx (R205). -/
def execLdSTVx (x : Reg) (s : State) : Result := .next (s.setST (s.getV x))

/-- LD Vx, K (R206). With no key pressed, `pc <- ipc`; that the cycle then waits is `waits` in Machine/Cycle.lean. -/
def execLdVxK (x : Reg) (s : State) : Result :=
  match s.leastKey with
  | some k => .next (s.setV x (BitVec.ofNat 8 k))
  | none => .next s.undoFetch

end Sys2Proof.Machine
end

