-- ==== Sys2Proof/Machine/Cycle.lean ====
section
/-! DEFINITION. Run-one-cycle (40_cycle.md R100 to R109): fetch, decode, execute, timer update. -/

namespace Sys2Proof.Machine

/-- What a cycle answers: the next state and the report to the host, or a stop. -/
abbrev CycleOutcome := Host.Outcome (State × CycleResult) Fault Refusal

/-- The local signal `waiting` (R103): LD Vx, K found no key. `s` is the state in which the form executes. -/
def waits (i : Instr) (s : State) : Bool :=
  match i with
  | .ldVxK _ => s.leastKey.isNone
  | .cls | .ret | .sys _ | .jp _ | .call _ | .seImm _ _ | .sneImm _ _ | .seReg _ _ | .ldImm _ _ | .addImm _ _
  | .ldReg _ _ | .orReg _ _ | .andReg _ _ | .xorReg _ _ | .addReg _ _ | .subReg _ _ | .shr _ _ | .subnReg _ _
  | .shl _ _ | .sneReg _ _ | .ldI _ | .jpV0 _ | .rnd _ _ | .drw _ _ _ | .skp _ | .sknp _ | .ldVxDT _
  | .ldDTVx _ | .ldSTVx _ | .addI _ | .ldF _ | .ldB _ | .dump _ | .load _ => false

/-- The form is CLS or DRW, the two that report a display change (R106). -/
def changesDisplay (i : Instr) : Bool :=
  match i with
  | .cls | .drw _ _ _ => true
  | .ret | .sys _ | .jp _ | .call _ | .seImm _ _ | .sneImm _ _ | .seReg _ _ | .ldImm _ _ | .addImm _ _
  | .ldReg _ _ | .orReg _ _ | .andReg _ _ | .xorReg _ _ | .addReg _ _ | .subReg _ _ | .shr _ _ | .subnReg _ _
  | .shl _ _ | .sneReg _ _ | .ldI _ | .jpV0 _ | .rnd _ _ | .skp _ | .sknp _ | .ldVxDT _ | .ldVxK _
  | .ldDTVx _ | .ldSTVx _ | .addI _ | .ldF _ | .ldB _ | .dump _ | .load _ => false

/-- A cycle that changed nothing but perhaps the latch (R106, R107; 60_exceptions.md R222). -/
def quiet (s : State) : State × CycleResult := (s, { displayChanged := false, beep := false, fault := s.FAULT })

/-- A completed cycle: the timer update, and the report (R105, R106). -/
def completed (t : State) (changed : Bool) : State × CycleResult :=
  (t.tick, { displayChanged := changed, beep := t.beeps, fault := t.FAULT })

/-- The end of a cycle whose form executed to `t` from `s`: a fault or a wait ends it before the timer update (R103,
R108). -/
def finish (i : Instr) (s t : State) : State × CycleResult :=
  if t.FAULT ≠ .none then quiet t
  else if waits i s then quiet t
  else completed t (changesDisplay i)

/-- The execute step of a decoded form and the end of its cycle. -/
def execute (i : Instr) (s : State) : CycleOutcome :=
  match exec i s with
  | .next t => .next (finish i s t)
  | .fault f => .fault f
  | .refused r => .refused r

/-- One cycle (R108). The latch is tested first (R107), then the fetch (R101), then the form's own check
(60_exceptions.md R229). An unrecognized word does nothing but let the fetch advance and the timer update stand (R104). -/
def cycle (s : State) : CycleOutcome :=
  if s.FAULT ≠ .none then .next (quiet s)
  else if s.fetchable = false then .next (quiet (s.takeFault .fetchRange (firstOutside s.pc.toNat)))
  else
    match decode s.fetchWord with
    | .ok i => execute i s.advance
    | .error _ => .next (completed s.advance false)

/-- The state a cycle leaves, without the report (10_state.md R34). -/
def stateAfter : CycleOutcome → Result
  | .next p => .next p.1
  | .fault f => .fault f
  | .refused r => .refused r

/-- Where the next fetch reads, made an address that can be fetched from: a `pc` out of range goes to 0x200. -/
def fetchSlot (s : State) : Word := if s.fetchable then s.pc else 0x0200#16

/-- The state with a word stored where the next cycle fetches, and able to fetch it [log 8]. -/
def placeWord (s : State) (w : Word) : State :=
  { s with
    pc := fetchSlot s
    FAULT := .none
    mem := s.mem.writeList (fetchSlot s).toNat [hiByte w, loByte w] }

end Sys2Proof.Machine
end

