-- ==== Sys2Proof/Machine/Step.lean ====
section
/-! DEFINITION. One step of the machine is one CYCLE (40_cycle.md R100; 60_exceptions.md R243). -/

namespace Sys2Proof.Machine

/-- The state after one cycle. -/
def step (s : State) : Host.Outcome State Fault Refusal := stateAfter (cycle s)

/-- The state with an instruction of the opcode table's numbering stored where the next step fetches [log 8]. -/
def State.withFetchWord (s : State) (nbits w : Nat) : State := placeWord s (BitVec.ofNat 16 (tableWord nbits w))

end Sys2Proof.Machine
end

