-- ==== Sys2Proof/Machine/HostInterface.lean ====
section
/-! DEFINITION. What the host can do to the machine (60_exceptions.md R240 to R248; 70_reset_and_hazards.md R250 to R256).

The host's operations are serialised, each one step, and there are no others (R240, R248). -/

namespace Sys2Proof.Machine

/-- What LOAD answers (R246). -/
inductive LoadStatus where
  | ok
  | unreadable
  | empty
  | tooLarge
  deriving DecidableEq, Repr

/-- An operation of the host. -/
inductive HostOp where
  /-- RESET() (R241). -/
  | reset
  /-- LOAD(image), `none` when the host could not read the image (R246). -/
  | load (image : Option (List Byte))
  /-- SET_KEYS(k) (R242). -/
  | setKeys (k : BitVec 16)
  /-- CYCLE(rnd) (R243). -/
  | cycle (rnd : Byte)
  /-- READ_DISPLAY() (R244). -/
  | readDisplay
  /-- CLEAR_DIRTY() (R245). -/
  | clearDirty
  deriving DecidableEq, Repr

/-- What an operation returns to the host (R248). -/
inductive HostReply where
  | nothing
  | loaded (status : LoadStatus)
  | ran (r : CycleResult)
  | display (disp : Display) (dirty : Bool)
  deriving DecidableEq, Repr

/-- A machine and what the host protocol remembers of it: whether LOAD is admitted, that is, no CYCLE and no successful
LOAD since RESET (70_reset_and_hazards.md R253; 92_eei_decisions.md D31) [log 9]. -/
structure Session where
  machine : State
  loadable : Bool
  deriving DecidableEq, Repr

/-- The session a RESET opens (R255). -/
def Session.start : Session := { machine := State.reset, loadable := true }

/-- The tests of R254, in their order. -/
def loadStatus : Option (List Byte) → LoadStatus
  | none => .unreadable
  | some image =>
    if image.length = 0 then .empty
    else if image.length > Config.progMax then .tooLarge
    else .ok

/-- LOAD's effect on the machine: the image verbatim from 0x200, or nothing (R253, R254). -/
def State.loadImage (s : State) (image : Option (List Byte)) : State :=
  match loadStatus image with
  | .ok => s.writeBytes Config.progBase (image.getD [])
  | .unreadable => s
  | .empty => s
  | .tooLarge => s

/-- LOAD stays admitted after a failed one (R254). -/
def LoadStatus.failed : LoadStatus → Bool
  | .ok => false
  | .unreadable => true
  | .empty => true
  | .tooLarge => true

/-- CYCLE(rnd): the cycle with this byte handed in. A byte no RND used is dropped with the cycle (R243). -/
def runCycle (rnd : Byte) (s : State) : CycleOutcome :=
  match cycle (s.setRndIn (some rnd)) with
  | .next (t, r) => .next (t.setRndIn none, r)
  | .fault f => .fault f
  | .refused r => .refused r

/-- One operation of the host. -/
def hostStep (op : HostOp) (h : Session) : Host.Outcome (Session × HostReply) Fault Refusal :=
  match op with
  | .reset => .next (Session.start, .nothing)
  | .load image =>
    if h.loadable then
      .next ({ machine := h.machine.loadImage image, loadable := (loadStatus image).failed }, .loaded (loadStatus image))
    else .refused .loadNotAdmitted
  | .setKeys k => .next ({ h with machine := h.machine.setKeys k }, .nothing)
  | .cycle rnd =>
    match runCycle rnd h.machine with
    | .next (t, r) => .next ({ machine := t, loadable := false }, .ran r)
    | .fault f => .fault f
    | .refused r => .refused r
  | .readDisplay => .next (h, .display h.machine.disp h.machine.dirty)
  | .clearDirty => .next ({ h with machine := h.machine.setDirty false }, .nothing)

end Sys2Proof.Machine
end

