-- ==== Sys2Proof/Safety.lean ====
section
/-! DEFINITION. The terms the claims use: what two states have in common, what a form may write, when a fault is due, and
the invariants of a run. -/

namespace Sys2Proof.Machine

/-! ### Frames -/

/-- One piece of the state, as small as an instruction can change it: a register, a byte of memory, a stack entry, a
display cell (10_state.md R20), or a field of the model's own. -/
inductive Component where
  | V (r : Reg)
  | I
  | pc
  | mem (a : Nat)
  | stack (k : Fin 16)
  | SP
  | DT
  | ST
  | keys
  | cell (j : Nat)
  | dirty
  | FAULT
  | FAULT_PC
  | FAULT_INFO
  | rndIn
  | draws
  deriving DecidableEq, Repr

/-- `c` has the same value in `s` and `t`. -/
def Unchanged (s t : State) : Component → Prop
  | .V r => t.getV r = s.getV r
  | .I => t.I = s.I
  | .pc => t.pc = s.pc
  | .mem a => t.readMem a = s.readMem a
  | .stack k => t.stack[k] = s.stack[k]
  | .SP => t.SP = s.SP
  | .DT => t.DT = s.DT
  | .ST => t.ST = s.ST
  | .keys => t.keys = s.keys
  | .cell j => t.cell j = s.cell j
  | .dirty => t.dirty = s.dirty
  | .FAULT => t.FAULT = s.FAULT
  | .FAULT_PC => t.FAULT_PC = s.FAULT_PC
  | .FAULT_INFO => t.FAULT_INFO = s.FAULT_INFO
  | .rndIn => t.rndIn = s.rndIn
  | .draws => t.draws = s.draws

/-- From `s` to `t` nothing changes but what `may` allows. -/
def ChangesOnly (s t : State) (may : Component → Prop) : Prop := ∀ c, ¬ may c → Unchanged s t c

/-- The three registers of the fault latch (10_state.md R33). -/
def InLatch (c : Component) : Prop := c = .FAULT ∨ c = .FAULT_PC ∨ c = .FAULT_INFO

/-- `t` is what `raise c(info)` in the execute step makes of `s`: `pc` back at the word executed, the latch written, and
nothing else (60_exceptions.md R222). In `s`, `pc` is two past that word (10_state.md R25). -/
def RaisedFrom (s t : State) (c : FaultCode) (info : Nat) : Prop :=
  t.FAULT = c ∧ t.FAULT_PC = s.pc - 2#16 ∧ t.FAULT_INFO = BitVec.ofNat 16 info ∧ t.pc = s.pc - 2#16 ∧
    ChangesOnly s t fun k => k = .pc ∨ InLatch k

/-- In `s`, the draw of `n` rows from `I` at Vx, Vy has a set bit at display column px, row py (44_display.md R191, R192):
bit 7 of a row byte lands on column Vx, row r of the sprite on display row Vy + r, coordinates exact. -/
def SpriteBit (s : State) (x y : Reg) (n : Nibble) (px py : Nat) : Prop :=
  (s.getV x).toNat ≤ px ∧ px < (s.getV x).toNat + 8 ∧ (s.getV y).toNat ≤ py ∧ py < (s.getV y).toNat + n.toNat ∧
    (s.readMem (s.I.toNat + (py - (s.getV y).toNat))).getLsbD (7 - (px - (s.getV x).toNat)) = true

/-- What a form, executed in `s`, may write when it does not fault: the w entries of the access matrix (10_state.md R36),
and `pc` for the writers of R25. Addresses, the stack entry and the cells are computed from `s` as the form computes them:
LD B and LD [I] store from `I` up (43_index_memory.md R174, R175), CALL pushes at SP (41_control.md R123), DRW flips cells
of the frame under the sprite's set bits (44_display.md R191). RND also uses up its draw, which is the model's own state
[log 3, log 4]. -/
def mayWrite (s : State) : Instr → Component → Prop
  | .cls, c => (∃ j, c = .cell j) ∨ c = .dirty
  | .ret, c => c = .SP ∨ c = .pc
  | .sys _, _ => False
  | .jp _, c => c = .pc
  | .call _, c => (∃ k : Fin 16, k.val = s.SP.toNat ∧ c = .stack k) ∨ c = .SP ∨ c = .pc
  | .seImm _ _, c => c = .pc
  | .sneImm _ _, c => c = .pc
  | .seReg _ _, c => c = .pc
  | .ldImm x _, c => c = .V x
  | .addImm x _, c => c = .V x
  | .ldReg x _, c => c = .V x
  | .orReg x _, c => c = .V x
  | .andReg x _, c => c = .V x
  | .xorReg x _, c => c = .V x
  | .addReg x _, c => c = .V x ∨ c = .V VF
  | .subReg x _, c => c = .V x ∨ c = .V VF
  | .shr x _, c => c = .V x ∨ c = .V VF
  | .subnReg x _, c => c = .V x ∨ c = .V VF
  | .shl x _, c => c = .V x ∨ c = .V VF
  | .sneReg _ _, c => c = .pc
  | .ldI _, c => c = .I
  | .jpV0 _, c => c = .pc
  | .rnd x _, c => c = .V x ∨ c = .rndIn ∨ c = .draws
  | .drw x y n, c => c = .V VF ∨ c = .dirty ∨
    ∃ px py, px < 64 ∧ py < 32 ∧ SpriteBit s x y n px py ∧ c = .cell (px + 64 * py)
  | .skp _, c => c = .pc
  | .sknp _, c => c = .pc
  | .ldVxDT x, c => c = .V x
  | .ldVxK x, c => c = .V x ∨ c = .pc
  | .ldDTVx _, c => c = .DT
  | .ldSTVx _, c => c = .ST
  | .addI _, c => c = .I ∨ c = .V VF
  | .ldF _, c => c = .I
  | .ldB _, c => ∃ a, s.I.toNat ≤ a ∧ a ≤ s.I.toNat + 2 ∧ c = .mem a
  | .dump x, c => c = .I ∨ ∃ a, s.I.toNat ≤ a ∧ a ≤ s.I.toNat + x.val ∧ c = .mem a
  | .load x, c => c = .I ∨ ∃ k : Reg, k ≤ x ∧ c = .V k

/-! ### When a fault is due (60_exceptions.md R221, R224 to R228) -/

/-- The form would touch memory above 0xFFF (R225). -/
def touchesAbove (s : State) : Instr → Prop
  | .ldB _ => s.I.toNat + 2 > 0xFFF
  | .dump x => s.I.toNat + x.val > 0xFFF
  | .load x => s.I.toNat + x.val > 0xFFF
  | .drw _ _ n => n.toNat > 0 ∧ s.I.toNat + n.toNat - 1 > 0xFFF
  | .cls | .ret | .sys _ | .jp _ | .call _ | .seImm _ _ | .sneImm _ _ | .seReg _ _ | .ldImm _ _ | .addImm _ _
  | .ldReg _ _ | .orReg _ _ | .andReg _ _ | .xorReg _ _ | .addReg _ _ | .subReg _ _ | .shr _ _ | .subnReg _ _
  | .shl _ _ | .sneReg _ _ | .ldI _ | .jpV0 _ | .rnd _ _ | .skp _ | .sknp _ | .ldVxDT _ | .ldVxK _
  | .ldDTVx _ | .ldSTVx _ | .addI _ | .ldF _ => False

/-- In `s`, at the start of a cycle, the fault `c` with this info is due (R221). -/
def Due (s : State) (info : Nat) : FaultCode → Prop
  | .none => False
  | .fetchRange => s.pc.toNat + 1 > 0xFFF ∧ info = max s.pc.toNat 0x1000
  | .dataRange =>
    s.pc.toNat + 1 ≤ 0xFFF ∧ ∃ i, decode s.fetchWord = .ok i ∧ touchesAbove s i ∧ info = max s.I.toNat 0x1000
  | .stackOverflow =>
    s.pc.toNat + 1 ≤ 0xFFF ∧ ∃ nnn, decode s.fetchWord = .ok (.call nnn) ∧ s.SP = 16#5 ∧ info = nnn.toNat
  | .stackUnderflow =>
    s.pc.toNat + 1 ≤ 0xFFF ∧ decode s.fetchWord = .ok .ret ∧ s.SP = 0#5 ∧ info = 0
  | .keyRange =>
    s.pc.toNat + 1 ≤ 0xFFF ∧ ∃ x, (decode s.fetchWord = .ok (.skp x) ∨ decode s.fetchWord = .ok (.sknp x)) ∧
      (s.getV x).toNat > 0x0F ∧ info = (s.getV x).toNat

/-- In `s`, at the start of a cycle, the execute step completes normally and leaves `t` (40_cycle.md R103): an unrecognized
word does nothing (R104), and a form neither faults nor waits. -/
def Completes (s t : State) : Prop :=
  ((∃ r, decode s.fetchWord = .error r) ∧ t = s.advance) ∨
    ∃ i, decode s.fetchWord = .ok i ∧ exec i s.advance = .next t ∧ t.FAULT = .none ∧ waits i s = false

/-! ### Safe states -/

/-- No fault is latched. A faulted state is never good (60_exceptions.md R223). -/
abbrev Good (s : State) : Prop := s.FAULT = .none

/-- What every state of a run has: memory in its canonical form, SP in range (10_state.md R27), and every saved or
current program counter where the writers of `pc` can put it (R25; 41_control.md R128). -/
structure Inv (s : State) : Prop where
  memory : s.mem.wf = true
  stackPointer : s.SP.toNat ≤ 16
  savedPcs : ∀ k : Fin 16, s.stack[k].toNat ≤ 0x1000
  programCounter : s.pc.toNat ≤ 0x10FE

/-- The latch tells the truth: while it is clear its other registers are 0, and once it is set, `pc` is still at the word
that faulted and the condition of its code still holds there (60_exceptions.md R221 to R223). -/
structure LatchTruth (s : State) : Prop where
  clear : s.FAULT = .none → s.FAULT_PC = 0#16 ∧ s.FAULT_INFO = 0#16
  at_pc : s.FAULT ≠ .none → s.FAULT_PC = s.pc
  due : s.FAULT ≠ .none → ∃ info, Due s info s.FAULT ∧ s.FAULT_INFO = BitVec.ofNat 16 info

/-- What every session of the host has. While LOAD is admitted, the machine is as RESET left it, but for what SET_KEYS
and CLEAR_DIRTY wrote (70_reset_and_hazards.md R253) [log 9]. -/
structure SessionInv (h : Session) : Prop where
  inv : Inv h.machine
  latch : LatchTruth h.machine
  fresh : h.loadable = true →
    h.machine = (State.reset.setKeys h.machine.keys).setDirty h.machine.dirty

/-- The sessions that a RESET and then any operations of the host lead to (60_exceptions.md R240, R248). Whatever image
is loaded, whatever keys and random bytes are handed in, the session is one of these. -/
inductive Reachable : Session → Prop where
  | start : Reachable Session.start
  | next (op : HostOp) (h h' : Session) (r : HostReply) : Reachable h → hostStep op h = .next (h', r) → Reachable h'

/-- `k` is reached from `h` by operations of the host that answer, none of them RESET. -/
inductive WithoutReset (h : Session) : Session → Prop where
  | refl : WithoutReset h h
  | next (op : HostOp) (k k' : Session) (r : HostReply) :
    WithoutReset h k → op ≠ .reset → hostStep op k = .next (k', r) → WithoutReset h k'

end Sys2Proof.Machine
end

