-- ==== Sys2Proof/Certificates/Slice0/Obligations.lean ====
section
/-! DEFINITION. The statements for the provers.

A statement about an instruction says which words decode to it, that it completes, what it leaves, and that it leaves
everything else. In a state given to `exec`, `pc` is already two past the word that is executed (10_state.md R25).

Many rules of spec/ rest on a decision D<n> of 92_eei_decisions.md, which is the spec's own choice and not its source's
[log 7]. A statement with a clause that rests on one names it, and its basis is 'derived'. The bit patterns of the words
themselves are decision D1, which is said here once. -/

open Sys2Proof Sys2Proof.Machine

/-! ### Encoding -/

/-- Words written out from the spec's encodings and vectors (95_test_vectors.md 1, 2.2, 2.3, 3) decode to what they stand
for, with a word of every group that has a key below the top nibble: 0, 5, 8, 9, E and F (decisions D1, D3, D4). -/
def Obligations.DecodesTheWordsOfTheSpec : Prop :=
  decode 0x6A05#16 = .ok (.ldImm 10 0x05#8) ∧ decode 0x8014#16 = .ok (.addReg 0 1) ∧
  decode 0x00E0#16 = .ok .cls ∧ decode 0x00EE#16 = .ok .ret ∧ decode 0x0EE0#16 = .ok (.sys 0xEE0#12) ∧
  decode 0xB123#16 = .ok (.jpV0 0x123#12) ∧ decode 0xDAB0#16 = .ok (.drw 10 11 0x0#4) ∧
  decode 0xE09E#16 = .ok (.skp 0) ∧ decode 0xF165#16 = .ok (.load 1) ∧ decode 0xFF0A#16 = .ok (.ldVxK 15) ∧
  decode 0x800E#16 = .ok (.shl 0 0) ∧ decode 0x5120#16 = .ok (.seReg 1 2) ∧ decode 0x9120#16 = .ok (.sneReg 1 2) ∧
  decode 0x5121#16 = .error (.unrecognized 0x5121#16) ∧ decode 0x9AB1#16 = .error (.unrecognized 0x9AB1#16)

/-- R72: every field is its slice of the word, read as an unsigned number. -/
def Obligations.FieldsAreSlicesOfTheWord : Prop :=
  ∀ w : Word, (opOf w).toNat = w.toNat / 4096 ∧ (xOf w).val = w.toNat / 256 % 16 ∧ (yOf w).val = w.toNat / 16 % 16 ∧
    (nOf w).toNat = w.toNat % 16 ∧ (nnOf w).toNat = w.toNat % 256 ∧ (nnnOf w).toNat = w.toNat % 4096

/-- Every well-formed instruction, at every value of its operands, is what its word decodes to. -/
def Obligations.DecodeOfEncodeIsTheInstruction : Prop :=
  ∀ i : Instr, WellFormed i → decode (encode i) = .ok i

/-- A word that decodes to an instruction is that instruction's word, so no two words mean one instruction, and the
instruction is well formed (SYS is neither 00E0 nor 00EE, R84, decision D3). -/
def Obligations.EncodeOfDecodeIsTheWord : Prop :=
  ∀ (w : Word) (i : Instr), decode w = .ok i → encode i = w ∧ WellFormed i

/-- The unrecognized words are exactly those R82 lists, by their fields (decision D4). -/
def Obligations.UnrecognizedWordsAreThoseListed : Prop :=
  ∀ (w : Word) (r : Reject), decode w = .error r ↔ r = .unrecognized w ∧
    (((opOf w).toNat = 0x5 ∧ (nOf w).toNat ≠ 0) ∨ ((opOf w).toNat = 0x9 ∧ (nOf w).toNat ≠ 0) ∨
      ((opOf w).toNat = 0x8 ∧ (nOf w).toNat ∈ [0x8, 0x9, 0xA, 0xB, 0xC, 0xD, 0xF]) ∨
      ((opOf w).toNat = 0xE ∧ (nnOf w).toNat ∉ [0x9E, 0xA1]) ∨
      ((opOf w).toNat = 0xF ∧ (nnOf w).toNat ∉ [0x07, 0x0A, 0x15, 0x18, 0x1E, 0x29, 0x33, 0x55, 0x65]))

/-! ### The cycle -/

/-- A step runs the decoded instruction: the two bytes at `pc` are decoded, `pc` moves past them, the instruction is
executed, and, unless it faulted or waits for a key, the timers are updated. -/
def Obligations.StepRunsTheDecodedInstruction : Prop :=
  ∀ (s : State) (i : Instr), s.FAULT = .none → s.pc.toNat + 1 ≤ 0xFFF →
    decode (wordOfBytes (s.readMem s.pc.toNat) (s.readMem (s.pc.toNat + 1))) = .ok i →
    step s =
      match exec i { s with pc := s.pc + 2#16 } with
      | .next t => .next (if t.FAULT ≠ .none ∨ waits i s = true then t else t.tick)
      | .fault f => .fault f
      | .refused r => .refused r

/-- R101: the fetch reads two bytes, the first the high-order one, and moves `pc` by 2; or, past 0xFFE, it faults with
the first address outside memory (decisions D12, D17). -/
def Obligations.FetchReadsTwoBytesOrFaults : Prop :=
  ∀ s : State, s.FAULT = .none →
    (s.pc.toNat + 1 ≤ 0xFFF → ∃ (w : Word) (s1 : State),
      w.toNat = (s.readMem s.pc.toNat).toNat * 256 + (s.readMem (s.pc.toNat + 1)).toNat ∧
      s1.pc.toNat = s.pc.toNat + 2 ∧ ChangesOnly s s1 (fun c => c = .pc) ∧ s1.mem = s.mem ∧
      (∀ i, decode w = .ok i → cycle s = execute i s1) ∧
      (∀ r, decode w = .error r → cycle s = .next (completed s1 false))) ∧
    (s.pc.toNat + 1 > 0xFFF → ∃ t : State,
      cycle s = .next (t, { displayChanged := false, beep := false, fault := .fetchRange }) ∧
      t.FAULT = .fetchRange ∧ t.FAULT_PC = s.pc ∧ t.FAULT_INFO = BitVec.ofNat 16 (max s.pc.toNat 0x1000) ∧
      ChangesOnly s t InLatch)

/-- R104: an unrecognized word writes nothing; the fetch advance stands and the timers are updated (decision D27). -/
def Obligations.UnrecognizedWordIsANoOp : Prop :=
  ∀ (s : State) (r : Reject), s.FAULT = .none → s.pc.toNat + 1 ≤ 0xFFF → decode s.fetchWord = .error r →
    ∃ t : State, cycle s = .next (t, { displayChanged := false, beep := s.ST == 0x01#8, fault := .none }) ∧
      t.pc.toNat = s.pc.toNat + 2 ∧ t.DT.toNat = s.DT.toNat - 1 ∧ t.ST.toNat = s.ST.toNat - 1 ∧
      ChangesOnly s t (fun c => c = .pc ∨ c = .DT ∨ c = .ST)

/-- R105: the timer update and the beep of a cycle that completed, and no update and no beep in one that faulted or
waits (that only this update beeps is decision D29). -/
def Obligations.TimersCountDownInCompletedCycles : Prop :=
  ∀ s t : State, s.FAULT = .none → s.pc.toNat + 1 ≤ 0xFFF →
    (Completes s t → ∃ u r, cycle s = .next (u, r) ∧ u.DT.toNat = t.DT.toNat - 1 ∧ u.ST.toNat = t.ST.toNat - 1 ∧
      (r.beep = true ↔ t.ST.toNat = 1) ∧ ChangesOnly t u (fun c => c = .DT ∨ c = .ST)) ∧
    (∀ u r, cycle s = .next (u, r) → (∀ t', ¬ Completes s t') → u.DT = s.DT ∧ u.ST = s.ST ∧ r.beep = false)

/-- R106: what a cycle reports (decision D23). -/
def Obligations.CycleReportsDisplayBeepAndFault : Prop :=
  ∀ (s u : State) (r : CycleResult), cycle s = .next (u, r) →
    r.fault = u.FAULT ∧
    (r.displayChanged = true ↔ s.FAULT = .none ∧ s.pc.toNat + 1 ≤ 0xFFF ∧ u.FAULT = .none ∧
      (decode s.fetchWord = .ok .cls ∨ ∃ x y n, decode s.fetchWord = .ok (.drw x y n))) ∧
    (r.beep = true → u.FAULT = .none ∧ u.ST = 0x00#8 ∧
      ∀ i, decode s.fetchWord = .ok i → waits i s = false)

/-- R107: once the latch is set, a cycle changes nothing, and no operation of the host but RESET clears it
(decisions D17, D30). -/
def Obligations.LatchedMachineDoesNothing : Prop :=
  (∀ s : State, s.FAULT ≠ .none →
    cycle s = .next (s, { displayChanged := false, beep := false, fault := s.FAULT }) ∧ step s = .next s) ∧
  (∀ (op : HostOp) (h h' : Session) (r : HostReply), h.machine.FAULT ≠ .none → op ≠ .reset →
    hostStep op h = .next (h', r) → h'.machine.FAULT = h.machine.FAULT)

/-- R222: a cycle that faults changes the latch and nothing else (decision D17). -/
def Obligations.FaultingCycleChangesOnlyTheLatch : Prop :=
  ∀ (s u : State) (r : CycleResult), s.FAULT = .none → cycle s = .next (u, r) → u.FAULT ≠ .none →
    ChangesOnly s u InLatch ∧ u.mem = s.mem ∧ u.FAULT_PC = s.pc ∧
    r = { displayChanged := false, beep := false, fault := u.FAULT } ∧
    ∃ info, Due s info u.FAULT ∧ u.FAULT_INFO = BitVec.ofNat 16 info

/-- R221: each fault is raised in exactly the states of its condition, with its info, and the codes are 0 to 5
(decisions D9 to D12, D15, D17). -/
def Obligations.FaultsAreRaisedExactlyWhenDue : Prop :=
  (∀ s : State, s.FAULT = .none → s.SP.toNat ≤ 16 → ∃ u r, cycle s = .next (u, r) ∧
    ∀ c : FaultCode, c ≠ .none → ∀ info,
      (Due s info c → u.FAULT = c ∧ u.FAULT_INFO = BitVec.ofNat 16 info ∧ u.FAULT_PC = s.pc) ∧
      (u.FAULT = c → ∃ info', Due s info' c)) ∧
  FaultCode.none.toBits = 0#3 ∧ FaultCode.fetchRange.toBits = 1#3 ∧ FaultCode.dataRange.toBits = 2#3 ∧
  FaultCode.stackOverflow.toBits = 3#3 ∧ FaultCode.stackUnderflow.toBits = 4#3 ∧ FaultCode.keyRange.toBits = 5#3

/-- The engine has no terminal state (R100): while SP is in range, every step answers a next state. -/
def Obligations.StepAlwaysAnswersANextState : Prop :=
  ∀ s : State, s.SP.toNat ≤ 16 → ∃ t, step s = .next t

/-- The model's own stop [log 2]: CALL and RET with SP above 16, where the spec gives no effect. -/
def Obligations.CallAndRetStopOnlyAboveSixteen : Prop :=
  (∀ s : State, s.SP.toNat > 16 → exec .ret s = .fault .stackPointerOutOfRange ∧
    ∀ nnn, exec (.call nnn) s = .fault .stackPointerOutOfRange) ∧
  (∀ (i : Instr) (s : State) (f : Fault), exec i s = .fault f → s.SP.toNat > 16 ∧ (i = .ret ∨ ∃ nnn, i = .call nnn)) ∧
  (∀ (i : Instr) (s : State) (r : Refusal), exec i s ≠ .refused r)

/-! ### Invariants -/

/-- The state after reset meets both invariants. -/
def Obligations.ResetMeetsTheInvariants : Prop := Inv State.reset ∧ LatchTruth State.reset

/-- Every step keeps memory canonical [log 6], SP at most 16 (decisions D9, D10), and every program counter where its
writers can put it (decision D12). -/
def Obligations.StepKeepsTheStateInvariant : Prop :=
  ∀ s t : State, Inv s → step s = .next t → Inv t

/-- Every step keeps the latch truthful: a set latch still names the word at `pc` and a fault that is due there
(decision D17). -/
def Obligations.StepKeepsTheLatchTruthful : Prop :=
  ∀ s t : State, LatchTruth s → step s = .next t → LatchTruth t

/-- Every operation of the host keeps the invariants of a session, for every image, key state and random byte
(decisions D26, D31) [log 9]. -/
def Obligations.HostOperationsKeepTheSessionInvariant : Prop :=
  ∀ (op : HostOp) (h h' : Session) (r : HostReply), SessionInv h → hostStep op h = .next (h', r) → SessionInv h'

/-- From RESET, whatever is loaded and handed in, a CYCLE never stops the machine (R100, R223), and in a faulted machine
the word at `pc` is the one that faulted (decisions D17, D30). -/
def Obligations.ReachableMachinesCanAlwaysCycle : Prop :=
  ∀ (h : Session) (rnd : Byte), Reachable h →
    (∃ h' r, hostStep (.cycle rnd) h = .next (h', .ran r)) ∧
    (h.machine.FAULT ≠ .none → h.machine.FAULT_PC = h.machine.pc ∧ ∃ info, Due h.machine info h.machine.FAULT)

/-! ### All instructions -/

/-- The w entries of the access matrix (R36), with the writers of `pc` (R25): a form that does not fault changes nothing
outside its row, and of memory, the stack and the display nothing but the bytes from `I` up, the entry at SP and the cells
under the sprite that the form itself computes (decisions D5 to D8, D13, D14, D22) [log 3, log 4]. -/
def Obligations.FormsWriteOnlyTheirMatrixRow : Prop :=
  ∀ (i : Instr) (s t : State), exec i s = .next t → t.FAULT = .none → ChangesOnly s t (mayWrite s i)

/-- A timer falls by at most 1 in a cycle and never rises, but for the form that writes it (R28, R29). -/
def Obligations.TimersNeverRiseByThemselves : Prop :=
  ∀ s t : State, step s = .next t →
    ((∀ x, decode s.fetchWord ≠ .ok (.ldDTVx x)) → t.DT.toNat ≤ s.DT.toNat ∧ s.DT.toNat ≤ t.DT.toNat + 1) ∧
    ((∀ x, decode s.fetchWord ≠ .ok (.ldSTVx x)) → t.ST.toNat ≤ s.ST.toNat ∧ s.ST.toNat ≤ t.ST.toNat + 1)

/-! ### Control transfer -/

/-- R121: RET pops the saved value into `pc` as it stands, the entry keeps its value; with SP = 0 it underflows
(decision D10). -/
def Obligations.RetPopsTheSavedPc : Prop :=
  decode 0x00EE#16 = .ok .ret ∧
  ∀ s : State,
    (∀ k : Fin 16, s.SP.toNat = k.val + 1 → ∃ t, exec .ret s = .next t ∧ t.SP.toNat = k.val ∧ t.pc = s.stack[k] ∧
      ChangesOnly s t (fun c => c = .SP ∨ c = .pc)) ∧
    (s.SP.toNat = 0 → ∃ t, exec .ret s = .next t ∧ RaisedFrom s t .stackUnderflow 0)

/-- R122. -/
def Obligations.JpSetsPcToNNN : Prop :=
  (∀ w, opOf w = 0x1#4 → decode w = .ok (.jp (nnnOf w))) ∧
  ∀ (nnn : Imm12) (s : State), ∃ t, exec (.jp nnn) s = .next t ∧ t.pc.toNat = nnn.toNat ∧
    ChangesOnly s t (fun c => c = .pc)

/-- R123: CALL pushes the address after it and jumps; with SP = 16 it overflows and pushes nothing
(decision D9). -/
def Obligations.CallPushesTheReturnAddress : Prop :=
  (∀ w, opOf w = 0x2#4 → decode w = .ok (.call (nnnOf w))) ∧
  ∀ (nnn : Imm12) (s : State),
    (∀ k : Fin 16, s.SP.toNat = k.val → ∃ t, exec (.call nnn) s = .next t ∧ t.stack[k] = s.pc ∧
      t.SP.toNat = k.val + 1 ∧ t.pc.toNat = nnn.toNat ∧
      ChangesOnly s t (fun c => c = .stack k ∨ c = .SP ∨ c = .pc)) ∧
    (s.SP.toNat = 16 → ∃ t, exec (.call nnn) s = .next t ∧ RaisedFrom s t .stackOverflow nnn.toNat)

/-- R124 to R127: the skips move `pc` two further when their condition holds, and change nothing else
(the words: decisions D1, D4) [log 7]. -/
def Obligations.SkipsMovePcWhenTheirConditionHolds : Prop :=
  (∀ w, opOf w = 0x3#4 → decode w = .ok (.seImm (xOf w) (nnOf w))) ∧
  (∀ w, opOf w = 0x4#4 → decode w = .ok (.sneImm (xOf w) (nnOf w))) ∧
  (∀ w, opOf w = 0x5#4 → nOf w = 0x0#4 → decode w = .ok (.seReg (xOf w) (yOf w))) ∧
  (∀ w, opOf w = 0x9#4 → nOf w = 0x0#4 → decode w = .ok (.sneReg (xOf w) (yOf w))) ∧
  ∀ (x y : Reg) (nn : Byte) (s : State),
    (∃ t, exec (.seImm x nn) s = .next t ∧ t.pc = (if s.getV x = nn then s.pc + 2#16 else s.pc) ∧
      ChangesOnly s t (fun c => c = .pc)) ∧
    (∃ t, exec (.sneImm x nn) s = .next t ∧ t.pc = (if s.getV x ≠ nn then s.pc + 2#16 else s.pc) ∧
      ChangesOnly s t (fun c => c = .pc)) ∧
    (∃ t, exec (.seReg x y) s = .next t ∧ t.pc = (if s.getV x = s.getV y then s.pc + 2#16 else s.pc) ∧
      ChangesOnly s t (fun c => c = .pc)) ∧
    (∃ t, exec (.sneReg x y) s = .next t ∧ t.pc = (if s.getV x ≠ s.getV y then s.pc + 2#16 else s.pc) ∧
      ChangesOnly s t (fun c => c = .pc))

/-- R128: the sum of NNN and V0, not wrapped at 12 bits (decision D12). -/
def Obligations.JpV0AddsV0ToNNN : Prop :=
  (∀ w, opOf w = 0xB#4 → decode w = .ok (.jpV0 (nnnOf w))) ∧
  ∀ (nnn : Imm12) (s : State), ∃ t, exec (.jpV0 nnn) s = .next t ∧ t.pc.toNat = nnn.toNat + (s.getV 0).toNat ∧
    ChangesOnly s t (fun c => c = .pc)

/-- R129: every word of group 0 but 00E0 and 00EE is SYS, and SYS has no effect (decision D3). -/
def Obligations.SysHasNoEffect : Prop :=
  (∀ w, opOf w = 0x0#4 → w ≠ 0x00E0#16 → w ≠ 0x00EE#16 → decode w = .ok (.sys (nnnOf w))) ∧
  ∀ (nnn : Imm12) (s : State), exec (.sys nnn) s = .next s

/-! ### Register loads and arithmetic -/

/-- R141 and R142: the immediate load and add, which write no flag (the word 7XNN: decision D1) [log 7]. -/
def Obligations.ImmediateLoadAndAddWriteOnlyVx : Prop :=
  (∀ w, opOf w = 0x6#4 → decode w = .ok (.ldImm (xOf w) (nnOf w))) ∧
  (∀ w, opOf w = 0x7#4 → decode w = .ok (.addImm (xOf w) (nnOf w))) ∧
  ∀ (x : Reg) (nn : Byte) (s : State),
    (∃ t, exec (.ldImm x nn) s = .next t ∧ t.getV x = nn ∧ ChangesOnly s t (fun c => c = .V x)) ∧
    (∃ t, exec (.addImm x nn) s = .next t ∧ (t.getV x).toNat = ((s.getV x).toNat + nn.toNat) % 256 ∧
      ChangesOnly s t (fun c => c = .V x))

/-- R143 to R146: the copy and the logic forms write Vx, bit by bit, and no flag (decision D6). -/
def Obligations.CopyAndLogicWriteOnlyVx : Prop :=
  (∀ w, opOf w = 0x8#4 → nOf w = 0x0#4 → decode w = .ok (.ldReg (xOf w) (yOf w))) ∧
  (∀ w, opOf w = 0x8#4 → nOf w = 0x1#4 → decode w = .ok (.orReg (xOf w) (yOf w))) ∧
  (∀ w, opOf w = 0x8#4 → nOf w = 0x2#4 → decode w = .ok (.andReg (xOf w) (yOf w))) ∧
  (∀ w, opOf w = 0x8#4 → nOf w = 0x3#4 → decode w = .ok (.xorReg (xOf w) (yOf w))) ∧
  ∀ (x y : Reg) (s : State),
    (∃ t, exec (.ldReg x y) s = .next t ∧ t.getV x = s.getV y ∧ ChangesOnly s t (fun c => c = .V x)) ∧
    (∃ t, exec (.orReg x y) s = .next t ∧
      (∀ k, (t.getV x).getLsbD k = ((s.getV x).getLsbD k || (s.getV y).getLsbD k)) ∧
      ChangesOnly s t (fun c => c = .V x)) ∧
    (∃ t, exec (.andReg x y) s = .next t ∧
      (∀ k, (t.getV x).getLsbD k = ((s.getV x).getLsbD k && (s.getV y).getLsbD k)) ∧
      ChangesOnly s t (fun c => c = .V x)) ∧
    (∃ t, exec (.xorReg x y) s = .next t ∧
      (∀ k, (t.getV x).getLsbD k = ((s.getV x).getLsbD k ^^ (s.getV y).getLsbD k)) ∧
      ChangesOnly s t (fun c => c = .V x))

/-- R147 with R140's order: the sum modulo 256, then the carry, which wins when x is F (decision D5). -/
def Obligations.AddSetsSumThenCarry : Prop :=
  (∀ w, opOf w = 0x8#4 → nOf w = 0x4#4 → decode w = .ok (.addReg (xOf w) (yOf w))) ∧
  ∀ (x y : Reg) (s : State), ∃ t, exec (.addReg x y) s = .next t ∧
    (x ≠ VF → (t.getV x).toNat = ((s.getV x).toNat + (s.getV y).toNat) % 256) ∧
    (t.getV VF).toNat = (if (s.getV x).toNat + (s.getV y).toNat > 255 then 1 else 0) ∧
    ChangesOnly s t (fun c => c = .V x ∨ c = .V VF)

/-- R148 and R150: the difference modulo 256, then NOT borrow, which wins when x is F (decision D5). -/
def Obligations.SubtractsSetDifferenceThenNotBorrow : Prop :=
  (∀ w, opOf w = 0x8#4 → nOf w = 0x5#4 → decode w = .ok (.subReg (xOf w) (yOf w))) ∧
  (∀ w, opOf w = 0x8#4 → nOf w = 0x7#4 → decode w = .ok (.subnReg (xOf w) (yOf w))) ∧
  ∀ (x y : Reg) (s : State),
    (∃ t, exec (.subReg x y) s = .next t ∧
      (x ≠ VF → (t.getV x).toNat = ((s.getV x).toNat + 256 - (s.getV y).toNat) % 256) ∧
      (t.getV VF).toNat = (if (s.getV x).toNat ≥ (s.getV y).toNat then 1 else 0) ∧
      ChangesOnly s t (fun c => c = .V x ∨ c = .V VF)) ∧
    (∃ t, exec (.subnReg x y) s = .next t ∧
      (x ≠ VF → (t.getV x).toNat = ((s.getV y).toNat + 256 - (s.getV x).toNat) % 256) ∧
      (t.getV VF).toNat = (if (s.getV y).toNat ≥ (s.getV x).toNat then 1 else 0) ∧
      ChangesOnly s t (fun c => c = .V x ∨ c = .V VF))

/-- R149 and R151: Vx shifted by one in place, Vy ignored, VF the bit shifted out, which wins when x is F
(decisions D5, D7). -/
def Obligations.ShiftsSetResultThenTheBitShiftedOut : Prop :=
  (∀ w, opOf w = 0x8#4 → nOf w = 0x6#4 → decode w = .ok (.shr (xOf w) (yOf w))) ∧
  (∀ w, opOf w = 0x8#4 → nOf w = 0xE#4 → decode w = .ok (.shl (xOf w) (yOf w))) ∧
  ∀ (x y : Reg) (s : State),
    (∃ t, exec (.shr x y) s = .next t ∧ (x ≠ VF → (t.getV x).toNat = (s.getV x).toNat / 2) ∧
      (t.getV VF).toNat = (s.getV x).toNat % 2 ∧ ChangesOnly s t (fun c => c = .V x ∨ c = .V VF)) ∧
    (∃ t, exec (.shl x y) s = .next t ∧ (x ≠ VF → (t.getV x).toNat = (s.getV x).toNat * 2 % 256) ∧
      (t.getV VF).toNat = (s.getV x).toNat / 128 ∧ ChangesOnly s t (fun c => c = .V x ∨ c = .V VF))

/-! ### Index register and memory -/

/-- R171 and R173: LD I, NNN and LD F, Vx write `I` only; that the glyph address is not masked is R173's own inference from
the source's formula (the words: decision D1) [log 7]. -/
def Obligations.IndexLoadsWriteOnlyI : Prop :=
  (∀ w, opOf w = 0xA#4 → decode w = .ok (.ldI (nnnOf w))) ∧
  (∀ w, opOf w = 0xF#4 → nnOf w = 0x29#8 → decode w = .ok (.ldF (xOf w))) ∧
  (∀ (nnn : Imm12) (s : State), ∃ t, exec (.ldI nnn) s = .next t ∧ t.I.toNat = nnn.toNat ∧
    ChangesOnly s t (fun c => c = .I)) ∧
  (∀ (x : Reg) (s : State), ∃ t, exec (.ldF x) s = .next t ∧ t.I.toNat = (s.getV x).toNat * 5 ∧
    ChangesOnly s t (fun c => c = .I))

/-- R172: the sum modulo 2^16, then the flag, tested on the stored result (decision D8). -/
def Obligations.AddISetsSumThenOverflowFlag : Prop :=
  (∀ w, opOf w = 0xF#4 → nnOf w = 0x1E#8 → decode w = .ok (.addI (xOf w))) ∧
  ∀ (x : Reg) (s : State), ∃ t, exec (.addI x) s = .next t ∧
    t.I.toNat = (s.I.toNat + (s.getV x).toNat) % 65536 ∧
    (t.getV VF).toNat = (if t.I.toNat > 0x0FFF then 1 else 0) ∧
    ChangesOnly s t (fun c => c = .I ∨ c = .V VF)

/-- R174: the three decimal digits of Vx at `I`, `I + 1`, `I + 2`, and no other byte; past 0xFFF, DATA_RANGE (decision
D11). -/
def Obligations.LdBStoresTheThreeDigits : Prop :=
  (∀ w, opOf w = 0xF#4 → nnOf w = 0x33#8 → decode w = .ok (.ldB (xOf w))) ∧
  ∀ (x : Reg) (s : State), s.mem.wf = true →
    (s.I.toNat + 2 ≤ 0xFFF → ∃ t, exec (.ldB x) s = .next t ∧
      (t.readMem s.I.toNat).toNat = (s.getV x).toNat / 100 ∧
      (t.readMem (s.I.toNat + 1)).toNat = (s.getV x).toNat / 10 % 10 ∧
      (t.readMem (s.I.toNat + 2)).toNat = (s.getV x).toNat % 10 ∧
      ChangesOnly s t (fun c => ∃ a, s.I.toNat ≤ a ∧ a ≤ s.I.toNat + 2 ∧ c = .mem a)) ∧
    (s.I.toNat + 2 > 0xFFF → ∃ t, exec (.ldB x) s = .next t ∧
      RaisedFrom s t .dataRange (max s.I.toNat 0x1000))

/-- R175: V0 to Vx at `I` up, and no other byte; then `I` moves past them; past 0xFFF, DATA_RANGE (90_conflicts.md C2;
decisions D8, D11). -/
def Obligations.DumpStoresV0ToVx : Prop :=
  (∀ w, opOf w = 0xF#4 → nnOf w = 0x55#8 → decode w = .ok (.dump (xOf w))) ∧
  ∀ (x : Reg) (s : State), s.mem.wf = true →
    (s.I.toNat + x.val ≤ 0xFFF → ∃ t, exec (.dump x) s = .next t ∧
      (∀ k : Reg, k ≤ x → t.readMem (s.I.toNat + k.val) = s.getV k) ∧
      t.I.toNat = (s.I.toNat + x.val + 1) % 65536 ∧
      ChangesOnly s t (fun c => c = .I ∨ ∃ a, s.I.toNat ≤ a ∧ a ≤ s.I.toNat + x.val ∧ c = .mem a)) ∧
    (s.I.toNat + x.val > 0xFFF → ∃ t, exec (.dump x) s = .next t ∧
      RaisedFrom s t .dataRange (max s.I.toNat 0x1000))

/-- R176: V0 to Vx from memory at `I` up; then `I` moves past them; past 0xFFF, DATA_RANGE (90_conflicts.md C2;
decisions D8, D11). -/
def Obligations.LoadReadsV0ToVx : Prop :=
  (∀ w, opOf w = 0xF#4 → nnOf w = 0x65#8 → decode w = .ok (.load (xOf w))) ∧
  ∀ (x : Reg) (s : State),
    (s.I.toNat + x.val ≤ 0xFFF → ∃ t, exec (.load x) s = .next t ∧
      (∀ k : Reg, k ≤ x → t.getV k = s.readMem (s.I.toNat + k.val)) ∧
      t.I.toNat = (s.I.toNat + x.val + 1) % 65536 ∧
      ChangesOnly s t (fun c => c = .I ∨ ∃ k : Reg, k ≤ x ∧ c = .V k)) ∧
    (s.I.toNat + x.val > 0xFFF → ∃ t, exec (.load x) s = .next t ∧
      RaisedFrom s t .dataRange (max s.I.toNat 0x1000))

/-! ### Display -/

/-- R190: CLS clears every cell and sets the dirty flag (decision D22). -/
def Obligations.ClsClearsEveryCell : Prop :=
  decode 0x00E0#16 = .ok .cls ∧
  ∀ s : State, ∃ t, exec .cls s = .next t ∧ (∀ j, j < 2048 → t.cell j = false) ∧ t.dirty = true ∧
    ChangesOnly s t (fun c => (∃ j, c = .cell j) ∨ c = .dirty)

/-- R191: DRW flips exactly the cells of the frame under the sprite's set bits, VF says whether a lit one was among
them, the dirty flag is set; past 0xFFF, DATA_RANGE, but not for a draw of no rows
(decisions D11, D13, D14). -/
def Obligations.DrwXorsTheSpriteAndReportsCollision : Prop :=
  (∀ w, opOf w = 0xD#4 → decode w = .ok (.drw (xOf w) (yOf w) (nOf w))) ∧
  ∀ (x y : Reg) (n : Nibble) (s : State),
    (n.toNat = 0 ∨ s.I.toNat + n.toNat - 1 ≤ 0xFFF → ∃ t, exec (.drw x y n) s = .next t ∧
      (∀ px py, px < 64 → py < 32 →
        (SpriteBit s x y n px py → t.cell (px + 64 * py) = !s.cell (px + 64 * py)) ∧
        (¬ SpriteBit s x y n px py → t.cell (px + 64 * py) = s.cell (px + 64 * py))) ∧
      ((∃ px py, px < 64 ∧ py < 32 ∧ SpriteBit s x y n px py ∧ s.cell (px + 64 * py) = true) →
        (t.getV VF).toNat = 1) ∧
      ((∀ px py, px < 64 → py < 32 → SpriteBit s x y n px py → s.cell (px + 64 * py) = false) →
        (t.getV VF).toNat = 0) ∧
      t.dirty = true ∧ ChangesOnly s t (fun c => c = .V VF ∨ (∃ j, c = .cell j) ∨ c = .dirty)) ∧
    (n.toNat > 0 ∧ s.I.toNat + n.toNat - 1 > 0xFFF → ∃ t, exec (.drw x y n) s = .next t ∧
      RaisedFrom s t .dataRange (max s.I.toNat 0x1000))

/-- Drawing the same sprite twice at the same position restores every cell, and the second draw collides exactly when the
first one lit a cell (95_test_vectors.md E6; decisions D13, D14). -/
def Obligations.DrawingTwiceRestoresTheDisplay : Prop :=
  ∀ (x y : Reg) (n : Nibble) (s t u : State), exec (.drw x y n) s = .next t → t.FAULT = .none →
    t.getV x = s.getV x → t.getV y = s.getV y → exec (.drw x y n) t = .next u →
    (∀ j, u.cell j = s.cell j) ∧ ((u.getV VF).toNat = 1 ↔ ∃ j, s.cell j = false ∧ t.cell j = true)

/-! ### Random, keys and timers -/

/-- R200: the random byte AND NN, whatever byte is handed in, and a free draw otherwise (decision D20)
[log 3, log 4]. -/
def Obligations.RndMasksTheRandomByte : Prop :=
  (∀ w, opOf w = 0xC#4 → decode w = .ok (.rnd (xOf w) (nnOf w))) ∧
  ∀ (x : Reg) (nn : Byte) (s : State), ∃ t, exec (.rnd x nn) s = .next t ∧
    (∀ b, s.rndIn = some b → t.getV x = b &&& nn ∧ t.rndIn = none ∧ t.draws = s.draws) ∧
    (s.rndIn = none → t.getV x = Config.randomByte s.draws &&& nn ∧ t.rndIn = none ∧ t.draws = s.draws + 1) ∧
    ChangesOnly s t (fun c => c = .V x ∨ c = .rndIn ∨ c = .draws)

/-- R201 and R202: SKP and SKNP test the key that Vx names, and fault above 0xF (decision D15). -/
def Obligations.KeySkipsTestTheNamedKey : Prop :=
  (∀ w, opOf w = 0xE#4 → nnOf w = 0x9E#8 → decode w = .ok (.skp (xOf w))) ∧
  (∀ w, opOf w = 0xE#4 → nnOf w = 0xA1#8 → decode w = .ok (.sknp (xOf w))) ∧
  ∀ (x : Reg) (s : State),
    ((s.getV x).toNat ≤ 0x0F →
      (∃ t, exec (.skp x) s = .next t ∧
        t.pc = (if s.keys.getLsbD (s.getV x).toNat = true then s.pc + 2#16 else s.pc) ∧
        ChangesOnly s t (fun c => c = .pc)) ∧
      (∃ t, exec (.sknp x) s = .next t ∧
        t.pc = (if s.keys.getLsbD (s.getV x).toNat = false then s.pc + 2#16 else s.pc) ∧
        ChangesOnly s t (fun c => c = .pc))) ∧
    ((s.getV x).toNat > 0x0F →
      (∃ t, exec (.skp x) s = .next t ∧ RaisedFrom s t .keyRange (s.getV x).toNat) ∧
      (∃ t, exec (.sknp x) s = .next t ∧ RaisedFrom s t .keyRange (s.getV x).toNat))

/-- R203, R204 and R205: the timer transfers, and what their cycle's timer update leaves, which R105 and R204 infer from the
order of the cycle (the words: decision D1) [log 7]. -/
def Obligations.TimerTransfersMoveOneByte : Prop :=
  (∀ w, opOf w = 0xF#4 → nnOf w = 0x07#8 → decode w = .ok (.ldVxDT (xOf w))) ∧
  (∀ w, opOf w = 0xF#4 → nnOf w = 0x15#8 → decode w = .ok (.ldDTVx (xOf w))) ∧
  (∀ w, opOf w = 0xF#4 → nnOf w = 0x18#8 → decode w = .ok (.ldSTVx (xOf w))) ∧
  ∀ (x : Reg) (s : State),
    (∃ t, exec (.ldVxDT x) s = .next t ∧ t.getV x = s.DT ∧ ChangesOnly s t (fun c => c = .V x)) ∧
    (∃ t, exec (.ldDTVx x) s = .next t ∧ t.DT = s.getV x ∧ ChangesOnly s t (fun c => c = .DT)) ∧
    (∃ t, exec (.ldSTVx x) s = .next t ∧ t.ST = s.getV x ∧ ChangesOnly s t (fun c => c = .ST)) ∧
    (s.FAULT = .none → s.pc.toNat + 1 ≤ 0xFFF →
      (decode s.fetchWord = .ok (.ldVxDT x) → ∃ u r, cycle s = .next (u, r) ∧ u.getV x = s.DT ∧
        u.DT.toNat = s.DT.toNat - 1) ∧
      (decode s.fetchWord = .ok (.ldDTVx x) → ∃ u r, cycle s = .next (u, r) ∧ u.DT.toNat = (s.getV x).toNat - 1) ∧
      (decode s.fetchWord = .ok (.ldSTVx x) → ∃ u r, cycle s = .next (u, r) ∧ u.ST.toNat = (s.getV x).toNat - 1))

/-- R206: with a key pressed, LD Vx, K stores the least pressed index; with none, the whole cycle changes nothing
(decision D16; 90_conflicts.md C9). -/
def Obligations.AwaitKeyTakesTheLeastKeyOrWaits : Prop :=
  (∀ w, opOf w = 0xF#4 → nnOf w = 0x0A#8 → decode w = .ok (.ldVxK (xOf w))) ∧
  (∀ (x : Reg) (s : State) (m : Nat), m < 16 → s.keys.getLsbD m = true → (∀ j, j < m → s.keys.getLsbD j = false) →
    waits (.ldVxK x) s = false ∧ ∃ t, exec (.ldVxK x) s = .next t ∧ (t.getV x).toNat = m ∧
      ChangesOnly s t (fun c => c = .V x)) ∧
  (∀ (x : Reg) (s : State), (∀ j, j < 16 → s.keys.getLsbD j = false) →
    waits (.ldVxK x) s = true ∧ (∃ t, exec (.ldVxK x) s = .next t ∧ t.pc = s.pc - 2#16 ∧
      ChangesOnly s t (fun c => c = .pc)) ∧
    (s.FAULT = .none → s.pc.toNat + 1 ≤ 0xFFF → decode s.fetchWord = .ok (.ldVxK x) →
      cycle s = .next (s, { displayChanged := false, beep := false, fault := .none })))

/-! ### The host -/

/-- R250 and R241: RESET, from any state, leaves exactly the reset column of R20 (decisions D17, D24; the
font's bytes are decision D36 [log 6]). -/
def Obligations.ResetLeavesTheResetState : Prop :=
  ∀ h : Session, ∃ h' : Session, hostStep .reset h = .next (h', .nothing) ∧
    (∀ a, a < 80 → h'.machine.readMem a = font.getD a 0x00#8) ∧
    (∀ a, 80 ≤ a → a < 4096 → h'.machine.readMem a = 0x00#8) ∧
    (∀ r : Reg, h'.machine.getV r = 0x00#8) ∧ h'.machine.I = 0x0000#16 ∧ h'.machine.pc = 0x0200#16 ∧
    (∀ k : Fin 16, h'.machine.stack[k] = 0x0000#16) ∧ h'.machine.SP = 0#5 ∧ h'.machine.DT = 0x00#8 ∧
    h'.machine.ST = 0x00#8 ∧ (∀ k, k < 16 → h'.machine.key k = false) ∧ (∀ j, j < 2048 → h'.machine.cell j = false) ∧
    h'.machine.dirty = true ∧ h'.machine.FAULT = .none ∧ h'.machine.FAULT_PC = 0x0000#16 ∧
    h'.machine.FAULT_INFO = 0x0000#16

/-- R253: a LOAD that is admitted and fits copies the image to 0x200 up, and changes no other byte and nothing else
(decision D31) [log 9]. -/
def Obligations.LoadCopiesTheImage : Prop :=
  ∀ (h : Session) (image : List Byte), h.loadable = true → h.machine.mem.wf = true → 1 ≤ image.length →
    image.length ≤ 3584 →
    ∃ h' : Session, hostStep (.load (some image)) h = .next (h', .loaded .ok) ∧ h'.loadable = false ∧
      (∀ k, k < image.length → h'.machine.readMem (0x200 + k) = image.getD k 0x00#8) ∧
      ChangesOnly h.machine h'.machine (fun c => ∃ a, 0x200 ≤ a ∧ a < 0x200 + image.length ∧ c = .mem a)

/-- R254: the failures of LOAD, in their order; a failed LOAD changes nothing, and LOAD stays admitted
(decision D28). -/
def Obligations.FailedLoadChangesNothing : Prop :=
  ∀ h : Session, h.loadable = true →
    hostStep (.load none) h = .next (h, .loaded .unreadable) ∧
    hostStep (.load (some [])) h = .next (h, .loaded .empty) ∧
    ∀ image : List Byte, image.length > 3584 → hostStep (.load (some image)) h = .next (h, .loaded .tooLarge)

/-- After a CYCLE or a successful LOAD, LOAD is refused, at once and after any operations of the host that answer, until
RESET: no other operation admits it again (R253's precondition; decision D31) [log 9]. -/
def Obligations.LoadIsRefusedAfterACycleOrALoad : Prop :=
  (∀ (h h' k : Session) (rnd : Byte) (r : HostReply) (image : Option (List Byte)),
    hostStep (.cycle rnd) h = .next (h', r) → WithoutReset h' k →
      k.loadable = false ∧ hostStep (.load image) k = .refused .loadNotAdmitted) ∧
  (∀ (h h' k : Session) (image image' : Option (List Byte)),
    hostStep (.load image) h = .next (h', .loaded .ok) → WithoutReset h' k →
      k.loadable = false ∧ hostStep (.load image') k = .refused .loadNotAdmitted) ∧
  (∀ (h h' : Session) (op : HostOp) (r : HostReply), h.loadable = false → op ≠ .reset →
    hostStep op h = .next (h', r) → h'.loadable = false) ∧
  (∀ (h : Session) (image : Option (List Byte)), h.loadable = false →
    hostStep (.load image) h = .refused .loadNotAdmitted)

/-- R242, R244 and R245: SET_KEYS writes the keys, CLEAR_DIRTY the dirty flag, READ_DISPLAY nothing (decisions D21, D26)
[log 14]. -/
def Obligations.HostWritesOnlyKeysAndDirty : Prop :=
  ∀ h : Session,
    (∀ k : BitVec 16, ∃ h' : Session, hostStep (.setKeys k) h = .next (h', .nothing) ∧
      (∀ j, j < 16 → h'.machine.key j = k.getLsbD j) ∧ ChangesOnly h.machine h'.machine (fun c => c = .keys)) ∧
    (∃ h' : Session, hostStep .clearDirty h = .next (h', .nothing) ∧ h'.machine.dirty = false ∧
      ChangesOnly h.machine h'.machine (fun c => c = .dirty)) ∧
    (∃ d, hostStep .readDisplay h = .next (h, .display d h.machine.dirty) ∧
      ∀ j, j < 2048 → Display.cell d j = h.machine.cell j)

/-- R243: the byte handed in with CYCLE is used only if the word executed is RND (decision D20) [log 4]. -/
def Obligations.RandomByteMattersOnlyToRnd : Prop :=
  ∀ (h : Session) (a b : Byte), (∀ x nn, decode h.machine.fetchWord ≠ .ok (.rnd x nn)) →
    hostStep (.cycle a) h = hostStep (.cycle b) h

/-! ### Two cycles -/

/-- A CALL and the RET it leads to restore `pc` to the address after the CALL, and SP (95_test_vectors.md E4;
90_conflicts.md C5). -/
def Obligations.CallThenRetComesBack : Prop :=
  ∀ (s t u : State) (nnn : Imm12), s.FAULT = .none → s.pc.toNat + 1 ≤ 0xFFF → s.SP.toNat < 16 →
    decode s.fetchWord = .ok (.call nnn) → nnn.toNat + 1 ≤ 0xFFF → step s = .next t →
    decode t.fetchWord = .ok .ret → step t = .next u → u.pc.toNat = s.pc.toNat + 2 ∧ u.SP = s.SP ∧ u.FAULT = .none

/-- A delay timer written with n reads back as n - 1 in the next cycle (R262). -/
def Obligations.DelayTimerReadsBackOneLess : Prop :=
  ∀ (s t u : State) (x y : Reg), s.FAULT = .none → s.pc.toNat + 3 ≤ 0xFFF →
    decode s.fetchWord = .ok (.ldDTVx x) → step s = .next t → decode t.fetchWord = .ok (.ldVxDT y) →
    step t = .next u → (u.getV y).toNat = (s.getV x).toNat - 1

/-- A store is seen by the very next fetch (R62): a register dump onto the word after it makes V0 and V1 the next
instruction word. -/
def Obligations.StoreIsSeenByTheNextFetch : Prop :=
  ∀ (s t : State), s.mem.wf = true → s.FAULT = .none → s.pc.toNat + 3 ≤ 0xFFF →
    decode s.fetchWord = .ok (.dump 1) → s.I.toNat = s.pc.toNat + 2 → step s = .next t →
    t.fetchWord.toNat = (s.getV 0).toNat * 256 + (s.getV 1).toNat

/-! ### Whole steps of the two words the source itself gives (30_encoding.md R85) -/

/-- R141 as the source's example has it: a step on a word of group 6 sets its register to its low byte and advances `pc` by
2 only; the timers count, as in every completed cycle. -/
def Obligations.LoadImmediateStepSetsOneRegister : Prop :=
  ∀ s : State, s.FAULT = .none → s.pc.toNat + 1 ≤ 0xFFF → opOf s.fetchWord = 0x6#4 →
    ∃ t : State, step s = .next t ∧ t.getV (xOf s.fetchWord) = nnOf s.fetchWord ∧ t.pc.toNat = s.pc.toNat + 2 ∧
      t.DT.toNat = s.DT.toNat - 1 ∧ t.ST.toNat = s.ST.toNat - 1 ∧
      ChangesOnly s t (fun c => c = .V (xOf s.fetchWord) ∨ c = .pc ∨ c = .DT ∨ c = .ST)

/-- R122 through a whole step: a word of group 1 moves `pc` to its low 12 bits, below 0x200 or odd as they may be; jumping
to itself it leaves `pc` where it is, and the timers still count. -/
def Obligations.JumpStepGoesToNNN : Prop :=
  ∀ s : State, s.FAULT = .none → s.pc.toNat + 1 ≤ 0xFFF → opOf s.fetchWord = 0x1#4 →
    ∃ t : State, step s = .next t ∧ t.pc.toNat = (nnnOf s.fetchWord).toNat ∧
      ((nnnOf s.fetchWord).toNat = s.pc.toNat → t.pc = s.pc) ∧
      t.DT.toNat = s.DT.toNat - 1 ∧ t.ST.toNat = s.ST.toNat - 1 ∧
      ChangesOnly s t (fun c => c = .pc ∨ c = .DT ∨ c = .ST)

/-! ### The pattern table -/

/-- Decoder and encoder follow the configuration table of patterns (D1, R85; log 7): a word that has a form's pattern
is that form, its operands read from its fields; a word that has none is unrecognized; an instruction's word has its
form's pattern; and, as R84 says, two patterns overlap only on 00E0 and 00EE, which SYS gives up (D3). -/
def Obligations.DecodeAndEncodeFollowThePatternTable : Prop :=
  (∀ (w : Word) (f : Config.Form), hasPattern (Config.patterns.pattern f) w = true →
    (f = .sys → w ≠ 0x00E0#16 ∧ w ≠ 0x00EE#16) → decode w = .ok (buildInstr w f)) ∧
  (∀ w : Word, (∀ f, hasPattern (Config.patterns.pattern f) w = false) → decode w = .error (.unrecognized w)) ∧
  (∀ i : Instr, hasPattern (Config.patterns.pattern i.form) (encode i) = true) ∧
  (∀ (w : Word) (f g : Config.Form), f ≠ g → hasPattern (Config.patterns.pattern f) w = true →
    hasPattern (Config.patterns.pattern g) w = true → (f = .sys ∨ g = .sys) ∧ (w = 0x00E0#16 ∨ w = 0x00EE#16))
end

