-- ==== Sys2Proof/Laws/State.lean ====
section
/-! SUPPORT. One lemma per field per update of the state, so that no proof unfolds a record update. -/

namespace Sys2Proof.Machine.State

/-! ### setV -/

@[simp] theorem setV_mem (s : State) (r : Reg) (v : Byte) : (s.setV r v).mem = s.mem := rfl
@[simp] theorem setV_V (s : State) (r : Reg) (v : Byte) : (s.setV r v).V = s.V.set r v := rfl
@[simp] theorem setV_I (s : State) (r : Reg) (v : Byte) : (s.setV r v).I = s.I := rfl
@[simp] theorem setV_pc (s : State) (r : Reg) (v : Byte) : (s.setV r v).pc = s.pc := rfl
@[simp] theorem setV_stack (s : State) (r : Reg) (v : Byte) : (s.setV r v).stack = s.stack := rfl
@[simp] theorem setV_SP (s : State) (r : Reg) (v : Byte) : (s.setV r v).SP = s.SP := rfl
@[simp] theorem setV_DT (s : State) (r : Reg) (v : Byte) : (s.setV r v).DT = s.DT := rfl
@[simp] theorem setV_ST (s : State) (r : Reg) (v : Byte) : (s.setV r v).ST = s.ST := rfl
@[simp] theorem setV_keys (s : State) (r : Reg) (v : Byte) : (s.setV r v).keys = s.keys := rfl
@[simp] theorem setV_disp (s : State) (r : Reg) (v : Byte) : (s.setV r v).disp = s.disp := rfl
@[simp] theorem setV_dirty (s : State) (r : Reg) (v : Byte) : (s.setV r v).dirty = s.dirty := rfl
@[simp] theorem setV_FAULT (s : State) (r : Reg) (v : Byte) : (s.setV r v).FAULT = s.FAULT := rfl
@[simp] theorem setV_FAULT_PC (s : State) (r : Reg) (v : Byte) : (s.setV r v).FAULT_PC = s.FAULT_PC := rfl
@[simp] theorem setV_FAULT_INFO (s : State) (r : Reg) (v : Byte) : (s.setV r v).FAULT_INFO = s.FAULT_INFO := rfl
@[simp] theorem setV_rndIn (s : State) (r : Reg) (v : Byte) : (s.setV r v).rndIn = s.rndIn := rfl
@[simp] theorem setV_draws (s : State) (r : Reg) (v : Byte) : (s.setV r v).draws = s.draws := rfl

/-! ### setI -/

@[simp] theorem setI_mem (s : State) (a : Word) : (s.setI a).mem = s.mem := rfl
@[simp] theorem setI_V (s : State) (a : Word) : (s.setI a).V = s.V := rfl
@[simp] theorem setI_I (s : State) (a : Word) : (s.setI a).I = a := rfl
@[simp] theorem setI_pc (s : State) (a : Word) : (s.setI a).pc = s.pc := rfl
@[simp] theorem setI_stack (s : State) (a : Word) : (s.setI a).stack = s.stack := rfl
@[simp] theorem setI_SP (s : State) (a : Word) : (s.setI a).SP = s.SP := rfl
@[simp] theorem setI_DT (s : State) (a : Word) : (s.setI a).DT = s.DT := rfl
@[simp] theorem setI_ST (s : State) (a : Word) : (s.setI a).ST = s.ST := rfl
@[simp] theorem setI_keys (s : State) (a : Word) : (s.setI a).keys = s.keys := rfl
@[simp] theorem setI_disp (s : State) (a : Word) : (s.setI a).disp = s.disp := rfl
@[simp] theorem setI_dirty (s : State) (a : Word) : (s.setI a).dirty = s.dirty := rfl
@[simp] theorem setI_FAULT (s : State) (a : Word) : (s.setI a).FAULT = s.FAULT := rfl
@[simp] theorem setI_FAULT_PC (s : State) (a : Word) : (s.setI a).FAULT_PC = s.FAULT_PC := rfl
@[simp] theorem setI_FAULT_INFO (s : State) (a : Word) : (s.setI a).FAULT_INFO = s.FAULT_INFO := rfl
@[simp] theorem setI_rndIn (s : State) (a : Word) : (s.setI a).rndIn = s.rndIn := rfl
@[simp] theorem setI_draws (s : State) (a : Word) : (s.setI a).draws = s.draws := rfl

/-! ### setPc -/

@[simp] theorem setPc_mem (s : State) (a : Word) : (s.setPc a).mem = s.mem := rfl
@[simp] theorem setPc_V (s : State) (a : Word) : (s.setPc a).V = s.V := rfl
@[simp] theorem setPc_I (s : State) (a : Word) : (s.setPc a).I = s.I := rfl
@[simp] theorem setPc_pc (s : State) (a : Word) : (s.setPc a).pc = a := rfl
@[simp] theorem setPc_stack (s : State) (a : Word) : (s.setPc a).stack = s.stack := rfl
@[simp] theorem setPc_SP (s : State) (a : Word) : (s.setPc a).SP = s.SP := rfl
@[simp] theorem setPc_DT (s : State) (a : Word) : (s.setPc a).DT = s.DT := rfl
@[simp] theorem setPc_ST (s : State) (a : Word) : (s.setPc a).ST = s.ST := rfl
@[simp] theorem setPc_keys (s : State) (a : Word) : (s.setPc a).keys = s.keys := rfl
@[simp] theorem setPc_disp (s : State) (a : Word) : (s.setPc a).disp = s.disp := rfl
@[simp] theorem setPc_dirty (s : State) (a : Word) : (s.setPc a).dirty = s.dirty := rfl
@[simp] theorem setPc_FAULT (s : State) (a : Word) : (s.setPc a).FAULT = s.FAULT := rfl
@[simp] theorem setPc_FAULT_PC (s : State) (a : Word) : (s.setPc a).FAULT_PC = s.FAULT_PC := rfl
@[simp] theorem setPc_FAULT_INFO (s : State) (a : Word) : (s.setPc a).FAULT_INFO = s.FAULT_INFO := rfl
@[simp] theorem setPc_rndIn (s : State) (a : Word) : (s.setPc a).rndIn = s.rndIn := rfl
@[simp] theorem setPc_draws (s : State) (a : Word) : (s.setPc a).draws = s.draws := rfl

/-! ### setDT -/

@[simp] theorem setDT_mem (s : State) (v : Byte) : (s.setDT v).mem = s.mem := rfl
@[simp] theorem setDT_V (s : State) (v : Byte) : (s.setDT v).V = s.V := rfl
@[simp] theorem setDT_I (s : State) (v : Byte) : (s.setDT v).I = s.I := rfl
@[simp] theorem setDT_pc (s : State) (v : Byte) : (s.setDT v).pc = s.pc := rfl
@[simp] theorem setDT_stack (s : State) (v : Byte) : (s.setDT v).stack = s.stack := rfl
@[simp] theorem setDT_SP (s : State) (v : Byte) : (s.setDT v).SP = s.SP := rfl
@[simp] theorem setDT_DT (s : State) (v : Byte) : (s.setDT v).DT = v := rfl
@[simp] theorem setDT_ST (s : State) (v : Byte) : (s.setDT v).ST = s.ST := rfl
@[simp] theorem setDT_keys (s : State) (v : Byte) : (s.setDT v).keys = s.keys := rfl
@[simp] theorem setDT_disp (s : State) (v : Byte) : (s.setDT v).disp = s.disp := rfl
@[simp] theorem setDT_dirty (s : State) (v : Byte) : (s.setDT v).dirty = s.dirty := rfl
@[simp] theorem setDT_FAULT (s : State) (v : Byte) : (s.setDT v).FAULT = s.FAULT := rfl
@[simp] theorem setDT_FAULT_PC (s : State) (v : Byte) : (s.setDT v).FAULT_PC = s.FAULT_PC := rfl
@[simp] theorem setDT_FAULT_INFO (s : State) (v : Byte) : (s.setDT v).FAULT_INFO = s.FAULT_INFO := rfl
@[simp] theorem setDT_rndIn (s : State) (v : Byte) : (s.setDT v).rndIn = s.rndIn := rfl
@[simp] theorem setDT_draws (s : State) (v : Byte) : (s.setDT v).draws = s.draws := rfl

/-! ### setST -/

@[simp] theorem setST_mem (s : State) (v : Byte) : (s.setST v).mem = s.mem := rfl
@[simp] theorem setST_V (s : State) (v : Byte) : (s.setST v).V = s.V := rfl
@[simp] theorem setST_I (s : State) (v : Byte) : (s.setST v).I = s.I := rfl
@[simp] theorem setST_pc (s : State) (v : Byte) : (s.setST v).pc = s.pc := rfl
@[simp] theorem setST_stack (s : State) (v : Byte) : (s.setST v).stack = s.stack := rfl
@[simp] theorem setST_SP (s : State) (v : Byte) : (s.setST v).SP = s.SP := rfl
@[simp] theorem setST_DT (s : State) (v : Byte) : (s.setST v).DT = s.DT := rfl
@[simp] theorem setST_ST (s : State) (v : Byte) : (s.setST v).ST = v := rfl
@[simp] theorem setST_keys (s : State) (v : Byte) : (s.setST v).keys = s.keys := rfl
@[simp] theorem setST_disp (s : State) (v : Byte) : (s.setST v).disp = s.disp := rfl
@[simp] theorem setST_dirty (s : State) (v : Byte) : (s.setST v).dirty = s.dirty := rfl
@[simp] theorem setST_FAULT (s : State) (v : Byte) : (s.setST v).FAULT = s.FAULT := rfl
@[simp] theorem setST_FAULT_PC (s : State) (v : Byte) : (s.setST v).FAULT_PC = s.FAULT_PC := rfl
@[simp] theorem setST_FAULT_INFO (s : State) (v : Byte) : (s.setST v).FAULT_INFO = s.FAULT_INFO := rfl
@[simp] theorem setST_rndIn (s : State) (v : Byte) : (s.setST v).rndIn = s.rndIn := rfl
@[simp] theorem setST_draws (s : State) (v : Byte) : (s.setST v).draws = s.draws := rfl

/-! ### setKeys -/

@[simp] theorem setKeys_mem (s : State) (k : BitVec 16) : (s.setKeys k).mem = s.mem := rfl
@[simp] theorem setKeys_V (s : State) (k : BitVec 16) : (s.setKeys k).V = s.V := rfl
@[simp] theorem setKeys_I (s : State) (k : BitVec 16) : (s.setKeys k).I = s.I := rfl
@[simp] theorem setKeys_pc (s : State) (k : BitVec 16) : (s.setKeys k).pc = s.pc := rfl
@[simp] theorem setKeys_stack (s : State) (k : BitVec 16) : (s.setKeys k).stack = s.stack := rfl
@[simp] theorem setKeys_SP (s : State) (k : BitVec 16) : (s.setKeys k).SP = s.SP := rfl
@[simp] theorem setKeys_DT (s : State) (k : BitVec 16) : (s.setKeys k).DT = s.DT := rfl
@[simp] theorem setKeys_ST (s : State) (k : BitVec 16) : (s.setKeys k).ST = s.ST := rfl
@[simp] theorem setKeys_keys (s : State) (k : BitVec 16) : (s.setKeys k).keys = k := rfl
@[simp] theorem setKeys_disp (s : State) (k : BitVec 16) : (s.setKeys k).disp = s.disp := rfl
@[simp] theorem setKeys_dirty (s : State) (k : BitVec 16) : (s.setKeys k).dirty = s.dirty := rfl
@[simp] theorem setKeys_FAULT (s : State) (k : BitVec 16) : (s.setKeys k).FAULT = s.FAULT := rfl
@[simp] theorem setKeys_FAULT_PC (s : State) (k : BitVec 16) : (s.setKeys k).FAULT_PC = s.FAULT_PC := rfl
@[simp] theorem setKeys_FAULT_INFO (s : State) (k : BitVec 16) : (s.setKeys k).FAULT_INFO = s.FAULT_INFO := rfl
@[simp] theorem setKeys_rndIn (s : State) (k : BitVec 16) : (s.setKeys k).rndIn = s.rndIn := rfl
@[simp] theorem setKeys_draws (s : State) (k : BitVec 16) : (s.setKeys k).draws = s.draws := rfl

/-! ### setDirty -/

@[simp] theorem setDirty_mem (s : State) (d : Bool) : (s.setDirty d).mem = s.mem := rfl
@[simp] theorem setDirty_V (s : State) (d : Bool) : (s.setDirty d).V = s.V := rfl
@[simp] theorem setDirty_I (s : State) (d : Bool) : (s.setDirty d).I = s.I := rfl
@[simp] theorem setDirty_pc (s : State) (d : Bool) : (s.setDirty d).pc = s.pc := rfl
@[simp] theorem setDirty_stack (s : State) (d : Bool) : (s.setDirty d).stack = s.stack := rfl
@[simp] theorem setDirty_SP (s : State) (d : Bool) : (s.setDirty d).SP = s.SP := rfl
@[simp] theorem setDirty_DT (s : State) (d : Bool) : (s.setDirty d).DT = s.DT := rfl
@[simp] theorem setDirty_ST (s : State) (d : Bool) : (s.setDirty d).ST = s.ST := rfl
@[simp] theorem setDirty_keys (s : State) (d : Bool) : (s.setDirty d).keys = s.keys := rfl
@[simp] theorem setDirty_disp (s : State) (d : Bool) : (s.setDirty d).disp = s.disp := rfl
@[simp] theorem setDirty_dirty (s : State) (d : Bool) : (s.setDirty d).dirty = d := rfl
@[simp] theorem setDirty_FAULT (s : State) (d : Bool) : (s.setDirty d).FAULT = s.FAULT := rfl
@[simp] theorem setDirty_FAULT_PC (s : State) (d : Bool) : (s.setDirty d).FAULT_PC = s.FAULT_PC := rfl
@[simp] theorem setDirty_FAULT_INFO (s : State) (d : Bool) : (s.setDirty d).FAULT_INFO = s.FAULT_INFO := rfl
@[simp] theorem setDirty_rndIn (s : State) (d : Bool) : (s.setDirty d).rndIn = s.rndIn := rfl
@[simp] theorem setDirty_draws (s : State) (d : Bool) : (s.setDirty d).draws = s.draws := rfl

/-! ### setMem -/

@[simp] theorem setMem_mem (s : State) (m : Memory) : (s.setMem m).mem = m := rfl
@[simp] theorem setMem_V (s : State) (m : Memory) : (s.setMem m).V = s.V := rfl
@[simp] theorem setMem_I (s : State) (m : Memory) : (s.setMem m).I = s.I := rfl
@[simp] theorem setMem_pc (s : State) (m : Memory) : (s.setMem m).pc = s.pc := rfl
@[simp] theorem setMem_stack (s : State) (m : Memory) : (s.setMem m).stack = s.stack := rfl
@[simp] theorem setMem_SP (s : State) (m : Memory) : (s.setMem m).SP = s.SP := rfl
@[simp] theorem setMem_DT (s : State) (m : Memory) : (s.setMem m).DT = s.DT := rfl
@[simp] theorem setMem_ST (s : State) (m : Memory) : (s.setMem m).ST = s.ST := rfl
@[simp] theorem setMem_keys (s : State) (m : Memory) : (s.setMem m).keys = s.keys := rfl
@[simp] theorem setMem_disp (s : State) (m : Memory) : (s.setMem m).disp = s.disp := rfl
@[simp] theorem setMem_dirty (s : State) (m : Memory) : (s.setMem m).dirty = s.dirty := rfl
@[simp] theorem setMem_FAULT (s : State) (m : Memory) : (s.setMem m).FAULT = s.FAULT := rfl
@[simp] theorem setMem_FAULT_PC (s : State) (m : Memory) : (s.setMem m).FAULT_PC = s.FAULT_PC := rfl
@[simp] theorem setMem_FAULT_INFO (s : State) (m : Memory) : (s.setMem m).FAULT_INFO = s.FAULT_INFO := rfl
@[simp] theorem setMem_rndIn (s : State) (m : Memory) : (s.setMem m).rndIn = s.rndIn := rfl
@[simp] theorem setMem_draws (s : State) (m : Memory) : (s.setMem m).draws = s.draws := rfl

/-! ### setStack -/

@[simp] theorem setStack_mem (s : State) (st : Vector Word 16) (sp : BitVec 5) : (s.setStack st sp).mem = s.mem := rfl
@[simp] theorem setStack_V (s : State) (st : Vector Word 16) (sp : BitVec 5) : (s.setStack st sp).V = s.V := rfl
@[simp] theorem setStack_I (s : State) (st : Vector Word 16) (sp : BitVec 5) : (s.setStack st sp).I = s.I := rfl
@[simp] theorem setStack_pc (s : State) (st : Vector Word 16) (sp : BitVec 5) : (s.setStack st sp).pc = s.pc := rfl
@[simp] theorem setStack_stack (s : State) (st : Vector Word 16) (sp : BitVec 5) : (s.setStack st sp).stack = st := rfl
@[simp] theorem setStack_SP (s : State) (st : Vector Word 16) (sp : BitVec 5) : (s.setStack st sp).SP = sp := rfl
@[simp] theorem setStack_DT (s : State) (st : Vector Word 16) (sp : BitVec 5) : (s.setStack st sp).DT = s.DT := rfl
@[simp] theorem setStack_ST (s : State) (st : Vector Word 16) (sp : BitVec 5) : (s.setStack st sp).ST = s.ST := rfl
@[simp] theorem setStack_keys (s : State) (st : Vector Word 16) (sp : BitVec 5) : (s.setStack st sp).keys = s.keys := rfl
@[simp] theorem setStack_disp (s : State) (st : Vector Word 16) (sp : BitVec 5) : (s.setStack st sp).disp = s.disp := rfl
@[simp] theorem setStack_dirty (s : State) (st : Vector Word 16) (sp : BitVec 5) : (s.setStack st sp).dirty = s.dirty := rfl
@[simp] theorem setStack_FAULT (s : State) (st : Vector Word 16) (sp : BitVec 5) : (s.setStack st sp).FAULT = s.FAULT := rfl
@[simp] theorem setStack_FAULT_PC (s : State) (st : Vector Word 16) (sp : BitVec 5) : (s.setStack st sp).FAULT_PC = s.FAULT_PC := rfl
@[simp] theorem setStack_FAULT_INFO (s : State) (st : Vector Word 16) (sp : BitVec 5) : (s.setStack st sp).FAULT_INFO = s.FAULT_INFO := rfl
@[simp] theorem setStack_rndIn (s : State) (st : Vector Word 16) (sp : BitVec 5) : (s.setStack st sp).rndIn = s.rndIn := rfl
@[simp] theorem setStack_draws (s : State) (st : Vector Word 16) (sp : BitVec 5) : (s.setStack st sp).draws = s.draws := rfl

/-! ### setDisp -/

@[simp] theorem setDisp_mem (s : State) (d : Display) : (s.setDisp d).mem = s.mem := rfl
@[simp] theorem setDisp_V (s : State) (d : Display) : (s.setDisp d).V = s.V := rfl
@[simp] theorem setDisp_I (s : State) (d : Display) : (s.setDisp d).I = s.I := rfl
@[simp] theorem setDisp_pc (s : State) (d : Display) : (s.setDisp d).pc = s.pc := rfl
@[simp] theorem setDisp_stack (s : State) (d : Display) : (s.setDisp d).stack = s.stack := rfl
@[simp] theorem setDisp_SP (s : State) (d : Display) : (s.setDisp d).SP = s.SP := rfl
@[simp] theorem setDisp_DT (s : State) (d : Display) : (s.setDisp d).DT = s.DT := rfl
@[simp] theorem setDisp_ST (s : State) (d : Display) : (s.setDisp d).ST = s.ST := rfl
@[simp] theorem setDisp_keys (s : State) (d : Display) : (s.setDisp d).keys = s.keys := rfl
@[simp] theorem setDisp_disp (s : State) (d : Display) : (s.setDisp d).disp = d := rfl
@[simp] theorem setDisp_dirty (s : State) (d : Display) : (s.setDisp d).dirty = true := rfl
@[simp] theorem setDisp_FAULT (s : State) (d : Display) : (s.setDisp d).FAULT = s.FAULT := rfl
@[simp] theorem setDisp_FAULT_PC (s : State) (d : Display) : (s.setDisp d).FAULT_PC = s.FAULT_PC := rfl
@[simp] theorem setDisp_FAULT_INFO (s : State) (d : Display) : (s.setDisp d).FAULT_INFO = s.FAULT_INFO := rfl
@[simp] theorem setDisp_rndIn (s : State) (d : Display) : (s.setDisp d).rndIn = s.rndIn := rfl
@[simp] theorem setDisp_draws (s : State) (d : Display) : (s.setDisp d).draws = s.draws := rfl

/-! ### setRndIn -/

@[simp] theorem setRndIn_mem (s : State) (b : Option Byte) : (s.setRndIn b).mem = s.mem := rfl
@[simp] theorem setRndIn_V (s : State) (b : Option Byte) : (s.setRndIn b).V = s.V := rfl
@[simp] theorem setRndIn_I (s : State) (b : Option Byte) : (s.setRndIn b).I = s.I := rfl
@[simp] theorem setRndIn_pc (s : State) (b : Option Byte) : (s.setRndIn b).pc = s.pc := rfl
@[simp] theorem setRndIn_stack (s : State) (b : Option Byte) : (s.setRndIn b).stack = s.stack := rfl
@[simp] theorem setRndIn_SP (s : State) (b : Option Byte) : (s.setRndIn b).SP = s.SP := rfl
@[simp] theorem setRndIn_DT (s : State) (b : Option Byte) : (s.setRndIn b).DT = s.DT := rfl
@[simp] theorem setRndIn_ST (s : State) (b : Option Byte) : (s.setRndIn b).ST = s.ST := rfl
@[simp] theorem setRndIn_keys (s : State) (b : Option Byte) : (s.setRndIn b).keys = s.keys := rfl
@[simp] theorem setRndIn_disp (s : State) (b : Option Byte) : (s.setRndIn b).disp = s.disp := rfl
@[simp] theorem setRndIn_dirty (s : State) (b : Option Byte) : (s.setRndIn b).dirty = s.dirty := rfl
@[simp] theorem setRndIn_FAULT (s : State) (b : Option Byte) : (s.setRndIn b).FAULT = s.FAULT := rfl
@[simp] theorem setRndIn_FAULT_PC (s : State) (b : Option Byte) : (s.setRndIn b).FAULT_PC = s.FAULT_PC := rfl
@[simp] theorem setRndIn_FAULT_INFO (s : State) (b : Option Byte) : (s.setRndIn b).FAULT_INFO = s.FAULT_INFO := rfl
@[simp] theorem setRndIn_rndIn (s : State) (b : Option Byte) : (s.setRndIn b).rndIn = b := rfl
@[simp] theorem setRndIn_draws (s : State) (b : Option Byte) : (s.setRndIn b).draws = s.draws := rfl

/-! ### takeFault -/

@[simp] theorem takeFault_mem (s : State) (c : FaultCode) (n : Nat) : (s.takeFault c n).mem = s.mem := rfl
@[simp] theorem takeFault_V (s : State) (c : FaultCode) (n : Nat) : (s.takeFault c n).V = s.V := rfl
@[simp] theorem takeFault_I (s : State) (c : FaultCode) (n : Nat) : (s.takeFault c n).I = s.I := rfl
@[simp] theorem takeFault_pc (s : State) (c : FaultCode) (n : Nat) : (s.takeFault c n).pc = s.pc := rfl
@[simp] theorem takeFault_stack (s : State) (c : FaultCode) (n : Nat) : (s.takeFault c n).stack = s.stack := rfl
@[simp] theorem takeFault_SP (s : State) (c : FaultCode) (n : Nat) : (s.takeFault c n).SP = s.SP := rfl
@[simp] theorem takeFault_DT (s : State) (c : FaultCode) (n : Nat) : (s.takeFault c n).DT = s.DT := rfl
@[simp] theorem takeFault_ST (s : State) (c : FaultCode) (n : Nat) : (s.takeFault c n).ST = s.ST := rfl
@[simp] theorem takeFault_keys (s : State) (c : FaultCode) (n : Nat) : (s.takeFault c n).keys = s.keys := rfl
@[simp] theorem takeFault_disp (s : State) (c : FaultCode) (n : Nat) : (s.takeFault c n).disp = s.disp := rfl
@[simp] theorem takeFault_dirty (s : State) (c : FaultCode) (n : Nat) : (s.takeFault c n).dirty = s.dirty := rfl
@[simp] theorem takeFault_FAULT (s : State) (c : FaultCode) (n : Nat) : (s.takeFault c n).FAULT = c := rfl
@[simp] theorem takeFault_FAULT_PC (s : State) (c : FaultCode) (n : Nat) : (s.takeFault c n).FAULT_PC = s.pc := rfl
@[simp] theorem takeFault_FAULT_INFO (s : State) (c : FaultCode) (n : Nat) : (s.takeFault c n).FAULT_INFO = BitVec.ofNat 16 n := rfl
@[simp] theorem takeFault_rndIn (s : State) (c : FaultCode) (n : Nat) : (s.takeFault c n).rndIn = s.rndIn := rfl
@[simp] theorem takeFault_draws (s : State) (c : FaultCode) (n : Nat) : (s.takeFault c n).draws = s.draws := rfl

/-! ### writeBytes -/

@[simp] theorem writeBytes_mem (s : State) (a : Nat) (vs : List Byte) : (s.writeBytes a vs).mem = s.mem.writeList a vs := rfl
@[simp] theorem writeBytes_V (s : State) (a : Nat) (vs : List Byte) : (s.writeBytes a vs).V = s.V := rfl
@[simp] theorem writeBytes_I (s : State) (a : Nat) (vs : List Byte) : (s.writeBytes a vs).I = s.I := rfl
@[simp] theorem writeBytes_pc (s : State) (a : Nat) (vs : List Byte) : (s.writeBytes a vs).pc = s.pc := rfl
@[simp] theorem writeBytes_stack (s : State) (a : Nat) (vs : List Byte) : (s.writeBytes a vs).stack = s.stack := rfl
@[simp] theorem writeBytes_SP (s : State) (a : Nat) (vs : List Byte) : (s.writeBytes a vs).SP = s.SP := rfl
@[simp] theorem writeBytes_DT (s : State) (a : Nat) (vs : List Byte) : (s.writeBytes a vs).DT = s.DT := rfl
@[simp] theorem writeBytes_ST (s : State) (a : Nat) (vs : List Byte) : (s.writeBytes a vs).ST = s.ST := rfl
@[simp] theorem writeBytes_keys (s : State) (a : Nat) (vs : List Byte) : (s.writeBytes a vs).keys = s.keys := rfl
@[simp] theorem writeBytes_disp (s : State) (a : Nat) (vs : List Byte) : (s.writeBytes a vs).disp = s.disp := rfl
@[simp] theorem writeBytes_dirty (s : State) (a : Nat) (vs : List Byte) : (s.writeBytes a vs).dirty = s.dirty := rfl
@[simp] theorem writeBytes_FAULT (s : State) (a : Nat) (vs : List Byte) : (s.writeBytes a vs).FAULT = s.FAULT := rfl
@[simp] theorem writeBytes_FAULT_PC (s : State) (a : Nat) (vs : List Byte) : (s.writeBytes a vs).FAULT_PC = s.FAULT_PC := rfl
@[simp] theorem writeBytes_FAULT_INFO (s : State) (a : Nat) (vs : List Byte) : (s.writeBytes a vs).FAULT_INFO = s.FAULT_INFO := rfl
@[simp] theorem writeBytes_rndIn (s : State) (a : Nat) (vs : List Byte) : (s.writeBytes a vs).rndIn = s.rndIn := rfl
@[simp] theorem writeBytes_draws (s : State) (a : Nat) (vs : List Byte) : (s.writeBytes a vs).draws = s.draws := rfl

/-! ### advance -/

@[simp] theorem advance_mem (s : State) : (s.advance).mem = s.mem := rfl
@[simp] theorem advance_V (s : State) : (s.advance).V = s.V := rfl
@[simp] theorem advance_I (s : State) : (s.advance).I = s.I := rfl
@[simp] theorem advance_pc (s : State) : (s.advance).pc = s.pc + 2#16 := rfl
@[simp] theorem advance_stack (s : State) : (s.advance).stack = s.stack := rfl
@[simp] theorem advance_SP (s : State) : (s.advance).SP = s.SP := rfl
@[simp] theorem advance_DT (s : State) : (s.advance).DT = s.DT := rfl
@[simp] theorem advance_ST (s : State) : (s.advance).ST = s.ST := rfl
@[simp] theorem advance_keys (s : State) : (s.advance).keys = s.keys := rfl
@[simp] theorem advance_disp (s : State) : (s.advance).disp = s.disp := rfl
@[simp] theorem advance_dirty (s : State) : (s.advance).dirty = s.dirty := rfl
@[simp] theorem advance_FAULT (s : State) : (s.advance).FAULT = s.FAULT := rfl
@[simp] theorem advance_FAULT_PC (s : State) : (s.advance).FAULT_PC = s.FAULT_PC := rfl
@[simp] theorem advance_FAULT_INFO (s : State) : (s.advance).FAULT_INFO = s.FAULT_INFO := rfl
@[simp] theorem advance_rndIn (s : State) : (s.advance).rndIn = s.rndIn := rfl
@[simp] theorem advance_draws (s : State) : (s.advance).draws = s.draws := rfl

/-! ### undoFetch -/

@[simp] theorem undoFetch_mem (s : State) : (s.undoFetch).mem = s.mem := rfl
@[simp] theorem undoFetch_V (s : State) : (s.undoFetch).V = s.V := rfl
@[simp] theorem undoFetch_I (s : State) : (s.undoFetch).I = s.I := rfl
@[simp] theorem undoFetch_pc (s : State) : (s.undoFetch).pc = s.pc - 2#16 := rfl
@[simp] theorem undoFetch_stack (s : State) : (s.undoFetch).stack = s.stack := rfl
@[simp] theorem undoFetch_SP (s : State) : (s.undoFetch).SP = s.SP := rfl
@[simp] theorem undoFetch_DT (s : State) : (s.undoFetch).DT = s.DT := rfl
@[simp] theorem undoFetch_ST (s : State) : (s.undoFetch).ST = s.ST := rfl
@[simp] theorem undoFetch_keys (s : State) : (s.undoFetch).keys = s.keys := rfl
@[simp] theorem undoFetch_disp (s : State) : (s.undoFetch).disp = s.disp := rfl
@[simp] theorem undoFetch_dirty (s : State) : (s.undoFetch).dirty = s.dirty := rfl
@[simp] theorem undoFetch_FAULT (s : State) : (s.undoFetch).FAULT = s.FAULT := rfl
@[simp] theorem undoFetch_FAULT_PC (s : State) : (s.undoFetch).FAULT_PC = s.FAULT_PC := rfl
@[simp] theorem undoFetch_FAULT_INFO (s : State) : (s.undoFetch).FAULT_INFO = s.FAULT_INFO := rfl
@[simp] theorem undoFetch_rndIn (s : State) : (s.undoFetch).rndIn = s.rndIn := rfl
@[simp] theorem undoFetch_draws (s : State) : (s.undoFetch).draws = s.draws := rfl

/-! ### tick -/

@[simp] theorem tick_mem (s : State) : (s.tick).mem = s.mem := rfl
@[simp] theorem tick_V (s : State) : (s.tick).V = s.V := rfl
@[simp] theorem tick_I (s : State) : (s.tick).I = s.I := rfl
@[simp] theorem tick_pc (s : State) : (s.tick).pc = s.pc := rfl
@[simp] theorem tick_stack (s : State) : (s.tick).stack = s.stack := rfl
@[simp] theorem tick_SP (s : State) : (s.tick).SP = s.SP := rfl
@[simp] theorem tick_DT (s : State) : (s.tick).DT = tickByte s.DT := rfl
@[simp] theorem tick_ST (s : State) : (s.tick).ST = tickByte s.ST := rfl
@[simp] theorem tick_keys (s : State) : (s.tick).keys = s.keys := rfl
@[simp] theorem tick_disp (s : State) : (s.tick).disp = s.disp := rfl
@[simp] theorem tick_dirty (s : State) : (s.tick).dirty = s.dirty := rfl
@[simp] theorem tick_FAULT (s : State) : (s.tick).FAULT = s.FAULT := rfl
@[simp] theorem tick_FAULT_PC (s : State) : (s.tick).FAULT_PC = s.FAULT_PC := rfl
@[simp] theorem tick_FAULT_INFO (s : State) : (s.tick).FAULT_INFO = s.FAULT_INFO := rfl
@[simp] theorem tick_rndIn (s : State) : (s.tick).rndIn = s.rndIn := rfl
@[simp] theorem tick_draws (s : State) : (s.tick).draws = s.draws := rfl

/-! ### bumpI -/

@[simp] theorem bumpI_mem (s : State) (x : Reg) : (s.bumpI x).mem = s.mem := rfl
@[simp] theorem bumpI_V (s : State) (x : Reg) : (s.bumpI x).V = s.V := rfl
@[simp] theorem bumpI_I (s : State) (x : Reg) : (s.bumpI x).I = s.I + BitVec.ofNat 16 (x.val + 1) := rfl
@[simp] theorem bumpI_pc (s : State) (x : Reg) : (s.bumpI x).pc = s.pc := rfl
@[simp] theorem bumpI_stack (s : State) (x : Reg) : (s.bumpI x).stack = s.stack := rfl
@[simp] theorem bumpI_SP (s : State) (x : Reg) : (s.bumpI x).SP = s.SP := rfl
@[simp] theorem bumpI_DT (s : State) (x : Reg) : (s.bumpI x).DT = s.DT := rfl
@[simp] theorem bumpI_ST (s : State) (x : Reg) : (s.bumpI x).ST = s.ST := rfl
@[simp] theorem bumpI_keys (s : State) (x : Reg) : (s.bumpI x).keys = s.keys := rfl
@[simp] theorem bumpI_disp (s : State) (x : Reg) : (s.bumpI x).disp = s.disp := rfl
@[simp] theorem bumpI_dirty (s : State) (x : Reg) : (s.bumpI x).dirty = s.dirty := rfl
@[simp] theorem bumpI_FAULT (s : State) (x : Reg) : (s.bumpI x).FAULT = s.FAULT := rfl
@[simp] theorem bumpI_FAULT_PC (s : State) (x : Reg) : (s.bumpI x).FAULT_PC = s.FAULT_PC := rfl
@[simp] theorem bumpI_FAULT_INFO (s : State) (x : Reg) : (s.bumpI x).FAULT_INFO = s.FAULT_INFO := rfl
@[simp] theorem bumpI_rndIn (s : State) (x : Reg) : (s.bumpI x).rndIn = s.rndIn := rfl
@[simp] theorem bumpI_draws (s : State) (x : Reg) : (s.bumpI x).draws = s.draws := rfl

/-! ### setVThenFlag -/

@[simp] theorem setVThenFlag_mem (s : State) (x : Reg) (v f : Byte) : (s.setVThenFlag x v f).mem = s.mem := rfl
@[simp] theorem setVThenFlag_V (s : State) (x : Reg) (v f : Byte) : (s.setVThenFlag x v f).V = (s.V.set x v).set VF f := rfl
@[simp] theorem setVThenFlag_I (s : State) (x : Reg) (v f : Byte) : (s.setVThenFlag x v f).I = s.I := rfl
@[simp] theorem setVThenFlag_pc (s : State) (x : Reg) (v f : Byte) : (s.setVThenFlag x v f).pc = s.pc := rfl
@[simp] theorem setVThenFlag_stack (s : State) (x : Reg) (v f : Byte) : (s.setVThenFlag x v f).stack = s.stack := rfl
@[simp] theorem setVThenFlag_SP (s : State) (x : Reg) (v f : Byte) : (s.setVThenFlag x v f).SP = s.SP := rfl
@[simp] theorem setVThenFlag_DT (s : State) (x : Reg) (v f : Byte) : (s.setVThenFlag x v f).DT = s.DT := rfl
@[simp] theorem setVThenFlag_ST (s : State) (x : Reg) (v f : Byte) : (s.setVThenFlag x v f).ST = s.ST := rfl
@[simp] theorem setVThenFlag_keys (s : State) (x : Reg) (v f : Byte) : (s.setVThenFlag x v f).keys = s.keys := rfl
@[simp] theorem setVThenFlag_disp (s : State) (x : Reg) (v f : Byte) : (s.setVThenFlag x v f).disp = s.disp := rfl
@[simp] theorem setVThenFlag_dirty (s : State) (x : Reg) (v f : Byte) : (s.setVThenFlag x v f).dirty = s.dirty := rfl
@[simp] theorem setVThenFlag_FAULT (s : State) (x : Reg) (v f : Byte) : (s.setVThenFlag x v f).FAULT = s.FAULT := rfl
@[simp] theorem setVThenFlag_FAULT_PC (s : State) (x : Reg) (v f : Byte) : (s.setVThenFlag x v f).FAULT_PC = s.FAULT_PC := rfl
@[simp] theorem setVThenFlag_FAULT_INFO (s : State) (x : Reg) (v f : Byte) : (s.setVThenFlag x v f).FAULT_INFO = s.FAULT_INFO := rfl
@[simp] theorem setVThenFlag_rndIn (s : State) (x : Reg) (v f : Byte) : (s.setVThenFlag x v f).rndIn = s.rndIn := rfl
@[simp] theorem setVThenFlag_draws (s : State) (x : Reg) (v f : Byte) : (s.setVThenFlag x v f).draws = s.draws := rfl

/-! ### loadRegs -/

@[simp] theorem loadRegs_mem (s : State) (x : Reg) : (s.loadRegs x).mem = s.mem := rfl
@[simp] theorem loadRegs_I (s : State) (x : Reg) : (s.loadRegs x).I = s.I := rfl
@[simp] theorem loadRegs_pc (s : State) (x : Reg) : (s.loadRegs x).pc = s.pc := rfl
@[simp] theorem loadRegs_stack (s : State) (x : Reg) : (s.loadRegs x).stack = s.stack := rfl
@[simp] theorem loadRegs_SP (s : State) (x : Reg) : (s.loadRegs x).SP = s.SP := rfl
@[simp] theorem loadRegs_DT (s : State) (x : Reg) : (s.loadRegs x).DT = s.DT := rfl
@[simp] theorem loadRegs_ST (s : State) (x : Reg) : (s.loadRegs x).ST = s.ST := rfl
@[simp] theorem loadRegs_keys (s : State) (x : Reg) : (s.loadRegs x).keys = s.keys := rfl
@[simp] theorem loadRegs_disp (s : State) (x : Reg) : (s.loadRegs x).disp = s.disp := rfl
@[simp] theorem loadRegs_dirty (s : State) (x : Reg) : (s.loadRegs x).dirty = s.dirty := rfl
@[simp] theorem loadRegs_FAULT (s : State) (x : Reg) : (s.loadRegs x).FAULT = s.FAULT := rfl
@[simp] theorem loadRegs_FAULT_PC (s : State) (x : Reg) : (s.loadRegs x).FAULT_PC = s.FAULT_PC := rfl
@[simp] theorem loadRegs_FAULT_INFO (s : State) (x : Reg) : (s.loadRegs x).FAULT_INFO = s.FAULT_INFO := rfl
@[simp] theorem loadRegs_rndIn (s : State) (x : Reg) : (s.loadRegs x).rndIn = s.rndIn := rfl
@[simp] theorem loadRegs_draws (s : State) (x : Reg) : (s.loadRegs x).draws = s.draws := rfl

/-! ### skipIf -/

@[simp] theorem skipIf_mem (s : State) (c : Bool) : (s.skipIf c).mem = s.mem := by cases c <;> rfl
@[simp] theorem skipIf_V (s : State) (c : Bool) : (s.skipIf c).V = s.V := by cases c <;> rfl
@[simp] theorem skipIf_I (s : State) (c : Bool) : (s.skipIf c).I = s.I := by cases c <;> rfl
@[simp] theorem skipIf_pc (s : State) (c : Bool) : (s.skipIf c).pc = if c then s.pc + 2#16 else s.pc := by cases c <;> rfl
@[simp] theorem skipIf_stack (s : State) (c : Bool) : (s.skipIf c).stack = s.stack := by cases c <;> rfl
@[simp] theorem skipIf_SP (s : State) (c : Bool) : (s.skipIf c).SP = s.SP := by cases c <;> rfl
@[simp] theorem skipIf_DT (s : State) (c : Bool) : (s.skipIf c).DT = s.DT := by cases c <;> rfl
@[simp] theorem skipIf_ST (s : State) (c : Bool) : (s.skipIf c).ST = s.ST := by cases c <;> rfl
@[simp] theorem skipIf_keys (s : State) (c : Bool) : (s.skipIf c).keys = s.keys := by cases c <;> rfl
@[simp] theorem skipIf_disp (s : State) (c : Bool) : (s.skipIf c).disp = s.disp := by cases c <;> rfl
@[simp] theorem skipIf_dirty (s : State) (c : Bool) : (s.skipIf c).dirty = s.dirty := by cases c <;> rfl
@[simp] theorem skipIf_FAULT (s : State) (c : Bool) : (s.skipIf c).FAULT = s.FAULT := by cases c <;> rfl
@[simp] theorem skipIf_FAULT_PC (s : State) (c : Bool) : (s.skipIf c).FAULT_PC = s.FAULT_PC := by cases c <;> rfl
@[simp] theorem skipIf_FAULT_INFO (s : State) (c : Bool) : (s.skipIf c).FAULT_INFO = s.FAULT_INFO := by cases c <;> rfl
@[simp] theorem skipIf_rndIn (s : State) (c : Bool) : (s.skipIf c).rndIn = s.rndIn := by cases c <;> rfl
@[simp] theorem skipIf_draws (s : State) (c : Bool) : (s.skipIf c).draws = s.draws := by cases c <;> rfl

/-! ### useRnd -/

@[simp] theorem useRnd_mem (s : State) : (s.useRnd).mem = s.mem := by
  unfold useRnd; split <;> rfl
@[simp] theorem useRnd_V (s : State) : (s.useRnd).V = s.V := by
  unfold useRnd; split <;> rfl
@[simp] theorem useRnd_I (s : State) : (s.useRnd).I = s.I := by
  unfold useRnd; split <;> rfl
@[simp] theorem useRnd_pc (s : State) : (s.useRnd).pc = s.pc := by
  unfold useRnd; split <;> rfl
@[simp] theorem useRnd_stack (s : State) : (s.useRnd).stack = s.stack := by
  unfold useRnd; split <;> rfl
@[simp] theorem useRnd_SP (s : State) : (s.useRnd).SP = s.SP := by
  unfold useRnd; split <;> rfl
@[simp] theorem useRnd_DT (s : State) : (s.useRnd).DT = s.DT := by
  unfold useRnd; split <;> rfl
@[simp] theorem useRnd_ST (s : State) : (s.useRnd).ST = s.ST := by
  unfold useRnd; split <;> rfl
@[simp] theorem useRnd_keys (s : State) : (s.useRnd).keys = s.keys := by
  unfold useRnd; split <;> rfl
@[simp] theorem useRnd_disp (s : State) : (s.useRnd).disp = s.disp := by
  unfold useRnd; split <;> rfl
@[simp] theorem useRnd_dirty (s : State) : (s.useRnd).dirty = s.dirty := by
  unfold useRnd; split <;> rfl
@[simp] theorem useRnd_FAULT (s : State) : (s.useRnd).FAULT = s.FAULT := by
  unfold useRnd; split <;> rfl
@[simp] theorem useRnd_FAULT_PC (s : State) : (s.useRnd).FAULT_PC = s.FAULT_PC := by
  unfold useRnd; split <;> rfl
@[simp] theorem useRnd_FAULT_INFO (s : State) : (s.useRnd).FAULT_INFO = s.FAULT_INFO := by
  unfold useRnd; split <;> rfl
@[simp] theorem useRnd_rndIn (s : State) : (s.useRnd).rndIn = none := by
  unfold useRnd; split <;> first | rfl | assumption

end Sys2Proof.Machine.State
end

