-- ==== Sys2Proof/Laws/Registers.lean ====
section
/-! SUPPORT. Reading a register after the operations that write registers, and the arithmetic of flags and timers. -/

namespace Sys2Proof.Machine

theorem State.getV_of_V {s t : State} (h : t.V = s.V) (r : Reg) : t.getV r = s.getV r := by
  rw [State.getV, State.getV, h]

@[simp] theorem State.getV_setV (s : State) (x r : Reg) (v : Byte) :
    (s.setV x v).getV r = if r = x then v else s.getV r := by
  unfold State.getV
  simp only [State.setV_V, Fin.getElem_fin, Vector.getElem_set]
  by_cases h : r = x
  · simp [h]
  · have : ¬ x.val = r.val := fun e => h (Fin.ext e.symm)
    simp [h, this]

@[simp] theorem State.getV_setVThenFlag (s : State) (x r : Reg) (v f : Byte) :
    (s.setVThenFlag x v f).getV r = if r = VF then f else if r = x then v else s.getV r := by
  rw [State.setVThenFlag, State.getV_setV, State.getV_setV]

@[simp] theorem State.getV_loadRegs (s : State) (x r : Reg) :
    (s.loadRegs x).getV r = if r ≤ x then s.readMem (s.I.toNat + r.val) else s.getV r := by
  simp only [State.getV, State.loadRegs, Fin.getElem_fin, Vector.getElem_ofFn, Fin.le_def]

@[simp] theorem State.readMem_setV (s : State) (x : Reg) (v : Byte) (a : Nat) :
    (s.setV x v).readMem a = s.readMem a := rfl

/-- A timer goes down by at most 1 and stops at 0 (40_cycle.md R105). -/
theorem tickByte_toNat (t : Byte) : (tickByte t).toNat = t.toNat - 1 := by
  have h := t.isLt
  unfold tickByte
  split
  · rename_i h0
    simp [h0]
  · rename_i h0
    have : t.toNat ≠ 0 := fun e => h0 (BitVec.eq_of_toNat_eq e)
    rw [BitVec.toNat_sub]
    simp only [BitVec.toNat_ofNat]
    omega

theorem bool8_toNat (c : Bool) : (bool8 c).toNat = if c then 1 else 0 := by
  cases c <;> rfl

/-- `zext_16(NNN)` keeps the value (30_encoding.md R74). -/
@[simp] theorem addrOf_toNat (nnn : Imm12) : (addrOf nnn).toNat = nnn.toNat := by
  have h := nnn.isLt
  rw [addrOf, BitVec.toNat_setWidth]
  omega

@[simp] theorem State.wideV_toNat (s : State) (r : Reg) : (s.wideV r).toNat = (s.getV r).toNat := by
  have h := (s.getV r).isLt
  rw [State.wideV, BitVec.toNat_setWidth]
  omega

theorem glyphAddr_toNat (v : Byte) : (glyphAddr v).toNat = v.toNat * 5 := by
  have h := v.isLt
  rw [glyphAddr, BitVec.toNat_mul, BitVec.toNat_setWidth]
  simp only [BitVec.toNat_ofNat]
  omega

/-- The least pressed key, when there is one (45_timers_input_random.md R206). -/
theorem leastKeyFrom_some {keys : BitVec 16} {k fuel m : Nat} (h : leastKeyFrom keys k fuel = some m) :
    k ≤ m ∧ m < k + fuel ∧ keys.getLsbD m = true ∧ ∀ j, k ≤ j → j < m → keys.getLsbD j = false := by
  induction fuel generalizing k with
  | zero => simp [leastKeyFrom] at h
  | succ n ih =>
    rw [leastKeyFrom] at h
    split at h
    · rename_i hk
      obtain rfl : k = m := by simpa using h
      exact ⟨le_rfl, by omega, hk, fun j h1 h2 => by omega⟩
    · rename_i hk
      obtain ⟨h1, h2, h3, h4⟩ := ih h
      refine ⟨by omega, by omega, h3, fun j hj hjm => ?_⟩
      by_cases hjk : j = k
      · subst hjk
        simpa using hk
      · exact h4 j (by omega) hjm

theorem leastKeyFrom_none {keys : BitVec 16} {k fuel : Nat} (h : leastKeyFrom keys k fuel = none) (j : Nat)
    (hj : k ≤ j) (hj' : j < k + fuel) : keys.getLsbD j = false := by
  induction fuel generalizing k with
  | zero => omega
  | succ n ih =>
    rw [leastKeyFrom] at h
    split at h
    · simp at h
    · rename_i hk
      by_cases hjk : j = k
      · subst hjk
        simpa using hk
      · exact ih h (by omega) (by omega)

theorem State.leastKey_eq_some {s : State} {m : Nat} (h : s.leastKey = some m) :
    m < 16 ∧ s.key m = true ∧ ∀ j < m, s.key j = false := by
  obtain ⟨_, h2, h3, h4⟩ := leastKeyFrom_some h
  exact ⟨by omega, h3, fun j hj => h4 j (Nat.zero_le j) hj⟩

theorem State.leastKey_eq_none {s : State} (h : s.leastKey = none) (j : Nat) (hj : j < 16) : s.key j = false :=
  leastKeyFrom_none h j (Nat.zero_le j) (by omega)

end Sys2Proof.Machine
end

