-- ==== Sys2Proof/Laws/Display.lean ====
section
/-! SUPPORT. What a draw does to each cell (44_display.md R191, R192). -/

namespace Sys2Proof.Machine

/-- The cell of column px and row py. -/
theorem Display.cell_cellIndex (d : Display) {px py : Nat} (hx : px < 64) (hy : py < 32) :
    Display.cell d (cellIndex px py) = d[py].getLsbD px := by
  have h1 : (px + 64 * py) / 64 = py := by omega
  have h2 : (px + 64 * py) % 64 = px := by omega
  simp only [Display.cell, cellIndex, Config.displayWidth, h1, h2, hy, dif_pos]

/-- Every index below 2048 is the cell of one column and row, and beyond there is no cell. -/
theorem Display.cell_outside (d : Display) {j : Nat} (h : 2048 ≤ j) : Display.cell d j = false := by
  have : ¬ j / 64 < 32 := by omega
  simp only [Display.cell, Config.displayWidth, this, dif_neg, not_false_eq_true]

theorem Display.cell_clear (j : Nat) : Display.cell Display.clear j = false := by
  simp [Display.cell, Display.clear]

/-- Flipping one cell of the frame flips that cell and no other. -/
theorem Display.cell_flip (d : Display) {px py : Nat} (hx : px < 64) (hy : py < 32) (j : Nat) :
    Display.cell (Display.flip d px py) j = (Display.cell d j ^^ decide (j = cellIndex px py)) := by
  by_cases hj : j / 64 < 32
  · by_cases hr : j / 64 = py
    · have hm : j % 64 < 64 := Nat.mod_lt _ (by decide)
      have e : decide (px = j % 64) = decide (j = cellIndex px py) := by
        apply decide_eq_decide.2
        simp only [cellIndex, Config.displayWidth]
        omega
      subst hr
      simp only [Display.cell, Display.flip, Config.displayWidth, hy, hx, dif_pos, Vector.getElem_set, if_true,
        BitVec.getLsbD_xor, BitVec.getLsbD_twoPow, decide_true, Bool.true_and, e]
    · have e : decide (j = cellIndex px py) = false := by
        apply decide_eq_false
        simp only [cellIndex, Config.displayWidth]
        omega
      have hr' : ¬ py = j / 64 := fun h => hr h.symm
      simp only [Display.cell, Display.flip, Config.displayWidth, hy, hj, dif_pos, Vector.getElem_set, hr', if_false, e,
        Bool.xor_false]
  · have e : decide (j = cellIndex px py) = false := by
      apply decide_eq_false
      simp only [cellIndex, Config.displayWidth]
      omega
    rw [Display.cell_outside _ (by omega), Display.cell_outside _ (by omega), e]
    rfl

/-- Sprite pixel (column `px`, row `py` of the display) of one row byte drawn at column `xc`, row `yc`. -/
def rowPixel (xc yc : Nat) (row : Byte) (px py : Nat) : Bool :=
  decide (py = yc) && decide (xc ≤ px) && decide (px < xc + 8) && row.getLsbD (7 - (px - xc))

/-- Sprite pixel of a list of row bytes drawn downward from row `yc`. -/
def spritePixel (xc yc : Nat) (rows : List Byte) (px py : Nat) : Bool :=
  decide (yc ≤ py) && rowPixel xc py (rows.getD (py - yc) 0x00#8) px py

theorem Canvas.flip_cells (c : Canvas) (px py : Nat) {qx qy : Nat} (hx : qx < 64) (hy : qy < 32) :
    Display.cell (c.flip px py).cells (cellIndex qx qy) =
      (Display.cell c.cells (cellIndex qx qy) ^^ (decide (px = qx) && decide (py = qy))) := by
  unfold Canvas.flip
  split
  · rename_i h
    rw [Display.cell_flip _ h.1 h.2]
    congr 1
    rw [← Bool.decide_and, decide_eq_decide]
    simp only [cellIndex, Config.displayWidth] at *
    omega
  · rename_i h
    have : (decide (px = qx) && decide (py = qy)) = false := by
      rw [← Bool.decide_and, decide_eq_false_iff_not]
      simp only [Config.displayWidth, Config.displayHeight] at h
      omega
    rw [this, Bool.xor_false]

theorem Canvas.flip_hit (c : Canvas) (px py : Nat) :
    (c.flip px py).hit = (c.hit || (decide (px < 64 ∧ py < 32) && Display.cell c.cells (cellIndex px py))) := by
  unfold Canvas.flip
  by_cases h : px < 64 ∧ py < 32
  · rw [if_pos h]
    simp only [h, decide_true, Bool.true_and, and_self]
  · rw [if_neg h]
    simp only [h, decide_false, Bool.false_and, Bool.or_false]

/-- One step of the row loop: column `k` of the row. -/
def rowStep (xc py : Nat) (row : Byte) (c : Canvas) (k : Nat) : Canvas :=
  if row.getLsbD (7 - k) then c.flip (xc + k) py else c

theorem Canvas.drawRow_eq (c : Canvas) (xc py : Nat) (row : Byte) :
    c.drawRow xc py row = (List.range 8).foldl (rowStep xc py row) c := rfl

/-- The row loop after its first `n` columns. -/
theorem rowLoop_cells (c : Canvas) (xc py : Nat) (row : Byte) (n : Nat) {qx qy : Nat} (hx : qx < 64) (hy : qy < 32) :
    Display.cell ((List.range n).foldl (rowStep xc py row) c).cells (cellIndex qx qy) =
      (Display.cell c.cells (cellIndex qx qy) ^^
        (decide (qy = py) && decide (xc ≤ qx) && decide (qx < xc + n) && row.getLsbD (7 - (qx - xc)))) := by
  induction n with
  | zero =>
    by_cases h : xc ≤ qx
    · simp [show ¬ qx < xc by omega]
    · simp [h]
  | succ n ih =>
    rw [List.range_succ, List.foldl_append, List.foldl_cons, List.foldl_nil]
    generalize hc : (List.range n).foldl (rowStep xc py row) c = c' at ih
    unfold rowStep
    by_cases hq : qx = xc + n
    · subst hq
      have e : xc + n - xc = n := by omega
      split
      · rename_i hb
        rw [Canvas.flip_cells c' _ _ hx hy, ih]
        simp [e, hb, eq_comm]
      · rename_i hb
        rw [ih]
        simp [e, hb]
    · have e : decide (qx < xc + (n + 1)) = decide (qx < xc + n) := by
        rw [decide_eq_decide]
        omega
      have e' : decide (xc + n = qx) = false := by
        rw [decide_eq_false_iff_not]
        omega
      rw [e]
      split
      · rw [Canvas.flip_cells c' _ _ hx hy, ih, e', Bool.false_and, Bool.xor_false]
      · rw [ih]

/-- One row drawn flips exactly the cells under its set bits. -/
theorem Canvas.drawRow_cells (c : Canvas) (xc py : Nat) (row : Byte) {qx qy : Nat} (hx : qx < 64) (hy : qy < 32) :
    Display.cell (c.drawRow xc py row).cells (cellIndex qx qy) =
      (Display.cell c.cells (cellIndex qx qy) ^^ rowPixel xc py row qx qy) := by
  rw [Canvas.drawRow_eq, rowLoop_cells c xc py row 8 hx hy, rowPixel]

theorem rowLoop_hit (c : Canvas) (xc py : Nat) (row : Byte) (n : Nat) (hn : n ≤ 8) :
    ((List.range n).foldl (rowStep xc py row) c).hit = true ↔
      c.hit = true ∨ ∃ k < n, row.getLsbD (7 - k) = true ∧ xc + k < 64 ∧ py < 32 ∧
        Display.cell c.cells (cellIndex (xc + k) py) = true := by
  induction n with
  | zero => simp
  | succ n ih =>
    have ih := ih (by omega)
    rw [List.range_succ, List.foldl_append, List.foldl_cons, List.foldl_nil]
    have hcell : ∀ (hx : xc + n < 64) (hy : py < 32),
        Display.cell ((List.range n).foldl (rowStep xc py row) c).cells (cellIndex (xc + n) py) =
          Display.cell c.cells (cellIndex (xc + n) py) := by
      intro hx hy
      rw [rowLoop_cells c xc py row n hx hy]
      simp
    generalize (List.range n).foldl (rowStep xc py row) c = c' at ih hcell
    unfold rowStep
    constructor
    · intro h
      split at h
      · rename_i hb
        rw [Canvas.flip_hit, Bool.or_eq_true, Bool.and_eq_true, decide_eq_true_eq] at h
        rcases h with h | ⟨⟨hx, hy⟩, h⟩
        · rcases ih.1 h with h | ⟨k, hk, h⟩
          · exact .inl h
          · exact .inr ⟨k, by omega, h⟩
        · exact .inr ⟨n, by omega, hb, hx, hy, by rw [← hcell hx hy]; exact h⟩
      · rcases ih.1 h with h | ⟨k, hk, h⟩
        · exact .inl h
        · exact .inr ⟨k, by omega, h⟩
    · intro h
      have h' : c'.hit = true ∨ (row.getLsbD (7 - n) = true ∧ xc + n < 64 ∧ py < 32 ∧
          Display.cell c.cells (cellIndex (xc + n) py) = true) := by
        rcases h with h | ⟨k, hk, h⟩
        · exact .inl (ih.2 (.inl h))
        · by_cases hkn : k = n
          · subst hkn
            exact .inr h
          · exact .inl (ih.2 (.inr ⟨k, by omega, h⟩))
      split
      · rw [Canvas.flip_hit, Bool.or_eq_true, Bool.and_eq_true, decide_eq_true_eq]
        rcases h' with h' | ⟨_, hx, hy, h'⟩
        · exact .inl h'
        · exact .inr ⟨⟨hx, hy⟩, by rw [hcell hx hy]; exact h'⟩
      · rename_i hb
        rcases h' with h' | ⟨h', _⟩
        · exact h'
        · exact absurd h' hb

/-- One row collides exactly when a set bit falls on a lit cell of the frame. -/
theorem Canvas.drawRow_hit (c : Canvas) (xc py : Nat) (row : Byte) :
    (c.drawRow xc py row).hit = true ↔
      c.hit = true ∨ ∃ qx qy, qx < 64 ∧ qy < 32 ∧ rowPixel xc py row qx qy = true ∧
        Display.cell c.cells (cellIndex qx qy) = true := by
  rw [Canvas.drawRow_eq, rowLoop_hit c xc py row 8 le_rfl]
  refine or_congr Iff.rfl ⟨?_, ?_⟩
  · rintro ⟨k, hk, hb, hx, hy, h⟩
    refine ⟨xc + k, py, hx, hy, ?_, h⟩
    simp [rowPixel, hk, hb]
  · rintro ⟨qx, qy, hx, hy, hp, h⟩
    simp only [rowPixel, Bool.and_eq_true, decide_eq_true_eq] at hp
    obtain ⟨⟨⟨rfl, h1⟩, h2⟩, h3⟩ := hp
    have e : xc + (qx - xc) = qx := by omega
    exact ⟨qx - xc, by omega, h3, by omega, hy, by rw [e]; exact h⟩

theorem rowPixel_other (xc yc : Nat) (row : Byte) (px : Nat) {py : Nat} (h : py ≠ yc) :
    rowPixel xc yc row px py = false := by
  simp [rowPixel, h]

theorem spritePixel_nil (xc yc px py : Nat) : spritePixel xc yc [] px py = false := by
  simp [spritePixel, rowPixel]

/-- The first row of a sprite, then the rest one row lower. -/
theorem spritePixel_cons (xc yc : Nat) (row : Byte) (rows : List Byte) (px py : Nat) :
    spritePixel xc yc (row :: rows) px py = (rowPixel xc yc row px py ^^ spritePixel xc (yc + 1) rows px py) := by
  rcases Nat.lt_trichotomy py yc with h | h | h
  · simp [spritePixel, rowPixel_other xc yc row px (show py ≠ yc by omega), show ¬ yc ≤ py by omega,
      show ¬ yc + 1 ≤ py by omega]
  · subst h
    simp [spritePixel]
  · rw [rowPixel_other xc yc row px (show py ≠ yc by omega)]
    obtain ⟨d, hd⟩ : ∃ d, py - yc = d + 1 := ⟨py - yc - 1, by omega⟩
    have hd' : py - (yc + 1) = d := by omega
    simp [spritePixel, hd, hd', show yc ≤ py by omega, show yc + 1 ≤ py by omega]

/-- A draw flips exactly the cells under the sprite's set bits (44_display.md R191). -/
theorem Canvas.drawRows_cells (c : Canvas) (xc yc : Nat) (rows : List Byte) {qx qy : Nat} (hx : qx < 64)
    (hy : qy < 32) :
    Display.cell (c.drawRows xc yc rows).cells (cellIndex qx qy) =
      (Display.cell c.cells (cellIndex qx qy) ^^ spritePixel xc yc rows qx qy) := by
  induction rows generalizing c yc with
  | nil => rw [Canvas.drawRows, spritePixel_nil, Bool.xor_false]
  | cons row rows ih =>
    rw [Canvas.drawRows, ih, Canvas.drawRow_cells c xc yc row hx hy, spritePixel_cons, Bool.xor_assoc]

/-- A draw collides exactly when a set bit of the sprite falls on a lit cell of the frame (44_display.md R191). -/
theorem Canvas.drawRows_hit (c : Canvas) (xc yc : Nat) (rows : List Byte) :
    (c.drawRows xc yc rows).hit = true ↔
      c.hit = true ∨ ∃ qx qy, qx < 64 ∧ qy < 32 ∧ spritePixel xc yc rows qx qy = true ∧
        Display.cell c.cells (cellIndex qx qy) = true := by
  induction rows generalizing c yc with
  | nil =>
    simp [Canvas.drawRows, spritePixel_nil]
  | cons row rows ih =>
    rw [Canvas.drawRows, ih, Canvas.drawRow_hit, or_assoc]
    refine or_congr Iff.rfl ⟨?_, ?_⟩
    · rintro (⟨qx, qy, hx, hy, hp, h⟩ | ⟨qx, qy, hx, hy, hp, h⟩)
      · refine ⟨qx, qy, hx, hy, ?_, h⟩
        have hqy : qy = yc := by
          simp only [rowPixel, Bool.and_eq_true, decide_eq_true_eq] at hp
          exact hp.1.1.1
        rw [spritePixel_cons, hp, hqy]
        simp [spritePixel]
      · have hqy : yc + 1 ≤ qy := by
          simp only [spritePixel, Bool.and_eq_true, decide_eq_true_eq] at hp
          exact hp.1
        have hr := rowPixel_other xc yc row qx (show qy ≠ yc by omega)
        refine ⟨qx, qy, hx, hy, ?_, ?_⟩
        · rw [spritePixel_cons, hp, hr]
          rfl
        · rwa [Canvas.drawRow_cells c xc yc row hx hy, hr, Bool.xor_false] at h
    · rintro ⟨qx, qy, hx, hy, hp, h⟩
      rw [spritePixel_cons] at hp
      by_cases hr : rowPixel xc yc row qx qy = true
      · exact .inl ⟨qx, qy, hx, hy, hr, h⟩
      · have hr' : rowPixel xc yc row qx qy = false := by simpa using hr
        refine .inr ⟨qx, qy, hx, hy, by simpa [hr'] using hp, ?_⟩
        rw [Canvas.drawRow_cells c xc yc row hx hy, hr', Bool.xor_false]
        exact h

end Sys2Proof.Machine
end

