-- ==== Sys2Proof/Laws/Memory.lean ====
section
/-! SUPPORT. Memory: a read after a write, the canonical form, and that equal memories are equal lists. -/

namespace Sys2Proof.Machine

theorem resetByte_of_ge (a : Nat) (h : Config.memSize ≤ a) : resetByte a = 0x00#8 := by
  unfold resetByte
  split
  · rename_i h'
    simp only [Config.memSize, Config.fontSize] at *
    omega
  · rfl

theorem Memory.wfFrom_cons (lo a : Nat) (v : Byte) (m : Memory) :
    Memory.wfFrom lo ((a, v) :: m) = true ↔
      lo ≤ a ∧ a < Config.memSize ∧ v ≠ resetByte a ∧ Memory.wfFrom (a + 1) m = true := by
  simp [Memory.wfFrom, and_assoc]

theorem Memory.wfFrom_mono {lo lo' : Nat} {m : Memory} (hle : lo' ≤ lo) (h : Memory.wfFrom lo m = true) :
    Memory.wfFrom lo' m = true := by
  cases m with
  | nil => rfl
  | cons p m =>
    obtain ⟨a, v⟩ := p
    rw [wfFrom_cons] at *
    exact ⟨hle.trans h.1, h.2⟩

theorem Memory.read_below {lo a : Nat} {m : Memory} (h : Memory.wfFrom lo m = true) (ha : a < lo) :
    m.read a = resetByte a := by
  induction m generalizing lo with
  | nil => rfl
  | cons p m ih =>
    obtain ⟨b, v⟩ := p
    rw [wfFrom_cons] at h
    have hb : a ≠ b := by omega
    simp only [Memory.read, hb, if_false]
    exact ih h.2.2.2 (by omega)

theorem Memory.read_put {lo a : Nat} {v : Byte} {m : Memory} (h : Memory.wfFrom lo m = true) (b : Nat) :
    (Memory.put a v m).read b = if b = a then v else m.read b := by
  induction m generalizing lo with
  | nil =>
    by_cases hv : v = resetByte a
    · by_cases hb : b = a <;> simp [Memory.put, Memory.read, hv, hb]
    · by_cases hb : b = a <;> simp [Memory.put, Memory.read, hv, hb]
  | cons p m ih =>
    obtain ⟨c, u⟩ := p
    rw [wfFrom_cons] at h
    simp only [Memory.put]
    split
    · rename_i hac
      split
      · rename_i hv
        by_cases hb : b = a
        · have hbc : a ≠ c := by omega
          simp [Memory.read, hb, hbc, hv, Memory.read_below h.2.2.2 (show a < c + 1 by omega)]
        · simp [hb]
      · by_cases hb : b = a <;> simp [Memory.read, hb]
    · split
      · rename_i hac
        subst hac
        split
        · rename_i hv
          by_cases hb : b = a
          · simp [hb, hv, Memory.read_below h.2.2.2 (show a < a + 1 by omega)]
          · simp [Memory.read, hb]
        · by_cases hb : b = a <;> simp [Memory.read, hb]
      · rename_i hac
        by_cases hbc : b = c
        · subst hbc
          simp [Memory.read, show b ≠ a by omega]
        · simp only [Memory.read, hbc, if_false]
          exact ih h.2.2.2

/-- A write leaves every other address alone, whatever the list. -/
theorem Memory.read_put_other {a b : Nat} (v : Byte) (m : Memory) (h : b ≠ a) :
    (Memory.put a v m).read b = m.read b := by
  induction m with
  | nil =>
    simp only [Memory.put]
    split <;> simp [Memory.read, h]
  | cons p m ih =>
    obtain ⟨c, u⟩ := p
    simp only [Memory.put]
    split
    · split <;> simp [Memory.read, h]
    · split
      · rename_i hac
        subst hac
        split <;> simp [Memory.read, h]
      · simp [Memory.read, ih]

theorem Memory.wfFrom_put {lo a : Nat} {v : Byte} {m : Memory} (h : Memory.wfFrom lo m = true) (hlo : lo ≤ a)
    (ha : a < Config.memSize) : Memory.wfFrom lo (Memory.put a v m) = true := by
  induction m generalizing lo with
  | nil =>
    unfold Memory.put
    split
    · rfl
    · rw [wfFrom_cons]
      exact ⟨hlo, ha, ‹_›, rfl⟩
  | cons p m ih =>
    obtain ⟨c, u⟩ := p
    have h' := h
    rw [wfFrom_cons] at h
    simp only [Memory.put]
    split
    · split
      · exact h'
      · rw [wfFrom_cons, wfFrom_cons]
        exact ⟨hlo, ha, ‹_›, by omega, h.2⟩
    · split
      · rename_i hac
        subst hac
        split
        · exact Memory.wfFrom_mono (by omega) h.2.2.2
        · rw [wfFrom_cons]
          exact ⟨hlo, ha, ‹_›, h.2.2.2⟩
      · rw [wfFrom_cons]
        exact ⟨h.1, h.2.1, h.2.2.1, ih h.2.2.2 (by omega)⟩

theorem Memory.wf_nil : Memory.wf [] = true := rfl

theorem Memory.read_nil (a : Nat) : Memory.read [] a = resetByte a := rfl

/-- Nothing lies above 0xFFF in a canonical memory. -/
theorem Memory.read_outside {m : Memory} (h : m.wf = true) {a : Nat} (ha : Config.memSize ≤ a) :
    m.read a = 0x00#8 := by
  have : ∀ (m : Memory) (lo : Nat), Memory.wfFrom lo m = true → m.read a = resetByte a := by
    intro m
    induction m with
    | nil => intro _ _; rfl
    | cons p m ih =>
      obtain ⟨b, v⟩ := p
      intro lo h
      rw [wfFrom_cons] at h
      simp only [Memory.read, show a ≠ b by omega, if_false]
      exact ih _ h.2.2.2
  rw [this m 0 h, resetByte_of_ge a ha]

theorem Memory.wf_write {m : Memory} (h : m.wf = true) (a : Nat) (v : Byte) : (m.write a v).wf = true := by
  unfold Memory.write
  split
  · exact Memory.wfFrom_put h (Nat.zero_le a) ‹_›
  · exact h

/-- A read after a write: the written byte there, the old byte everywhere else (20_memory.md R59). -/
theorem Memory.read_write {m : Memory} (h : m.wf = true) {a : Nat} (ha : a < Config.memSize) (v : Byte) (b : Nat) :
    (m.write a v).read b = if b = a then v else m.read b := by
  rw [Memory.write, if_pos ha]
  exact Memory.read_put h b

theorem Memory.wf_writeList {m : Memory} (h : m.wf = true) (a : Nat) (vs : List Byte) :
    (m.writeList a vs).wf = true := by
  induction vs generalizing m a with
  | nil => exact h
  | cons v vs ih => exact ih (Memory.wf_write h a v) (a + 1)

/-- A read after writing consecutive bytes: the k-th byte at `a + k`, the old byte everywhere else. -/
theorem Memory.read_writeList {m : Memory} (h : m.wf = true) {a : Nat} (vs : List Byte)
    (ha : a + vs.length ≤ Config.memSize) (b : Nat) :
    (m.writeList a vs).read b = if h : a ≤ b ∧ b < a + vs.length then vs[b - a]'(by omega) else m.read b := by
  induction vs generalizing m a with
  | nil =>
    have : ¬ (a ≤ b ∧ b < a + ([] : List Byte).length) := by simp
    rw [dif_neg this]
    rfl
  | cons v vs ih =>
    simp only [List.length_cons] at ha
    rw [Memory.writeList, ih (Memory.wf_write h a v) (by omega), Memory.read_write h (by omega)]
    by_cases hb : b = a
    · subst hb
      simp
    · by_cases hr : a + 1 ≤ b ∧ b < a + 1 + vs.length
      · have hr' : a ≤ b ∧ b < a + (v :: vs).length := by simp only [List.length_cons]; omega
        rw [dif_pos hr, dif_pos hr', List.getElem_cons, dif_neg (by omega)]
        congr 1
      · have hr' : ¬ (a ≤ b ∧ b < a + (v :: vs).length) := by simp only [List.length_cons]; omega
        rw [dif_neg hr, dif_neg hr', if_neg hb]

/-- Consecutive writes leave every address outside them alone, whatever the list. -/
theorem Memory.read_writeList_other {a b : Nat} (vs : List Byte) (m : Memory) (h : ¬ (a ≤ b ∧ b < a + vs.length)) :
    (m.writeList a vs).read b = m.read b := by
  induction vs generalizing m a with
  | nil => rfl
  | cons v vs ih =>
    simp only [List.length_cons] at h
    rw [Memory.writeList, ih _ (by omega), Memory.write]
    split
    · exact Memory.read_put_other v m (by omega)
    · rfl

/-- Two canonical memories with the same bytes are the same list. -/
theorem Memory.ext_of_read {m m' : Memory} (h : m.wf = true) (h' : m'.wf = true) (hr : ∀ a, m.read a = m'.read a) :
    m = m' := by
  have key : ∀ (m m' : Memory) (lo : Nat), Memory.wfFrom lo m = true → Memory.wfFrom lo m' = true →
      (∀ a, m.read a = m'.read a) → m = m' := by
    intro m
    induction m with
    | nil =>
      intro m' lo _ h' hr
      cases m' with
      | nil => rfl
      | cons p m' =>
        obtain ⟨b, v⟩ := p
        rw [wfFrom_cons] at h'
        have := hr b
        simp only [Memory.read, if_true] at this
        exact absurd this.symm h'.2.2.1
    | cons p m ih =>
      obtain ⟨b, v⟩ := p
      intro m' lo h h' hr
      cases m' with
      | nil =>
        rw [wfFrom_cons] at h
        have := hr b
        simp only [Memory.read, if_true] at this
        exact absurd this h.2.2.1
      | cons p' m' =>
        obtain ⟨b', v'⟩ := p'
        rw [wfFrom_cons] at h h'
        have hb : b = b' := by
          rcases Nat.lt_trichotomy b b' with hlt | heq | hgt
          · have := hr b
            simp only [Memory.read, if_true, show b ≠ b' by omega, if_false,
              Memory.read_below h'.2.2.2 (show b < b' + 1 by omega)] at this
            exact absurd this h.2.2.1
          · exact heq
          · have := hr b'
            simp only [Memory.read, if_true, show b' ≠ b by omega, if_false,
              Memory.read_below h.2.2.2 (show b' < b + 1 by omega)] at this
            exact absurd this.symm h'.2.2.1
        subst hb
        have hv : v = v' := by simpa [Memory.read] using hr b
        subst hv
        congr 1
        refine ih m' (b + 1) h.2.2.2 h'.2.2.2 fun a => ?_
        by_cases ha : a = b
        · subst ha
          rw [Memory.read_below h.2.2.2 (by omega), Memory.read_below h'.2.2.2 (by omega)]
        · simpa [Memory.read, ha] using hr a
  exact key m m' 0 h h' hr

end Sys2Proof.Machine
end

