-- ==== Sys2Proof/Laws/Frame.lean ====
section
/-! SUPPORT. Frames: what each update leaves unchanged, and how frames combine. -/

namespace Sys2Proof.Machine

theorem Unchanged.refl (s : State) (c : Component) : Unchanged s s c := by
  cases c <;> rfl

theorem Unchanged.trans {s t u : State} {c : Component} (h : Unchanged s t c) (h' : Unchanged t u c) :
    Unchanged s u c := by
  cases c <;> exact Eq.trans h' h

theorem ChangesOnly.refl (s : State) (may : Component → Prop) : ChangesOnly s s may :=
  fun c _ => Unchanged.refl s c

theorem ChangesOnly.trans {s t u : State} {may : Component → Prop} (h : ChangesOnly s t may)
    (h' : ChangesOnly t u may) : ChangesOnly s u may :=
  fun c hc => (h c hc).trans (h' c hc)

theorem ChangesOnly.mono {s t : State} {may may' : Component → Prop} (h : ChangesOnly s t may)
    (hm : ∀ c, may c → may' c) : ChangesOnly s t may' :=
  fun c hc => h c fun hm' => hc (hm c hm')

theorem changesOnly_setV (s : State) (x : Reg) (v : Byte) : ChangesOnly s (s.setV x v) (fun c => c = .V x) := by
  intro c hc
  cases c with
  | V r =>
    have : r ≠ x := fun e => hc (by rw [e])
    simp [Unchanged, this]
  | _ => rfl

theorem changesOnly_setVThenFlag (s : State) (x : Reg) (v f : Byte) :
    ChangesOnly s (s.setVThenFlag x v f) (fun c => c = .V x ∨ c = .V VF) :=
  ((changesOnly_setV s x v).mono fun _ => .inl).trans ((changesOnly_setV (s.setV x v) VF f).mono fun _ => .inr)

theorem changesOnly_setI (s : State) (a : Word) : ChangesOnly s (s.setI a) (fun c => c = .I) := by
  intro c hc
  cases c <;> first | rfl | exact absurd rfl hc

theorem changesOnly_setPc (s : State) (a : Word) : ChangesOnly s (s.setPc a) (fun c => c = .pc) := by
  intro c hc
  cases c <;> first | rfl | exact absurd rfl hc

theorem changesOnly_skipIf (s : State) (c : Bool) : ChangesOnly s (s.skipIf c) (fun k => k = .pc) := by
  cases c
  · exact ChangesOnly.refl s _
  · exact changesOnly_setPc s _

theorem changesOnly_setDT (s : State) (v : Byte) : ChangesOnly s (s.setDT v) (fun c => c = .DT) := by
  intro c hc
  cases c <;> first | rfl | exact absurd rfl hc

theorem changesOnly_setST (s : State) (v : Byte) : ChangesOnly s (s.setST v) (fun c => c = .ST) := by
  intro c hc
  cases c <;> first | rfl | exact absurd rfl hc

theorem changesOnly_tick (s : State) : ChangesOnly s s.tick (fun c => c = .DT ∨ c = .ST) :=
  ((changesOnly_setDT s _).mono fun _ => .inl).trans ((changesOnly_setST _ _).mono fun _ => .inr)

theorem changesOnly_setKeys (s : State) (k : BitVec 16) : ChangesOnly s (s.setKeys k) (fun c => c = .keys) := by
  intro c hc
  cases c <;> first | rfl | exact absurd rfl hc

theorem changesOnly_setDirty (s : State) (d : Bool) : ChangesOnly s (s.setDirty d) (fun c => c = .dirty) := by
  intro c hc
  cases c <;> first | rfl | exact absurd rfl hc

theorem changesOnly_setStack (s : State) (st : Vector Word 16) (sp : BitVec 5) :
    ChangesOnly s (s.setStack st sp) (fun c => (∃ k : Fin 16, st[k] ≠ s.stack[k] ∧ c = .stack k) ∨ c = .SP) := by
  intro c hc
  cases c with
  | stack k =>
    by_contra h
    exact hc (.inl ⟨k, h, rfl⟩)
  | SP => exact absurd (.inr rfl) hc
  | _ => rfl

/-- A push changes the entry at SP and SP (41_control.md R123). -/
theorem changesOnly_push (s : State) (a : Word) (h : s.SP.toNat < 16) :
    ChangesOnly s (s.setStack (s.stack.set s.SP.toNat a) (s.SP + 1#5))
      (fun c => (∃ k : Fin 16, k.val = s.SP.toNat ∧ c = .stack k) ∨ c = .SP) := by
  refine (changesOnly_setStack s _ _).mono ?_
  rintro c (⟨k, hk, rfl⟩ | rfl)
  · refine .inl ⟨k, ?_, rfl⟩
    by_contra hne
    exact hk (Vector.getElem_set_ne _ _ (Ne.symm hne))
  · exact .inr rfl

theorem changesOnly_setDisp (s : State) (d : Display) :
    ChangesOnly s (s.setDisp d) (fun c => (∃ j, c = .cell j) ∨ c = .dirty) := by
  intro c hc
  cases c with
  | cell j => exact absurd (.inl ⟨j, rfl⟩) hc
  | dirty => exact absurd (.inr rfl) hc
  | _ => rfl

theorem changesOnly_takeFault (s : State) (c : FaultCode) (n : Nat) : ChangesOnly s (s.takeFault c n) InLatch := by
  intro k hk
  cases k with
  | FAULT => exact absurd (.inl rfl) hk
  | FAULT_PC => exact absurd (.inr (.inl rfl)) hk
  | FAULT_INFO => exact absurd (.inr (.inr rfl)) hk
  | _ => rfl

theorem changesOnly_useRnd (s : State) : ChangesOnly s s.useRnd (fun c => c = .rndIn ∨ c = .draws) := by
  intro c hc
  unfold State.useRnd
  cases c with
  | rndIn => exact absurd (.inl rfl) hc
  | draws => exact absurd (.inr rfl) hc
  | _ => split <;> rfl

theorem changesOnly_setRndIn (s : State) (b : Option Byte) : ChangesOnly s (s.setRndIn b) (fun c => c = .rndIn) := by
  intro c hc
  cases c <;> first | rfl | exact absurd rfl hc

theorem changesOnly_loadRegs (s : State) (x : Reg) :
    ChangesOnly s (s.loadRegs x) (fun c => ∃ k : Reg, k ≤ x ∧ c = .V k) := by
  intro c hc
  cases c with
  | V r =>
    have : ¬ r ≤ x := fun h => hc ⟨r, h, rfl⟩
    simp [Unchanged, this]
  | _ => simp only [Unchanged, State.readMem, State.cell, State.loadRegs_mem, State.loadRegs_I, State.loadRegs_pc,
      State.loadRegs_stack, State.loadRegs_SP, State.loadRegs_DT, State.loadRegs_ST, State.loadRegs_keys,
      State.loadRegs_disp, State.loadRegs_dirty, State.loadRegs_FAULT, State.loadRegs_FAULT_PC,
      State.loadRegs_FAULT_INFO, State.loadRegs_rndIn, State.loadRegs_draws]

/-- Storing consecutive bytes changes no byte outside them, and nothing else. -/
theorem changesOnly_writeBytes (s : State) (a : Nat) (vs : List Byte) :
    ChangesOnly s (s.writeBytes a vs) (fun c => ∃ b, a ≤ b ∧ b < a + vs.length ∧ c = .mem b) := by
  intro c hc
  cases c with
  | mem b =>
    have hb : ¬ (a ≤ b ∧ b < a + vs.length) := fun hb => hc ⟨b, hb.1, hb.2, rfl⟩
    simp only [Unchanged, State.readMem, State.writeBytes_mem]
    exact Memory.read_writeList_other vs s.mem hb
  | _ => rfl

/-- The bytes that `writeBytes` stores. -/
theorem readMem_writeBytes {s : State} (h : s.mem.wf = true) (a : Nat) (vs : List Byte)
    (ha : a + vs.length ≤ Config.memSize) {k : Nat} (hk : k < vs.length) :
    (s.writeBytes a vs).readMem (a + k) = vs[k] := by
  simp only [State.readMem, State.writeBytes_mem]
  rw [Memory.read_writeList h vs ha, dif_pos ⟨by omega, by omega⟩]
  congr 1
  omega

end Sys2Proof.Machine
end

