-- ==== Sys2Proof/Laws/Ops.lean ====
section
/-! SUPPORT. What each shared operation can do, said once: raising, checking a range, pushing, popping, and the meanings
that branch. -/

namespace Sys2Proof.Machine

@[simp] theorem State.undoFetch_advance (s : State) : s.advance.undoFetch = s := by
  simp [State.undoFetch, State.advance, State.setPc]

/-- `raise` inside execute is the fault entry at the start of the cycle (60_exceptions.md R222). -/
theorem State.raise_spec (s : State) (c : FaultCode) (n : Nat) :
    ∃ t, s.raise c n = .next t ∧ RaisedFrom s t c n := by
  refine ⟨_, rfl, rfl, rfl, rfl, rfl, ?_⟩
  exact ((changesOnly_setPc s _).mono fun _ => .inl).trans ((changesOnly_takeFault _ c n).mono fun _ => .inr)

theorem State.raise_advance (s : State) (c : FaultCode) (n : Nat) :
    s.advance.raise c n = .next (s.takeFault c n) := by
  rw [State.raise, State.undoFetch_advance]

/-- CheckRange faults past 0xFFF and otherwise goes on (43_index_memory.md R170). -/
theorem State.checkRange_of_le {s : State} {lo hi : Nat} (k : Result) (h : hi ≤ 0xFFF) : s.checkRange lo hi k = k :=
  if_neg (by simp only [Config.lastAddr]; omega)

theorem State.checkRange_of_gt {s : State} {lo hi : Nat} (k : Result) (h : hi > 0xFFF) :
    s.checkRange lo hi k = s.raise .dataRange (max lo 0x1000) :=
  if_pos h

/-- The push, below 16 entries (41_control.md R123). -/
theorem State.push_of_lt {s : State} (a : Word) (h : s.SP.toNat < 16) :
    s.push a = some (s.setStack (s.stack.set s.SP.toNat a) (s.SP + 1#5)) :=
  dif_pos h

theorem State.push_of_ge {s : State} (a : Word) (h : 16 ≤ s.SP.toNat) : s.push a = none :=
  dif_neg (by omega)

/-- The pop, with 1 to 16 entries (41_control.md R121). -/
theorem State.pop_of_le {s : State} (h : s.SP.toNat - 1 < 16) :
    s.pop = some (s.stack[s.SP.toNat - 1], s.setStack s.stack (s.SP - 1#5)) :=
  dif_pos h

theorem State.pop_of_gt {s : State} (h : 16 < s.SP.toNat) : s.pop = none :=
  dif_neg (by omega)

theorem sp_eq_iff (a b : BitVec 5) : a = b ↔ a.toNat = b.toNat := BitVec.toNat_inj.symm

/-- RET: underflow, pop, or the model's stop. -/
theorem execRet_cases (s : State) :
    (s.SP.toNat = 0 ∧ execRet s = s.raise .stackUnderflow 0) ∨
    (∃ h : s.SP.toNat - 1 < 16, 0 < s.SP.toNat ∧
      execRet s = .next ((s.setStack s.stack (s.SP - 1#5)).setPc s.stack[s.SP.toNat - 1])) ∨
    (16 < s.SP.toNat ∧ execRet s = .fault .stackPointerOutOfRange) := by
  have h0 : s.SP = 0#5 ↔ s.SP.toNat = 0 := sp_eq_iff _ _
  by_cases h : s.SP.toNat = 0
  · exact .inl ⟨h, if_pos (h0.2 h)⟩
  · by_cases h' : s.SP.toNat - 1 < 16
    · refine .inr (.inl ⟨h', by omega, ?_⟩)
      rw [execRet, if_neg (fun e => h (h0.1 e)), State.pop_of_le h']
    · refine .inr (.inr ⟨by omega, ?_⟩)
      rw [execRet, if_neg (fun e => h (h0.1 e)), State.pop_of_gt (by omega)]

/-- CALL: push, overflow, or the model's stop. -/
theorem execCall_cases (nnn : Imm12) (s : State) :
    (∃ h : s.SP.toNat < 16,
      execCall nnn s = .next ((s.setStack (s.stack.set s.SP.toNat s.pc) (s.SP + 1#5)).setPc (addrOf nnn))) ∨
    (s.SP.toNat = 16 ∧ execCall nnn s = s.raise .stackOverflow nnn.toNat) ∨
    (16 < s.SP.toNat ∧ execCall nnn s = .fault .stackPointerOutOfRange) := by
  have h0 : s.SP = 16#5 ↔ s.SP.toNat = 16 := sp_eq_iff _ _
  by_cases h : s.SP.toNat < 16
  · refine .inl ⟨h, ?_⟩
    rw [execCall, if_neg (fun e => by have := h0.1 e; omega), State.push_of_lt s.pc h]
  · by_cases h' : s.SP.toNat = 16
    · exact .inr (.inl ⟨h', if_pos (h0.2 h')⟩)
    · refine .inr (.inr ⟨by omega, ?_⟩)
      rw [execCall, if_neg (fun e => h' (h0.1 e)), State.push_of_ge s.pc (by omega)]

/-- LD B: store, or DATA_RANGE. -/
theorem execLdB_cases (x : Reg) (s : State) :
    (s.I.toNat + 2 ≤ 0xFFF ∧ execLdB x s = .next (s.writeBytes s.I.toNat (bcdDigits (s.getV x)))) ∨
    (s.I.toNat + 2 > 0xFFF ∧ execLdB x s = s.raise .dataRange (max s.I.toNat 0x1000)) := by
  by_cases h : s.I.toNat + 2 ≤ 0xFFF
  · exact .inl ⟨h, State.checkRange_of_le _ h⟩
  · exact .inr ⟨by omega, State.checkRange_of_gt _ (by omega)⟩

/-- LD [I], Vx: store, or DATA_RANGE. -/
theorem execDump_cases (x : Reg) (s : State) :
    (s.I.toNat + x.val ≤ 0xFFF ∧
      execDump x s = .next ((s.writeBytes s.I.toNat (s.regsUpTo x)).bumpI x)) ∨
    (s.I.toNat + x.val > 0xFFF ∧ execDump x s = s.raise .dataRange (max s.I.toNat 0x1000)) := by
  by_cases h : s.I.toNat + x.val ≤ 0xFFF
  · exact .inl ⟨h, State.checkRange_of_le _ h⟩
  · exact .inr ⟨by omega, State.checkRange_of_gt _ (by omega)⟩

/-- LD Vx, [I]: load, or DATA_RANGE. -/
theorem execLoad_cases (x : Reg) (s : State) :
    (s.I.toNat + x.val ≤ 0xFFF ∧ execLoad x s = .next ((s.loadRegs x).bumpI x)) ∨
    (s.I.toNat + x.val > 0xFFF ∧ execLoad x s = s.raise .dataRange (max s.I.toNat 0x1000)) := by
  by_cases h : s.I.toNat + x.val ≤ 0xFFF
  · exact .inl ⟨h, State.checkRange_of_le _ h⟩
  · exact .inr ⟨by omega, State.checkRange_of_gt _ (by omega)⟩

/-- DRW: draw, or DATA_RANGE. -/
theorem execDrw_cases (x y : Reg) (n : Nibble) (s : State) :
    ((n.toNat = 0 ∨ s.I.toNat + n.toNat - 1 ≤ 0xFFF) ∧ execDrw x y n s = .next (s.draw x y n)) ∨
    ((n.toNat > 0 ∧ s.I.toNat + n.toNat - 1 > 0xFFF) ∧
      execDrw x y n s = s.raise .dataRange (max s.I.toNat 0x1000)) := by
  have h0 : n = 0x0#4 ↔ n.toNat = 0 := BitVec.toNat_inj.symm
  by_cases h : n.toNat = 0
  · exact .inl ⟨.inl h, if_pos (h0.2 h)⟩
  · have hn : ¬ n = 0x0#4 := fun e => h (h0.1 e)
    by_cases h' : s.I.toNat + n.toNat - 1 ≤ 0xFFF
    · exact .inl ⟨.inr h', by rw [execDrw, if_neg hn, State.checkRange_of_le _ h']⟩
    · exact .inr ⟨⟨by omega, by omega⟩, by rw [execDrw, if_neg hn, State.checkRange_of_gt _ (by omega)]⟩

/-- A key index in range is used, one above 0xF is KEY_RANGE (60_exceptions.md R228). -/
theorem State.withKeyIndex_cases (s : State) (x : Reg) (k : Nat → Result) :
    ((s.getV x).toNat ≤ 0x0F ∧ s.withKeyIndex x k = k (s.getV x).toNat) ∨
    ((s.getV x).toNat > 0x0F ∧ s.withKeyIndex x k = s.raise .keyRange (s.getV x).toNat) := by
  by_cases h : (s.getV x).toNat ≤ 0x0F
  · exact .inl ⟨h, if_neg (by omega)⟩
  · exact .inr ⟨by omega, if_pos (by omega)⟩

/-- SKP: a skip, or KEY_RANGE. -/
theorem execSkp_cases (x : Reg) (s : State) :
    ((s.getV x).toNat ≤ 0x0F ∧ execSkp x s = .next (s.skipIf (s.key (s.getV x).toNat))) ∨
    ((s.getV x).toNat > 0x0F ∧ execSkp x s = s.raise .keyRange (s.getV x).toNat) :=
  s.withKeyIndex_cases x _

/-- SKNP: a skip, or KEY_RANGE. -/
theorem execSknp_cases (x : Reg) (s : State) :
    ((s.getV x).toNat ≤ 0x0F ∧ execSknp x s = .next (s.skipIf (!s.key (s.getV x).toNat))) ∨
    ((s.getV x).toNat > 0x0F ∧ execSknp x s = s.raise .keyRange (s.getV x).toNat) :=
  s.withKeyIndex_cases x _

/-- LD Vx, K: the least pressed key, or back to the word itself. -/
theorem execLdVxK_cases (x : Reg) (s : State) :
    (∃ k, s.leastKey = some k ∧ execLdVxK x s = .next (s.setV x (BitVec.ofNat 8 k))) ∨
    (s.leastKey = none ∧ execLdVxK x s = .next s.undoFetch) := by
  unfold execLdVxK
  cases h : s.leastKey with
  | some k => exact .inl ⟨k, rfl, rfl⟩
  | none => exact .inr ⟨rfl, rfl⟩

end Sys2Proof.Machine
end

