-- ==== Sys2Proof/Laws/Cycle.lean ====
section
/-! SUPPORT. Everything a cycle and a step can do (40_cycle.md R108). -/

namespace Sys2Proof.Machine

theorem State.fetchable_eq_true {s : State} : s.fetchable = true ↔ s.pc.toNat + 1 ≤ 0xFFF := by
  simp only [State.fetchable, decide_eq_true_eq]

/-- The fetch advance of a cycle that could fetch does not wrap (R101). -/
theorem State.advance_pc_toNat {s : State} (h : s.pc.toNat + 1 ≤ 0xFFF) : s.advance.pc.toNat = s.pc.toNat + 2 := by
  rw [State.advance_pc, BitVec.toNat_add]
  simp only [BitVec.toNat_ofNat]
  omega

theorem cycle_latched {s : State} (h : s.FAULT ≠ .none) : cycle s = .next (quiet s) := if_pos h

theorem cycle_unfetchable {s : State} (h : s.FAULT = .none) (hp : s.pc.toNat + 1 > 0xFFF) :
    cycle s = .next (quiet (s.takeFault .fetchRange (max s.pc.toNat 0x1000))) := by
  have hf : s.fetchable = false := by
    simp only [State.fetchable, decide_eq_false_iff_not, Config.lastAddr]
    omega
  rw [cycle, if_neg (fun e => e h), if_pos hf]
  rfl

theorem cycle_decoded {s : State} (h : s.FAULT = .none) (hp : s.pc.toNat + 1 ≤ 0xFFF) {i : Instr}
    (hd : decode s.fetchWord = .ok i) : cycle s = execute i s.advance := by
  have hf := State.fetchable_eq_true.2 hp
  rw [cycle, if_neg (fun e => e h), if_neg (by rw [hf]; decide), hd]

theorem cycle_unrecognized {s : State} (h : s.FAULT = .none) (hp : s.pc.toNat + 1 ≤ 0xFFF) {r : Reject}
    (hd : decode s.fetchWord = .error r) : cycle s = .next (completed s.advance false) := by
  have hf := State.fetchable_eq_true.2 hp
  rw [cycle, if_neg (fun e => e h), if_neg (by rw [hf]; decide), hd]

/-- A cycle that answers: latched, unfetchable, unrecognized, or a form that executed. -/
theorem cycle_next_cases {s : State} {p : State × CycleResult} (h : cycle s = .next p) :
    (s.FAULT ≠ .none ∧ p = quiet s) ∨
    (s.FAULT = .none ∧ s.pc.toNat + 1 > 0xFFF ∧
      p = quiet (s.takeFault .fetchRange (max s.pc.toNat 0x1000))) ∨
    (s.FAULT = .none ∧ s.pc.toNat + 1 ≤ 0xFFF ∧ (∃ r, decode s.fetchWord = .error r) ∧
      p = completed s.advance false) ∨
    (s.FAULT = .none ∧ s.pc.toNat + 1 ≤ 0xFFF ∧ ∃ i t, decode s.fetchWord = .ok i ∧
      exec i s.advance = .next t ∧ p = finish i s.advance t) := by
  by_cases hl : s.FAULT = .none
  · by_cases hp : s.pc.toNat + 1 ≤ 0xFFF
    · cases hd : decode s.fetchWord with
      | error r =>
        rw [cycle_unrecognized hl hp hd] at h
        exact .inr (.inr (.inl ⟨hl, hp, ⟨r, rfl⟩, by injection h with h; exact h.symm⟩))
      | ok i =>
        rw [cycle_decoded hl hp hd, execute] at h
        cases he : exec i s.advance with
        | next t =>
          rw [he] at h
          exact .inr (.inr (.inr ⟨hl, hp, i, t, rfl, he, by injection h with h; exact h.symm⟩))
        | fault f => rw [he] at h; cases h
        | refused r => rw [he] at h; cases h
    · rw [cycle_unfetchable hl (by omega)] at h
      exact .inr (.inl ⟨hl, by omega, by injection h with h; exact h.symm⟩)
  · rw [cycle_latched hl] at h
    exact .inl ⟨hl, by injection h with h; exact h.symm⟩

/-- A step answers the state of its cycle. -/
theorem step_next_iff {s t : State} : step s = .next t ↔ ∃ r, cycle s = .next (t, r) := by
  unfold step stateAfter
  constructor
  · intro h
    split at h
    · rename_i p hp
      injection h with h
      exact ⟨p.2, by rw [hp, ← h]⟩
    · cases h
    · cases h
  · rintro ⟨r, h⟩
    rw [h]

/-- How the cycle of a form that executed ends: it faulted, it waits, or it completed (R103). -/
theorem finish_cases (i : Instr) (s t : State) :
    (t.FAULT ≠ .none ∧ finish i s t = quiet t) ∨
    (t.FAULT = .none ∧ waits i s = true ∧ finish i s t = quiet t) ∨
    (t.FAULT = .none ∧ waits i s = false ∧ finish i s t = completed t (changesDisplay i)) := by
  unfold finish
  by_cases h : t.FAULT = .none
  · cases hw : waits i s with
    | true => exact .inr (.inl ⟨h, rfl, by rw [if_neg (fun e => e h), if_pos rfl]⟩)
    | false => exact .inr (.inr ⟨h, rfl, by rw [if_neg (fun e => e h), if_neg Bool.false_ne_true]⟩)
  · exact .inl ⟨h, if_pos h⟩

/-- Waiting is LD Vx, K with no key pressed, and depends on nothing but the keys. -/
theorem waits_eq_true {i : Instr} {s : State} : waits i s = true ↔ (∃ x, i = .ldVxK x) ∧ s.leastKey = none := by
  cases i <;> simp [waits]

theorem waits_advance (i : Instr) (s : State) : waits i s.advance = waits i s := by
  cases i <;> rfl

theorem changesDisplay_eq_true {i : Instr} : changesDisplay i = true ↔ i = .cls ∨ ∃ x y n, i = .drw x y n := by
  cases i <;> simp [changesDisplay]

end Sys2Proof.Machine
end

