-- ==== Sys2Proof/Laws/Encoding.lean ====
section
/-! SUPPORT. The word each instruction format makes, its fields read back from it, a word rebuilt from its fields
(30_encoding.md R72, R73), and the word of each instruction as its format makes it. -/

namespace Sys2Proof

theorem regOf_nibbleOf (r : Reg) : regOf (nibbleOf r) = r := rfl

theorem nibbleOf_regOf (n : Nibble) : nibbleOf (regOf n) = n := rfl

/-! ### The formats (R73) -/

/-- Format F-NNN. -/
def wordNNN (op : Nibble) (nnn : Imm12) : Word := op.setWidth 16 <<< 12 ||| nnn.setWidth 16

/-- Format F-XNN. Format F-X is F-XNN with a fixed low byte. -/
def wordXNN (op : Nibble) (x : Reg) (nn : Byte) : Word :=
  op.setWidth 16 <<< 12 ||| (nibbleOf x).setWidth 16 <<< 8 ||| nn.setWidth 16

/-- Format F-XYN. Format F-XY is F-XYN with a fixed low nibble. -/
def wordXYN (op : Nibble) (x y : Reg) (n : Nibble) : Word :=
  op.setWidth 16 <<< 12 ||| (nibbleOf x).setWidth 16 <<< 8 ||| (nibbleOf y).setWidth 16 <<< 4 ||| n.setWidth 16

/-! ### F-NNN -/

@[simp] theorem opOf_wordNNN (op : Nibble) (nnn : Imm12) : opOf (wordNNN op nnn) = op := by
  apply BitVec.eq_of_getLsbD_eq
  intro i hi
  simp [opOf, wordNNN, hi, show 12 + i < 16 by omega]

@[simp] theorem nnnOf_wordNNN (op : Nibble) (nnn : Imm12) : nnnOf (wordNNN op nnn) = nnn := by
  apply BitVec.eq_of_getLsbD_eq
  intro i hi
  simp [nnnOf, wordNNN, hi, show i < 16 by omega]

/-! ### F-XNN -/

@[simp] theorem opOf_wordXNN (op : Nibble) (x : Reg) (nn : Byte) : opOf (wordXNN op x nn) = op := by
  apply BitVec.eq_of_getLsbD_eq
  intro i hi
  simp [opOf, wordXNN, hi, show 12 + i < 16 by omega, show 12 + i - 8 = 4 + i by omega,
    BitVec.getLsbD_of_ge nn (12 + i) (by omega)]

@[simp] theorem xOf_wordXNN (op : Nibble) (x : Reg) (nn : Byte) : xOf (wordXNN op x nn) = x := by
  have : xNibble (wordXNN op x nn) = nibbleOf x := by
    apply BitVec.eq_of_getLsbD_eq
    intro i hi
    simp [xNibble, wordXNN, hi, show 8 + i < 16 by omega, show 8 + i < 12 by omega]
  rw [xOf, this, regOf_nibbleOf]

@[simp] theorem nnOf_wordXNN (op : Nibble) (x : Reg) (nn : Byte) : nnOf (wordXNN op x nn) = nn := by
  apply BitVec.eq_of_getLsbD_eq
  intro i hi
  simp [nnOf, wordXNN, hi, show i < 16 by omega, show i < 12 by omega]

/-! ### F-XYN -/

@[simp] theorem opOf_wordXYN (op : Nibble) (x y : Reg) (n : Nibble) : opOf (wordXYN op x y n) = op := by
  apply BitVec.eq_of_getLsbD_eq
  intro i hi
  simp [opOf, wordXYN, hi, show 12 + i < 16 by omega, show 12 + i - 8 = 4 + i by omega,
    show 12 + i - 4 = 8 + i by omega, show ¬ (12 + i < 4) by omega,
    BitVec.getLsbD_of_ge (nibbleOf y) (8 + i) (by omega), BitVec.getLsbD_of_ge n (12 + i) (by omega)]

@[simp] theorem xOf_wordXYN (op : Nibble) (x y : Reg) (n : Nibble) : xOf (wordXYN op x y n) = x := by
  have : xNibble (wordXYN op x y n) = nibbleOf x := by
    apply BitVec.eq_of_getLsbD_eq
    intro i hi
    simp [xNibble, wordXYN, hi, show 8 + i < 16 by omega, show 8 + i < 12 by omega, show 8 + i - 4 = 4 + i by omega,
      BitVec.getLsbD_of_ge n (8 + i) (by omega)]
  rw [xOf, this, regOf_nibbleOf]

@[simp] theorem yOf_wordXYN (op : Nibble) (x y : Reg) (n : Nibble) : yOf (wordXYN op x y n) = y := by
  have : yNibble (wordXYN op x y n) = nibbleOf y := by
    apply BitVec.eq_of_getLsbD_eq
    intro i hi
    simp [yNibble, wordXYN, hi, show 4 + i < 16 by omega, show 4 + i < 12 by omega, show 4 + i < 8 by omega]
  rw [yOf, this, regOf_nibbleOf]

@[simp] theorem nOf_wordXYN (op : Nibble) (x y : Reg) (n : Nibble) : nOf (wordXYN op x y n) = n := by
  apply BitVec.eq_of_getLsbD_eq
  intro i hi
  simp [nOf, wordXYN, hi, show i < 16 by omega, show i < 12 by omega, show i < 8 by omega]

/-! ### A word from its fields -/

theorem word_eq_wordNNN (w : Word) : w = wordNNN (opOf w) (nnnOf w) := by
  apply BitVec.eq_of_getLsbD_eq
  intro i hi
  by_cases h : i < 12
  · simp [wordNNN, opOf, nnnOf, h, hi]
  · simp [wordNNN, opOf, nnnOf, h, hi, show i - 12 < 4 by omega, show 12 + (i - 12) = i by omega]

theorem word_eq_wordXNN (w : Word) : w = wordXNN (opOf w) (xOf w) (nnOf w) := by
  apply BitVec.eq_of_getLsbD_eq
  intro i hi
  by_cases h : i < 8
  · simp [wordXNN, opOf, xOf, nibbleOf_regOf, xNibble, nnOf, h, hi, show i < 12 by omega]
  · by_cases h' : i < 12
    · simp [wordXNN, opOf, xOf, nibbleOf_regOf, xNibble, nnOf, h, h', hi, show i - 8 < 4 by omega,
        show 8 + (i - 8) = i by omega]
    · simp [wordXNN, opOf, xOf, nibbleOf_regOf, xNibble, nnOf, h, h', hi, show i - 12 < 4 by omega,
        show 12 + (i - 12) = i by omega, show ¬ (i - 8 < 4) by omega]

theorem word_eq_wordXYN (w : Word) : w = wordXYN (opOf w) (xOf w) (yOf w) (nOf w) := by
  apply BitVec.eq_of_getLsbD_eq
  intro i hi
  by_cases h0 : i < 4
  · simp [wordXYN, opOf, xOf, yOf, nibbleOf_regOf, xNibble, yNibble, nOf, h0, hi, show i < 8 by omega,
      show i < 12 by omega]
  · by_cases h : i < 8
    · simp [wordXYN, opOf, xOf, yOf, nibbleOf_regOf, xNibble, yNibble, nOf, h0, h, hi, show i < 12 by omega,
        show i - 4 < 4 by omega, show 4 + (i - 4) = i by omega]
    · by_cases h' : i < 12
      · simp [wordXYN, opOf, xOf, yOf, nibbleOf_regOf, xNibble, yNibble, nOf, h0, h, h', hi, show i - 8 < 4 by omega,
          show 8 + (i - 8) = i by omega, show ¬ (i - 4 < 4) by omega]
      · simp [wordXYN, opOf, xOf, yOf, nibbleOf_regOf, xNibble, yNibble, nOf, h0, h, h', hi, show i - 12 < 4 by omega,
          show 12 + (i - 12) = i by omega, show ¬ (i - 4 < 4) by omega, show ¬ (i - 8 < 4) by omega]

/-! ### The word of each instruction (R70) -/

/-- Fixed bits at both ends, as F-XY has them. -/
theorem fixed_or_xy (op n : Nibble) (x y : Reg) :
    op.setWidth 16 <<< 12 ||| n.setWidth 16 ||| (xBits x ||| yBits y) = wordXYN op x y n := by
  simp only [wordXYN, xBits, yBits]
  ac_rfl

/-- Fixed bits at both ends, as F-X has them. -/
theorem fixed_or_x (op : Nibble) (nn : Byte) (x : Reg) :
    op.setWidth 16 <<< 12 ||| nn.setWidth 16 ||| xBits x = wordXNN op x nn := by
  simp only [wordXNN, xBits]
  ac_rfl

@[simp] theorem encode_cls : encode .cls = 0x00E0#16 := rfl
@[simp] theorem encode_ret : encode .ret = 0x00EE#16 := rfl
@[simp] theorem encode_sys (nnn : Imm12) : encode (.sys nnn) = wordNNN 0x0#4 nnn := rfl
@[simp] theorem encode_jp (nnn : Imm12) : encode (.jp nnn) = wordNNN 0x1#4 nnn := rfl
@[simp] theorem encode_call (nnn : Imm12) : encode (.call nnn) = wordNNN 0x2#4 nnn := rfl
@[simp] theorem encode_seImm (x : Reg) (nn : Byte) : encode (.seImm x nn) = wordXNN 0x3#4 x nn := (BitVec.or_assoc _ _ _).symm
@[simp] theorem encode_sneImm (x : Reg) (nn : Byte) : encode (.sneImm x nn) = wordXNN 0x4#4 x nn := (BitVec.or_assoc _ _ _).symm
@[simp] theorem encode_seReg (x : Reg) (y : Reg) : encode (.seReg x y) = wordXYN 0x5#4 x y 0x0#4 := fixed_or_xy 0x5#4 0x0#4 x y
@[simp] theorem encode_ldImm (x : Reg) (nn : Byte) : encode (.ldImm x nn) = wordXNN 0x6#4 x nn := (BitVec.or_assoc _ _ _).symm
@[simp] theorem encode_addImm (x : Reg) (nn : Byte) : encode (.addImm x nn) = wordXNN 0x7#4 x nn := (BitVec.or_assoc _ _ _).symm
@[simp] theorem encode_ldReg (x : Reg) (y : Reg) : encode (.ldReg x y) = wordXYN 0x8#4 x y 0x0#4 := fixed_or_xy 0x8#4 0x0#4 x y
@[simp] theorem encode_orReg (x : Reg) (y : Reg) : encode (.orReg x y) = wordXYN 0x8#4 x y 0x1#4 := fixed_or_xy 0x8#4 0x1#4 x y
@[simp] theorem encode_andReg (x : Reg) (y : Reg) : encode (.andReg x y) = wordXYN 0x8#4 x y 0x2#4 := fixed_or_xy 0x8#4 0x2#4 x y
@[simp] theorem encode_xorReg (x : Reg) (y : Reg) : encode (.xorReg x y) = wordXYN 0x8#4 x y 0x3#4 := fixed_or_xy 0x8#4 0x3#4 x y
@[simp] theorem encode_addReg (x : Reg) (y : Reg) : encode (.addReg x y) = wordXYN 0x8#4 x y 0x4#4 := fixed_or_xy 0x8#4 0x4#4 x y
@[simp] theorem encode_subReg (x : Reg) (y : Reg) : encode (.subReg x y) = wordXYN 0x8#4 x y 0x5#4 := fixed_or_xy 0x8#4 0x5#4 x y
@[simp] theorem encode_shr (x : Reg) (y : Reg) : encode (.shr x y) = wordXYN 0x8#4 x y 0x6#4 := fixed_or_xy 0x8#4 0x6#4 x y
@[simp] theorem encode_subnReg (x : Reg) (y : Reg) : encode (.subnReg x y) = wordXYN 0x8#4 x y 0x7#4 := fixed_or_xy 0x8#4 0x7#4 x y
@[simp] theorem encode_shl (x : Reg) (y : Reg) : encode (.shl x y) = wordXYN 0x8#4 x y 0xE#4 := fixed_or_xy 0x8#4 0xE#4 x y
@[simp] theorem encode_sneReg (x : Reg) (y : Reg) : encode (.sneReg x y) = wordXYN 0x9#4 x y 0x0#4 := fixed_or_xy 0x9#4 0x0#4 x y
@[simp] theorem encode_ldI (nnn : Imm12) : encode (.ldI nnn) = wordNNN 0xA#4 nnn := rfl
@[simp] theorem encode_jpV0 (nnn : Imm12) : encode (.jpV0 nnn) = wordNNN 0xB#4 nnn := rfl
@[simp] theorem encode_rnd (x : Reg) (nn : Byte) : encode (.rnd x nn) = wordXNN 0xC#4 x nn := (BitVec.or_assoc _ _ _).symm
@[simp] theorem encode_drw (x : Reg) (y : Reg) (n : Nibble) : encode (.drw x y n) = wordXYN 0xD#4 x y n := by
  show 0xD000#16 ||| (xBits x ||| yBits y ||| n.setWidth 16) = _
  rw [← BitVec.or_assoc, ← BitVec.or_assoc]
  rfl
@[simp] theorem encode_skp (x : Reg) : encode (.skp x) = wordXNN 0xE#4 x 0x9E#8 := fixed_or_x 0xE#4 0x9E#8 x
@[simp] theorem encode_sknp (x : Reg) : encode (.sknp x) = wordXNN 0xE#4 x 0xA1#8 := fixed_or_x 0xE#4 0xA1#8 x
@[simp] theorem encode_ldVxDT (x : Reg) : encode (.ldVxDT x) = wordXNN 0xF#4 x 0x07#8 := fixed_or_x 0xF#4 0x07#8 x
@[simp] theorem encode_ldVxK (x : Reg) : encode (.ldVxK x) = wordXNN 0xF#4 x 0x0A#8 := fixed_or_x 0xF#4 0x0A#8 x
@[simp] theorem encode_ldDTVx (x : Reg) : encode (.ldDTVx x) = wordXNN 0xF#4 x 0x15#8 := fixed_or_x 0xF#4 0x15#8 x
@[simp] theorem encode_ldSTVx (x : Reg) : encode (.ldSTVx x) = wordXNN 0xF#4 x 0x18#8 := fixed_or_x 0xF#4 0x18#8 x
@[simp] theorem encode_addI (x : Reg) : encode (.addI x) = wordXNN 0xF#4 x 0x1E#8 := fixed_or_x 0xF#4 0x1E#8 x
@[simp] theorem encode_ldF (x : Reg) : encode (.ldF x) = wordXNN 0xF#4 x 0x29#8 := fixed_or_x 0xF#4 0x29#8 x
@[simp] theorem encode_ldB (x : Reg) : encode (.ldB x) = wordXNN 0xF#4 x 0x33#8 := fixed_or_x 0xF#4 0x33#8 x
@[simp] theorem encode_dump (x : Reg) : encode (.dump x) = wordXNN 0xF#4 x 0x55#8 := fixed_or_x 0xF#4 0x55#8 x
@[simp] theorem encode_load (x : Reg) : encode (.load x) = wordXNN 0xF#4 x 0x65#8 := fixed_or_x 0xF#4 0x65#8 x

/-! ### Bytes -/

@[simp] theorem wordOfBytes_hi_lo (w : Word) : wordOfBytes (hiByte w) (loByte w) = w := by
  apply BitVec.eq_of_getLsbD_eq
  intro i hi
  by_cases h : i < 8
  · simp [wordOfBytes, hiByte, loByte, h, hi]
  · simp [wordOfBytes, hiByte, loByte, h, hi, show i - 8 < 8 by omega, show 8 + (i - 8) = i by omega]

/-- The first byte is the high-order byte (40_cycle.md R101). -/
theorem toNat_wordOfBytes (hi lo : Byte) : (wordOfBytes hi lo).toNat = hi.toNat * 256 + lo.toNat := by
  have h1 : hi.toNat < 256 := hi.isLt
  have h2 : lo.toNat < 256 := lo.isLt
  rw [wordOfBytes, BitVec.toNat_or, BitVec.toNat_shiftLeft, BitVec.toNat_setWidth, BitVec.toNat_setWidth,
    Nat.shiftLeft_eq, Nat.mod_eq_of_lt (a := hi.toNat) (by omega), Nat.mod_eq_of_lt (a := lo.toNat) (by omega),
    Nat.mod_eq_of_lt (by omega), ← Nat.shiftLeft_eq, ← Nat.shiftLeft_add_eq_or_of_lt h2, Nat.shiftLeft_eq]

end Sys2Proof
end

