-- ==== Sys2Proof/Laws/DecodeTree.lean ====
section
/-! SUPPORT. The decoder is the tree of 30_encoding.md R76: first the top nibble, then, in groups 0, 5, 8, 9, E and F, the
low nibble or byte. The tree is written here from R76 to R81, apart from the pattern table, and shown to be the same
function. -/

namespace Sys2Proof

/-! ### The tree -/

/-- Group 0 (R77): 00E0 and 00EE are tested before 0NNN (R84). -/
def decodeGroup0 (w : Word) : Except Reject Instr :=
  if w = 0x00E0#16 then .ok .cls
  else if w = 0x00EE#16 then .ok .ret
  else .ok (.sys (nnnOf w))

/-- Group 5 (R81). -/
def decodeGroup5 (w : Word) : Except Reject Instr :=
  if nOf w = 0x0#4 then .ok (.seReg (xOf w) (yOf w)) else .error (.unrecognized w)

/-- Group 8, keyed by N (R78). -/
def decodeGroup8 (w : Word) : Except Reject Instr :=
  match nOf w with
  | 0x0#4 => .ok (.ldReg (xOf w) (yOf w))
  | 0x1#4 => .ok (.orReg (xOf w) (yOf w))
  | 0x2#4 => .ok (.andReg (xOf w) (yOf w))
  | 0x3#4 => .ok (.xorReg (xOf w) (yOf w))
  | 0x4#4 => .ok (.addReg (xOf w) (yOf w))
  | 0x5#4 => .ok (.subReg (xOf w) (yOf w))
  | 0x6#4 => .ok (.shr (xOf w) (yOf w))
  | 0x7#4 => .ok (.subnReg (xOf w) (yOf w))
  | 0xE#4 => .ok (.shl (xOf w) (yOf w))
  | _ => .error (.unrecognized w)

/-- Group 9 (R81). -/
def decodeGroup9 (w : Word) : Except Reject Instr :=
  if nOf w = 0x0#4 then .ok (.sneReg (xOf w) (yOf w)) else .error (.unrecognized w)

/-- Group E, keyed by NN (R79). -/
def decodeGroupE (w : Word) : Except Reject Instr :=
  match nnOf w with
  | 0x9E#8 => .ok (.skp (xOf w))
  | 0xA1#8 => .ok (.sknp (xOf w))
  | _ => .error (.unrecognized w)

/-- Group F, keyed by NN (R80). -/
def decodeGroupF (w : Word) : Except Reject Instr :=
  match nnOf w with
  | 0x07#8 => .ok (.ldVxDT (xOf w))
  | 0x0A#8 => .ok (.ldVxK (xOf w))
  | 0x15#8 => .ok (.ldDTVx (xOf w))
  | 0x18#8 => .ok (.ldSTVx (xOf w))
  | 0x1E#8 => .ok (.addI (xOf w))
  | 0x29#8 => .ok (.ldF (xOf w))
  | 0x33#8 => .ok (.ldB (xOf w))
  | 0x55#8 => .ok (.dump (xOf w))
  | 0x65#8 => .ok (.load (xOf w))
  | _ => .error (.unrecognized w)

/-- The whole tree (R76, R83). -/
def decodeTree (w : Word) : Except Reject Instr :=
  match opOf w with
  | 0x0#4 => decodeGroup0 w
  | 0x1#4 => .ok (.jp (nnnOf w))
  | 0x2#4 => .ok (.call (nnnOf w))
  | 0x3#4 => .ok (.seImm (xOf w) (nnOf w))
  | 0x4#4 => .ok (.sneImm (xOf w) (nnOf w))
  | 0x5#4 => decodeGroup5 w
  | 0x6#4 => .ok (.ldImm (xOf w) (nnOf w))
  | 0x7#4 => .ok (.addImm (xOf w) (nnOf w))
  | 0x8#4 => decodeGroup8 w
  | 0x9#4 => decodeGroup9 w
  | 0xA#4 => .ok (.ldI (nnnOf w))
  | 0xB#4 => .ok (.jpV0 (nnnOf w))
  | 0xC#4 => .ok (.rnd (xOf w) (nnOf w))
  | 0xD#4 => .ok (.drw (xOf w) (yOf w) (nOf w))
  | 0xE#4 => decodeGroupE w
  | _ => decodeGroupF w

/-! ### A pattern as a condition on fields -/

theorem masked_op (w : Word) : w &&& 0xF000#16 = (opOf w).setWidth 16 <<< 12 := by
  apply BitVec.eq_of_getLsbD_eq
  intro i hi
  interval_cases i <;> simp [opOf]

theorem masked_op_n (w : Word) : w &&& 0xF00F#16 = (opOf w).setWidth 16 <<< 12 ||| (nOf w).setWidth 16 := by
  apply BitVec.eq_of_getLsbD_eq
  intro i hi
  interval_cases i <;> simp [opOf, nOf]

theorem masked_op_nn (w : Word) : w &&& 0xF0FF#16 = (opOf w).setWidth 16 <<< 12 ||| (nnOf w).setWidth 16 := by
  apply BitVec.eq_of_getLsbD_eq
  intro i hi
  interval_cases i <;> simp [opOf, nnOf]

theorem hasPattern_word (w v : Word) : hasPattern { mask := 0xFFFF#16, value := v } w = (w == v) := by
  rw [hasPattern, show (0xFFFF#16 : Word) = BitVec.allOnes 16 from rfl, BitVec.and_allOnes]

theorem opOf_fixed (op : Nibble) (nn : Byte) : opOf (op.setWidth 16 <<< 12 ||| nn.setWidth 16) = op := by
  simpa [wordXNN, nibbleOf] using opOf_wordXNN op 0 nn

theorem nnOf_fixed (op : Nibble) (nn : Byte) : nnOf (op.setWidth 16 <<< 12 ||| nn.setWidth 16) = nn := by
  simpa [wordXNN, nibbleOf] using nnOf_wordXNN op 0 nn

theorem opOf_fixed_n (op n : Nibble) : opOf (op.setWidth 16 <<< 12 ||| n.setWidth 16) = op := by
  simpa [wordXYN, nibbleOf] using opOf_wordXYN op 0 0 n

theorem nOf_fixed (op n : Nibble) : nOf (op.setWidth 16 <<< 12 ||| n.setWidth 16) = n := by
  simpa [wordXYN, nibbleOf] using nOf_wordXYN op 0 0 n

theorem hasPattern_op (w : Word) (op : Nibble) :
    hasPattern { mask := 0xF000#16, value := op.setWidth 16 <<< 12 } w = (opOf w == op) := by
  rw [hasPattern, masked_op, Bool.eq_iff_iff, beq_iff_eq, beq_iff_eq]
  have e (a : Nibble) : opOf (a.setWidth 16 <<< 12) = a := by simpa [wordNNN] using opOf_wordNNN a 0#12
  exact ⟨fun h => by simpa only [e] using congrArg opOf h, fun h => by rw [h]⟩

theorem hasPattern_op_n (w : Word) (op n : Nibble) :
    hasPattern { mask := 0xF00F#16, value := op.setWidth 16 <<< 12 ||| n.setWidth 16 } w =
      (opOf w == op && nOf w == n) := by
  rw [hasPattern, masked_op_n, Bool.eq_iff_iff, beq_iff_eq, Bool.and_eq_true, beq_iff_eq, beq_iff_eq]
  refine ⟨fun h => ?_, fun h => by rw [h.1, h.2]⟩
  exact ⟨by simpa only [opOf_fixed_n] using congrArg opOf h, by simpa only [nOf_fixed] using congrArg nOf h⟩

theorem hasPattern_op_nn (w : Word) (op : Nibble) (nn : Byte) :
    hasPattern { mask := 0xF0FF#16, value := op.setWidth 16 <<< 12 ||| nn.setWidth 16 } w =
      (opOf w == op && nnOf w == nn) := by
  rw [hasPattern, masked_op_nn, Bool.eq_iff_iff, beq_iff_eq, Bool.and_eq_true, beq_iff_eq, beq_iff_eq]
  refine ⟨fun h => ?_, fun h => by rw [h.1, h.2]⟩
  exact ⟨by simpa only [opOf_fixed] using congrArg opOf h, by simpa only [nnOf_fixed] using congrArg nnOf h⟩

/-- The fields that make a word one of a form, by R76 to R81. -/
def hasKeys (w : Word) : Config.Form → Bool
  | .cls => w == 0x00E0#16
  | .ret => w == 0x00EE#16
  | .sys => opOf w == 0x0#4
  | .jp => opOf w == 0x1#4
  | .call => opOf w == 0x2#4
  | .seImm => opOf w == 0x3#4
  | .sneImm => opOf w == 0x4#4
  | .seReg => opOf w == 0x5#4 && nOf w == 0x0#4
  | .ldImm => opOf w == 0x6#4
  | .addImm => opOf w == 0x7#4
  | .ldReg => opOf w == 0x8#4 && nOf w == 0x0#4
  | .orReg => opOf w == 0x8#4 && nOf w == 0x1#4
  | .andReg => opOf w == 0x8#4 && nOf w == 0x2#4
  | .xorReg => opOf w == 0x8#4 && nOf w == 0x3#4
  | .addReg => opOf w == 0x8#4 && nOf w == 0x4#4
  | .subReg => opOf w == 0x8#4 && nOf w == 0x5#4
  | .shr => opOf w == 0x8#4 && nOf w == 0x6#4
  | .subnReg => opOf w == 0x8#4 && nOf w == 0x7#4
  | .shl => opOf w == 0x8#4 && nOf w == 0xE#4
  | .sneReg => opOf w == 0x9#4 && nOf w == 0x0#4
  | .ldI => opOf w == 0xA#4
  | .jpV0 => opOf w == 0xB#4
  | .rnd => opOf w == 0xC#4
  | .drw => opOf w == 0xD#4
  | .skp => opOf w == 0xE#4 && nnOf w == 0x9E#8
  | .sknp => opOf w == 0xE#4 && nnOf w == 0xA1#8
  | .ldVxDT => opOf w == 0xF#4 && nnOf w == 0x07#8
  | .ldVxK => opOf w == 0xF#4 && nnOf w == 0x0A#8
  | .ldDTVx => opOf w == 0xF#4 && nnOf w == 0x15#8
  | .ldSTVx => opOf w == 0xF#4 && nnOf w == 0x18#8
  | .addI => opOf w == 0xF#4 && nnOf w == 0x1E#8
  | .ldF => opOf w == 0xF#4 && nnOf w == 0x29#8
  | .ldB => opOf w == 0xF#4 && nnOf w == 0x33#8
  | .dump => opOf w == 0xF#4 && nnOf w == 0x55#8
  | .load => opOf w == 0xF#4 && nnOf w == 0x65#8

/-- Each row of the configuration table fixes the fields that R76 to R81 name. -/
theorem hasPattern_eq_hasKeys (w : Word) (f : Config.Form) : hasPattern (Config.pattern f) w = hasKeys w f :=
  match f with
  | .cls => hasPattern_word w _
  | .ret => hasPattern_word w _
  | .sys => hasPattern_op w 0x0#4
  | .jp => hasPattern_op w 0x1#4
  | .call => hasPattern_op w 0x2#4
  | .seImm => hasPattern_op w 0x3#4
  | .sneImm => hasPattern_op w 0x4#4
  | .seReg => hasPattern_op_n w 0x5#4 0x0#4
  | .ldImm => hasPattern_op w 0x6#4
  | .addImm => hasPattern_op w 0x7#4
  | .ldReg => hasPattern_op_n w 0x8#4 0x0#4
  | .orReg => hasPattern_op_n w 0x8#4 0x1#4
  | .andReg => hasPattern_op_n w 0x8#4 0x2#4
  | .xorReg => hasPattern_op_n w 0x8#4 0x3#4
  | .addReg => hasPattern_op_n w 0x8#4 0x4#4
  | .subReg => hasPattern_op_n w 0x8#4 0x5#4
  | .shr => hasPattern_op_n w 0x8#4 0x6#4
  | .subnReg => hasPattern_op_n w 0x8#4 0x7#4
  | .shl => hasPattern_op_n w 0x8#4 0xE#4
  | .sneReg => hasPattern_op_n w 0x9#4 0x0#4
  | .ldI => hasPattern_op w 0xA#4
  | .jpV0 => hasPattern_op w 0xB#4
  | .rnd => hasPattern_op w 0xC#4
  | .drw => hasPattern_op w 0xD#4
  | .skp => hasPattern_op_nn w 0xE#4 0x9E#8
  | .sknp => hasPattern_op_nn w 0xE#4 0xA1#8
  | .ldVxDT => hasPattern_op_nn w 0xF#4 0x07#8
  | .ldVxK => hasPattern_op_nn w 0xF#4 0x0A#8
  | .ldDTVx => hasPattern_op_nn w 0xF#4 0x15#8
  | .ldSTVx => hasPattern_op_nn w 0xF#4 0x18#8
  | .addI => hasPattern_op_nn w 0xF#4 0x1E#8
  | .ldF => hasPattern_op_nn w 0xF#4 0x29#8
  | .ldB => hasPattern_op_nn w 0xF#4 0x33#8
  | .dump => hasPattern_op_nn w 0xF#4 0x55#8
  | .load => hasPattern_op_nn w 0xF#4 0x65#8

theorem nibble_cases : ∀ n : Nibble, n = 0x0#4 ∨ n = 0x1#4 ∨ n = 0x2#4 ∨ n = 0x3#4 ∨ n = 0x4#4 ∨ n = 0x5#4 ∨
    n = 0x6#4 ∨ n = 0x7#4 ∨ n = 0x8#4 ∨ n = 0x9#4 ∨ n = 0xA#4 ∨ n = 0xB#4 ∨ n = 0xC#4 ∨ n = 0xD#4 ∨ n = 0xE#4 ∨
    n = 0xF#4 := by decide

/-- Past 00E0 and 00EE the first pattern that a word has is found by its keys among the other forms. -/
theorem formOf_keys {w : Word} (hc : w ≠ 0x00E0#16) (hr : w ≠ 0x00EE#16) :
    formOf Config.patterns w =
      ([.sys, .jp, .call, .seImm, .sneImm, .seReg, .ldImm, .addImm, .ldReg, .orReg, .andReg, .xorReg, .addReg, .subReg,
        .shr, .subnReg, .shl, .sneReg, .ldI, .jpV0, .rnd, .drw, .skp, .sknp, .ldVxDT, .ldVxK, .ldDTVx, .ldSTVx, .addI,
        .ldF, .ldB, .dump, .load] : List Config.Form).find? (hasKeys w) := by
  have c : hasKeys w .cls = false := by simpa [hasKeys] using hc
  have r : hasKeys w .ret = false := by simpa [hasKeys] using hr
  simp only [formOf, Config.patterns, Config.decodeOrder, hasPattern_eq_hasKeys, List.cons_append, List.nil_append,
    List.find?_cons, c, r]

theorem decode_group8 {w : Word} (hc : w ≠ 0x00E0#16) (hr : w ≠ 0x00EE#16) (h : opOf w = 0x8#4) :
    decode w = decodeGroup8 w := by
  by_cases h0 : nOf w = 0x0#4
  · simp [decode, decodeWith, formOf_keys hc hr, hasKeys, decodeGroup8, h, h0, buildInstr]
  by_cases h1 : nOf w = 0x1#4
  · simp [decode, decodeWith, formOf_keys hc hr, hasKeys, decodeGroup8, h, h1, buildInstr]
  by_cases h2 : nOf w = 0x2#4
  · simp [decode, decodeWith, formOf_keys hc hr, hasKeys, decodeGroup8, h, h2, buildInstr]
  by_cases h3 : nOf w = 0x3#4
  · simp [decode, decodeWith, formOf_keys hc hr, hasKeys, decodeGroup8, h, h3, buildInstr]
  by_cases h4 : nOf w = 0x4#4
  · simp [decode, decodeWith, formOf_keys hc hr, hasKeys, decodeGroup8, h, h4, buildInstr]
  by_cases h5 : nOf w = 0x5#4
  · simp [decode, decodeWith, formOf_keys hc hr, hasKeys, decodeGroup8, h, h5, buildInstr]
  by_cases h6 : nOf w = 0x6#4
  · simp [decode, decodeWith, formOf_keys hc hr, hasKeys, decodeGroup8, h, h6, buildInstr]
  by_cases h7 : nOf w = 0x7#4
  · simp [decode, decodeWith, formOf_keys hc hr, hasKeys, decodeGroup8, h, h7, buildInstr]
  by_cases h8 : nOf w = 0xE#4
  · simp [decode, decodeWith, formOf_keys hc hr, hasKeys, decodeGroup8, h, h8, buildInstr]
  simp [decode, decodeWith, formOf_keys hc hr, hasKeys, decodeGroup8, h, h0, h1, h2, h3, h4, h5, h6, h7, h8]

theorem decode_groupE {w : Word} (hc : w ≠ 0x00E0#16) (hr : w ≠ 0x00EE#16) (h : opOf w = 0xE#4) :
    decode w = decodeGroupE w := by
  by_cases h0 : nnOf w = 0x9E#8
  · simp [decode, decodeWith, formOf_keys hc hr, hasKeys, decodeGroupE, h, h0, buildInstr]
  by_cases h1 : nnOf w = 0xA1#8
  · simp [decode, decodeWith, formOf_keys hc hr, hasKeys, decodeGroupE, h, h1, buildInstr]
  simp [decode, decodeWith, formOf_keys hc hr, hasKeys, decodeGroupE, h, h0, h1]

theorem decode_groupF {w : Word} (hc : w ≠ 0x00E0#16) (hr : w ≠ 0x00EE#16) (h : opOf w = 0xF#4) :
    decode w = decodeGroupF w := by
  by_cases h0 : nnOf w = 0x07#8
  · simp [decode, decodeWith, formOf_keys hc hr, hasKeys, decodeGroupF, h, h0, buildInstr]
  by_cases h1 : nnOf w = 0x0A#8
  · simp [decode, decodeWith, formOf_keys hc hr, hasKeys, decodeGroupF, h, h1, buildInstr]
  by_cases h2 : nnOf w = 0x15#8
  · simp [decode, decodeWith, formOf_keys hc hr, hasKeys, decodeGroupF, h, h2, buildInstr]
  by_cases h3 : nnOf w = 0x18#8
  · simp [decode, decodeWith, formOf_keys hc hr, hasKeys, decodeGroupF, h, h3, buildInstr]
  by_cases h4 : nnOf w = 0x1E#8
  · simp [decode, decodeWith, formOf_keys hc hr, hasKeys, decodeGroupF, h, h4, buildInstr]
  by_cases h5 : nnOf w = 0x29#8
  · simp [decode, decodeWith, formOf_keys hc hr, hasKeys, decodeGroupF, h, h5, buildInstr]
  by_cases h6 : nnOf w = 0x33#8
  · simp [decode, decodeWith, formOf_keys hc hr, hasKeys, decodeGroupF, h, h6, buildInstr]
  by_cases h7 : nnOf w = 0x55#8
  · simp [decode, decodeWith, formOf_keys hc hr, hasKeys, decodeGroupF, h, h7, buildInstr]
  by_cases h8 : nnOf w = 0x65#8
  · simp [decode, decodeWith, formOf_keys hc hr, hasKeys, decodeGroupF, h, h8, buildInstr]
  simp [decode, decodeWith, formOf_keys hc hr, hasKeys, decodeGroupF, h, h0, h1, h2, h3, h4, h5, h6, h7, h8]

theorem decode_group5 {w : Word} (hc : w ≠ 0x00E0#16) (hr : w ≠ 0x00EE#16) (h : opOf w = 0x5#4) :
    decode w = decodeGroup5 w := by
  by_cases h0 : nOf w = 0x0#4
  · simp [decode, decodeWith, formOf_keys hc hr, hasKeys, decodeGroup5, h, h0, buildInstr]
  simp [decode, decodeWith, formOf_keys hc hr, hasKeys, decodeGroup5, h, h0]

theorem decode_group9 {w : Word} (hc : w ≠ 0x00E0#16) (hr : w ≠ 0x00EE#16) (h : opOf w = 0x9#4) :
    decode w = decodeGroup9 w := by
  by_cases h0 : nOf w = 0x0#4
  · simp [decode, decodeWith, formOf_keys hc hr, hasKeys, decodeGroup9, h, h0, buildInstr]
  simp [decode, decodeWith, formOf_keys hc hr, hasKeys, decodeGroup9, h, h0]

/-- The decoder over the table is the tree. -/
theorem decode_eq_decodeTree (w : Word) : decode w = decodeTree w := by
  by_cases hc : w = 0x00E0#16
  · subst hc; rfl
  by_cases hr : w = 0x00EE#16
  · subst hr; rfl
  rcases nibble_cases (opOf w) with h | h | h | h | h | h | h | h | h | h | h | h | h | h | h | h
  case inr.inr.inr.inr.inr.inl => rw [decode_group5 hc hr h]; simp only [decodeTree, h]
  case inr.inr.inr.inr.inr.inr.inr.inr.inl => rw [decode_group8 hc hr h]; simp only [decodeTree, h]
  case inr.inr.inr.inr.inr.inr.inr.inr.inr.inl => rw [decode_group9 hc hr h]; simp only [decodeTree, h]
  case inr.inr.inr.inr.inr.inr.inr.inr.inr.inr.inr.inr.inr.inr.inl =>
    rw [decode_groupE hc hr h]; simp only [decodeTree, h]
  case inr.inr.inr.inr.inr.inr.inr.inr.inr.inr.inr.inr.inr.inr.inr =>
    rw [decode_groupF hc hr h]; simp only [decodeTree, h]; rfl
  all_goals
    simp [decode, decodeWith, formOf_keys hc hr, hasKeys, h, hc, hr, buildInstr, decodeTree, decodeGroup0]

@[simp] theorem form_buildInstr (w : Word) (f : Config.Form) : (buildInstr w f).form = f := by cases f <;> rfl

end Sys2Proof
end

