-- ==== Sys2Proof/Laws/Draw.lean ====
section
/-! SUPPORT. What a draw can do, said once in the claims' own terms (44_display.md R191, R192). -/

namespace Sys2Proof.Machine

@[simp] theorem State.draw_mem (s : State) (x y : Reg) (n : Nibble) : (s.draw x y n).mem = s.mem := rfl
@[simp] theorem State.draw_I (s : State) (x y : Reg) (n : Nibble) : (s.draw x y n).I = s.I := rfl
@[simp] theorem State.draw_pc (s : State) (x y : Reg) (n : Nibble) : (s.draw x y n).pc = s.pc := rfl
@[simp] theorem State.draw_stack (s : State) (x y : Reg) (n : Nibble) : (s.draw x y n).stack = s.stack := rfl
@[simp] theorem State.draw_SP (s : State) (x y : Reg) (n : Nibble) : (s.draw x y n).SP = s.SP := rfl
@[simp] theorem State.draw_dirty (s : State) (x y : Reg) (n : Nibble) : (s.draw x y n).dirty = true := rfl
@[simp] theorem State.draw_FAULT (s : State) (x y : Reg) (n : Nibble) : (s.draw x y n).FAULT = s.FAULT := rfl

/-- A draw changes VF, the cells and the dirty flag. -/
theorem changesOnly_draw (s : State) (x y : Reg) (n : Nibble) :
    ChangesOnly s (s.draw x y n) (fun c => c = .V VF ∨ (∃ j, c = .cell j) ∨ c = .dirty) :=
  ((changesOnly_setV s VF _).mono fun _ => .inl).trans ((changesOnly_setDisp _ _).mono fun _ => .inr)

/-- The pixels of the bytes at `I` are the sprite's set bits. -/
theorem spritePixel_bytesAtI (s : State) (x y : Reg) (n : Nibble) (px py : Nat) :
    spritePixel (s.getV x).toNat (s.getV y).toNat (s.bytesAtI n.toNat) px py = true ↔ SpriteBit s x y n px py := by
  simp only [spritePixel, rowPixel, SpriteBit, Bool.and_eq_true, decide_eq_true_eq, State.bytesAtI]
  by_cases h : py - (s.getV y).toNat < n.toNat
  · rw [List.getD_eq_getElem _ _ (by simpa using h)]
    simp only [List.getElem_map, List.getElem_range, true_and]
    constructor
    · rintro ⟨a, ⟨b, c⟩, d⟩
      exact ⟨b, c, a, by omega, d⟩
    · rintro ⟨b, c, a, _, d⟩
      exact ⟨a, ⟨b, c⟩, d⟩
  · rw [List.getD_eq_default _ _ (by simpa using h)]
    constructor
    · rintro ⟨_, _, d⟩
      simp at d
    · rintro ⟨_, _, a, b, _⟩
      omega

/-- A cell of the frame after a draw. -/
theorem State.cell_draw (s : State) (x y : Reg) (n : Nibble) {px py : Nat} (hx : px < 64) (hy : py < 32) :
    (s.draw x y n).cell (px + 64 * py) =
      (s.cell (px + 64 * py) ^^ spritePixel (s.getV x).toNat (s.getV y).toNat (s.bytesAtI n.toNat) px py) :=
  Canvas.drawRows_cells _ _ _ _ hx hy

/-- A draw collides exactly when a set bit of the sprite falls on a lit cell of the frame. -/
theorem State.drawn_hit (s : State) (x y : Reg) (n : Nibble) :
    (s.drawn x y n).hit = true ↔
      ∃ px py, px < 64 ∧ py < 32 ∧ SpriteBit s x y n px py ∧ s.cell (px + 64 * py) = true := by
  have h := Canvas.drawRows_hit ⟨s.disp, false⟩ (s.getV x).toNat (s.getV y).toNat (s.bytesAtI n.toNat)
  simp only [spritePixel_bytesAtI, Bool.false_eq_true, false_or] at h
  exact h

theorem State.getV_VF_draw (s : State) (x y : Reg) (n : Nibble) :
    (s.draw x y n).getV VF = collisionFlag (s.drawn x y n).hit :=
  (State.getV_setV s VF VF _).trans (if_pos rfl)

/-- A draw changes no cell but those of the frame under the sprite's set bits. -/
theorem changesOnly_draw_bits (s : State) (x y : Reg) (n : Nibble) :
    ChangesOnly s (s.draw x y n) (fun c => c = .V VF ∨ c = .dirty ∨
      ∃ px py, px < 64 ∧ py < 32 ∧ SpriteBit s x y n px py ∧ c = .cell (px + 64 * py)) := by
  intro c hc
  by_cases hcell : ∃ j, c = .cell j
  · obtain ⟨j, rfl⟩ := hcell
    show (s.draw x y n).cell j = s.cell j
    by_cases hj : j < 2048
    · have hx : j % 64 < 64 := by omega
      have hy : j / 64 < 32 := by omega
      have e : j % 64 + 64 * (j / 64) = j := by omega
      have hs : spritePixel (s.getV x).toNat (s.getV y).toNat (s.bytesAtI n.toNat) (j % 64) (j / 64) = false := by
        rw [Bool.eq_false_iff]
        intro hp
        exact hc (.inr (.inr ⟨_, _, hx, hy, (spritePixel_bytesAtI s x y n _ _).1 hp, by rw [e]⟩))
      have h := State.cell_draw s x y n hx hy
      rw [hs, Bool.xor_false, e] at h
      exact h
    · rw [State.cell, State.cell, Display.cell_outside _ (by omega), Display.cell_outside _ (by omega)]
  · refine changesOnly_draw s x y n c ?_
    rintro (h | h | h)
    · exact hc (.inl h)
    · exact hcell h
    · exact hc (.inr (.inl h))

end Sys2Proof.Machine
end

