-- ==== Sys2Proof/Laws/Exec.lean ====
section
/-! SUPPORT. What every form has in common: it raises, or it leaves the latch and the keys alone; and it stops only for SP
out of range. -/

namespace Sys2Proof.Machine

/-- What no form that goes on changes: the latch and the keys (10_state.md R30, R33). -/
def KeepsLatchAndKeys (s t : State) : Prop :=
  t.FAULT = s.FAULT ∧ t.FAULT_PC = s.FAULT_PC ∧ t.FAULT_INFO = s.FAULT_INFO ∧ t.keys = s.keys

/-- A form that answers has raised a fault, or has left the latch and the keys as they were. -/
theorem exec_next_cases {i : Instr} {s t : State} (h : exec i s = .next t) :
    (∃ c n, c ≠ .none ∧ exec i s = s.raise c n ∧ t = s.undoFetch.takeFault c n) ∨ KeepsLatchAndKeys s t := by
  have raised : ∀ {c n}, c ≠ FaultCode.none → exec i s = s.raise c n →
      ∃ c n, c ≠ FaultCode.none ∧ exec i s = s.raise c n ∧ t = s.undoFetch.takeFault c n := by
    intro c n hc he
    refine ⟨c, n, hc, he, ?_⟩
    rw [he] at h
    injection h with h
    exact h.symm
  cases i with
  | ret =>
    rcases execRet_cases s with ⟨_, he⟩ | ⟨_, _, he⟩ | ⟨_, he⟩
    · exact .inl (raised (by decide) he)
    · rw [show exec .ret s = execRet s from rfl, he] at h
      cases h
      exact .inr ⟨rfl, rfl, rfl, rfl⟩
    · rw [show exec .ret s = execRet s from rfl, he] at h
      cases h
  | call nnn =>
    rcases execCall_cases nnn s with ⟨_, he⟩ | ⟨_, he⟩ | ⟨_, he⟩
    · rw [show exec (.call nnn) s = execCall nnn s from rfl, he] at h
      cases h
      exact .inr ⟨rfl, rfl, rfl, rfl⟩
    · exact .inl (raised (by decide) he)
    · rw [show exec (.call nnn) s = execCall nnn s from rfl, he] at h
      cases h
  | ldB x =>
    rcases execLdB_cases x s with ⟨_, he⟩ | ⟨_, he⟩
    · rw [show exec (.ldB x) s = execLdB x s from rfl, he] at h
      cases h
      exact .inr ⟨rfl, rfl, rfl, rfl⟩
    · exact .inl (raised (by decide) he)
  | dump x =>
    rcases execDump_cases x s with ⟨_, he⟩ | ⟨_, he⟩
    · rw [show exec (.dump x) s = execDump x s from rfl, he] at h
      cases h
      exact .inr ⟨rfl, rfl, rfl, rfl⟩
    · exact .inl (raised (by decide) he)
  | load x =>
    rcases execLoad_cases x s with ⟨_, he⟩ | ⟨_, he⟩
    · rw [show exec (.load x) s = execLoad x s from rfl, he] at h
      cases h
      exact .inr ⟨by simp, by simp, by simp, by simp⟩
    · exact .inl (raised (by decide) he)
  | drw x y n =>
    rcases execDrw_cases x y n s with ⟨_, he⟩ | ⟨_, he⟩
    · rw [show exec (.drw x y n) s = execDrw x y n s from rfl, he] at h
      cases h
      exact .inr ⟨rfl, rfl, rfl, rfl⟩
    · exact .inl (raised (by decide) he)
  | skp x =>
    rcases execSkp_cases x s with ⟨_, he⟩ | ⟨_, he⟩
    · rw [show exec (.skp x) s = execSkp x s from rfl, he] at h
      cases h
      exact .inr ⟨by simp, by simp, by simp, by simp⟩
    · exact .inl (raised (by decide) he)
  | sknp x =>
    rcases execSknp_cases x s with ⟨_, he⟩ | ⟨_, he⟩
    · rw [show exec (.sknp x) s = execSknp x s from rfl, he] at h
      cases h
      exact .inr ⟨by simp, by simp, by simp, by simp⟩
    · exact .inl (raised (by decide) he)
  | ldVxK x =>
    rcases execLdVxK_cases x s with ⟨_, _, he⟩ | ⟨_, he⟩ <;>
    · rw [show exec (.ldVxK x) s = execLdVxK x s from rfl, he] at h
      cases h
      exact .inr ⟨rfl, rfl, rfl, rfl⟩
  | rnd x nn =>
    cases h
    exact .inr ⟨by simp, by simp, by simp, by simp⟩
  | seImm x nn =>
    cases h
    exact .inr ⟨by simp, by simp, by simp, by simp⟩
  | sneImm x nn =>
    cases h
    exact .inr ⟨by simp, by simp, by simp, by simp⟩
  | seReg x y =>
    cases h
    exact .inr ⟨by simp, by simp, by simp, by simp⟩
  | sneReg x y =>
    cases h
    exact .inr ⟨by simp, by simp, by simp, by simp⟩
  | _ =>
    cases h
    exact .inr ⟨rfl, rfl, rfl, rfl⟩

/-- From a state with a clear latch, a form that ends with the latch set has raised. -/
theorem exec_faulted {i : Instr} {s t : State} (h : exec i s = .next t) (hs : s.FAULT = .none)
    (ht : t.FAULT ≠ .none) : ∃ c n, c ≠ .none ∧ exec i s = s.raise c n ∧ t = s.undoFetch.takeFault c n := by
  rcases exec_next_cases h with hr | hk
  · exact hr
  · exact absurd (hk.1.trans hs) ht

/-- A form that ends with the latch clear has not raised, and has left latch and keys alone. -/
theorem exec_unfaulted {i : Instr} {s t : State} (h : exec i s = .next t) (ht : t.FAULT = .none) :
    KeepsLatchAndKeys s t := by
  rcases exec_next_cases h with ⟨c, n, hc, _, rfl⟩ | hk
  · exact absurd ht hc
  · exact hk

end Sys2Proof.Machine
end

