-- ==== Sys2Proof/Laws/PerInstr.lean ====
section
/-! SUPPORT. One statement made per instruction: its word has its row of the pattern table, which is the row of
spec/opcode_table.json ("mask" and "match"), and the operands are read back from it. -/

namespace Sys2Proof.Laws.TableRow

/-- Whatever the operands, the word of an instruction has its form's fixed bits, and its fields are the operands. -/
def Statement (i : Instr) : Prop :=
  hasPattern (Config.pattern i.form) (encode i) = true ∧ buildInstr (encode i) i.form = i

theorem cls : Statement .cls := by simp [Statement, Instr.form, buildInstr, hasPattern_eq_hasKeys, hasKeys]
theorem ret : Statement .ret := by simp [Statement, Instr.form, buildInstr, hasPattern_eq_hasKeys, hasKeys]
theorem sys (nnn : Imm12) : Statement (.sys nnn) := by
  simp [Statement, Instr.form, buildInstr, hasPattern_eq_hasKeys, hasKeys]
theorem jp (nnn : Imm12) : Statement (.jp nnn) := by
  simp [Statement, Instr.form, buildInstr, hasPattern_eq_hasKeys, hasKeys]
theorem call (nnn : Imm12) : Statement (.call nnn) := by
  simp [Statement, Instr.form, buildInstr, hasPattern_eq_hasKeys, hasKeys]
theorem seImm (x : Reg) (nn : Byte) : Statement (.seImm x nn) := by
  simp [Statement, Instr.form, buildInstr, hasPattern_eq_hasKeys, hasKeys]
theorem sneImm (x : Reg) (nn : Byte) : Statement (.sneImm x nn) := by
  simp [Statement, Instr.form, buildInstr, hasPattern_eq_hasKeys, hasKeys]
theorem seReg (x : Reg) (y : Reg) : Statement (.seReg x y) := by
  simp [Statement, Instr.form, buildInstr, hasPattern_eq_hasKeys, hasKeys]
theorem ldImm (x : Reg) (nn : Byte) : Statement (.ldImm x nn) := by
  simp [Statement, Instr.form, buildInstr, hasPattern_eq_hasKeys, hasKeys]
theorem addImm (x : Reg) (nn : Byte) : Statement (.addImm x nn) := by
  simp [Statement, Instr.form, buildInstr, hasPattern_eq_hasKeys, hasKeys]
theorem ldReg (x : Reg) (y : Reg) : Statement (.ldReg x y) := by
  simp [Statement, Instr.form, buildInstr, hasPattern_eq_hasKeys, hasKeys]
theorem orReg (x : Reg) (y : Reg) : Statement (.orReg x y) := by
  simp [Statement, Instr.form, buildInstr, hasPattern_eq_hasKeys, hasKeys]
theorem andReg (x : Reg) (y : Reg) : Statement (.andReg x y) := by
  simp [Statement, Instr.form, buildInstr, hasPattern_eq_hasKeys, hasKeys]
theorem xorReg (x : Reg) (y : Reg) : Statement (.xorReg x y) := by
  simp [Statement, Instr.form, buildInstr, hasPattern_eq_hasKeys, hasKeys]
theorem addReg (x : Reg) (y : Reg) : Statement (.addReg x y) := by
  simp [Statement, Instr.form, buildInstr, hasPattern_eq_hasKeys, hasKeys]
theorem subReg (x : Reg) (y : Reg) : Statement (.subReg x y) := by
  simp [Statement, Instr.form, buildInstr, hasPattern_eq_hasKeys, hasKeys]
theorem shr (x : Reg) (y : Reg) : Statement (.shr x y) := by
  simp [Statement, Instr.form, buildInstr, hasPattern_eq_hasKeys, hasKeys]
theorem subnReg (x : Reg) (y : Reg) : Statement (.subnReg x y) := by
  simp [Statement, Instr.form, buildInstr, hasPattern_eq_hasKeys, hasKeys]
theorem shl (x : Reg) (y : Reg) : Statement (.shl x y) := by
  simp [Statement, Instr.form, buildInstr, hasPattern_eq_hasKeys, hasKeys]
theorem sneReg (x : Reg) (y : Reg) : Statement (.sneReg x y) := by
  simp [Statement, Instr.form, buildInstr, hasPattern_eq_hasKeys, hasKeys]
theorem ldI (nnn : Imm12) : Statement (.ldI nnn) := by
  simp [Statement, Instr.form, buildInstr, hasPattern_eq_hasKeys, hasKeys]
theorem jpV0 (nnn : Imm12) : Statement (.jpV0 nnn) := by
  simp [Statement, Instr.form, buildInstr, hasPattern_eq_hasKeys, hasKeys]
theorem rnd (x : Reg) (nn : Byte) : Statement (.rnd x nn) := by
  simp [Statement, Instr.form, buildInstr, hasPattern_eq_hasKeys, hasKeys]
theorem drw (x : Reg) (y : Reg) (n : Nibble) : Statement (.drw x y n) := by
  simp [Statement, Instr.form, buildInstr, hasPattern_eq_hasKeys, hasKeys]
theorem skp (x : Reg) : Statement (.skp x) := by
  simp [Statement, Instr.form, buildInstr, hasPattern_eq_hasKeys, hasKeys]
theorem sknp (x : Reg) : Statement (.sknp x) := by
  simp [Statement, Instr.form, buildInstr, hasPattern_eq_hasKeys, hasKeys]
theorem ldVxDT (x : Reg) : Statement (.ldVxDT x) := by
  simp [Statement, Instr.form, buildInstr, hasPattern_eq_hasKeys, hasKeys]
theorem ldVxK (x : Reg) : Statement (.ldVxK x) := by
  simp [Statement, Instr.form, buildInstr, hasPattern_eq_hasKeys, hasKeys]
theorem ldDTVx (x : Reg) : Statement (.ldDTVx x) := by
  simp [Statement, Instr.form, buildInstr, hasPattern_eq_hasKeys, hasKeys]
theorem ldSTVx (x : Reg) : Statement (.ldSTVx x) := by
  simp [Statement, Instr.form, buildInstr, hasPattern_eq_hasKeys, hasKeys]
theorem addI (x : Reg) : Statement (.addI x) := by
  simp [Statement, Instr.form, buildInstr, hasPattern_eq_hasKeys, hasKeys]
theorem ldF (x : Reg) : Statement (.ldF x) := by
  simp [Statement, Instr.form, buildInstr, hasPattern_eq_hasKeys, hasKeys]
theorem ldB (x : Reg) : Statement (.ldB x) := by
  simp [Statement, Instr.form, buildInstr, hasPattern_eq_hasKeys, hasKeys]
theorem dump (x : Reg) : Statement (.dump x) := by
  simp [Statement, Instr.form, buildInstr, hasPattern_eq_hasKeys, hasKeys]
theorem load (x : Reg) : Statement (.load x) := by
  simp [Statement, Instr.form, buildInstr, hasPattern_eq_hasKeys, hasKeys]

end Sys2Proof.Laws.TableRow
end

