-- ==== Sys2Proof/Tests/Slice0.lean ====
section
/-! SUPPORT. Small tests of the model, and a witness for the hypotheses of every obligation.

Expected results come from spec/95_test_vectors.md, whose ids are given, or from the rule named beside the test. -/

namespace Sys2Proof.Tests.Slice0

open Sys2Proof Sys2Proof.Machine

/-! ### Helpers -/

/-- Base state B of 95_test_vectors.md with changes `f`, and then word `w` where `pc` points. -/
def start (w : Word) (f : State → State) : State := (f State.reset).withFetchWord 16 w.toNat

/-- No change to B. -/
def asB (s : State) : State := s

/-- One step answers a next state that passes `p`. -/
def stepGives (s : State) (p : State → Bool) : Bool :=
  match step s with
  | .next t => p t
  | .fault _ => false
  | .refused _ => false

/-- One cycle answers a next state and a report that pass `p`. -/
def cycleGives (s : State) (p : State → CycleResult → Bool) : Bool :=
  match cycle s with
  | .next (t, r) => p t r
  | .fault _ => false
  | .refused _ => false

/-- The fault latch reads so. -/
def latched (t : State) (c : FaultCode) (p i : Word) : Bool := t.FAULT == c && t.FAULT_PC == p && t.FAULT_INFO == i

/-- The state after a step, for a step that answers one. -/
def next (s : State) : State :=
  match step s with
  | .next t => t
  | .fault _ => s
  | .refused _ => s

/-- The state after the execute step of `i`, for a form that answers one. -/
def ran (i : Instr) (s : State) : State :=
  match exec i s with
  | .next t => t
  | .fault _ => s
  | .refused _ => s

/-- The session after an operation that answers one. -/
def did (op : HostOp) (h : Session) : Session :=
  match hostStep op h with
  | .next (h', _) => h'
  | .fault _ => h
  | .refused _ => h

/-- What that operation returns. -/
def said (op : HostOp) (h : Session) : HostReply :=
  match hostStep op h with
  | .next (_, r) => r
  | .fault _ => .nothing
  | .refused _ => .nothing

/-- The indices of the cells that are lit, looking at the first `n`. -/
def lit (s : State) (n : Nat) : List Nat := (List.range n).filter fun j => s.cell j

/-- SP and the stack entries, for tests. -/
def withStack (sp : BitVec 5) (st : Vector Word 16) (s : State) : State := s.setStack st sp

/-! ### Well-formedness: the one check (30_encoding.md R84) -/

theorem test_wf_refuses_sys_0E0 : ¬ WellFormed (.sys 0x0E0#12) := by decide
theorem test_wf_refuses_sys_0EE : ¬ WellFormed (.sys 0x0EE#12) := by decide
theorem test_wf_admits_sys_EE0 : WellFormed (.sys 0xEE0#12) := by decide

/-! ### Decoding: a word of every form, written out from the patterns of 30_encoding.md R70 and the vectors V-DEC -/

theorem test_decode_group0 :
    decode 0b0000000011100000#16 = .ok .cls ∧ decode 0b0000000011101110#16 = .ok .ret ∧
    decode 0b0000000100100011#16 = .ok (.sys 0x123#12) ∧ decode 0x0000#16 = .ok (.sys 0x000#12) ∧
    decode 0x00E1#16 = .ok (.sys 0x0E1#12) ∧ decode 0x0EE0#16 = .ok (.sys 0xEE0#12) := by decide

theorem test_decode_control :
    decode 0b0001101010111100#16 = .ok (.jp 0xABC#12) ∧ decode 0x1000#16 = .ok (.jp 0x000#12) ∧
    decode 0b0010001100000000#16 = .ok (.call 0x300#12) ∧ decode 0b0011001100010000#16 = .ok (.seImm 3 0x10#8) ∧
    decode 0b0100001100010001#16 = .ok (.sneImm 3 0x11#8) ∧ decode 0b0101000100100000#16 = .ok (.seReg 1 2) ∧
    decode 0b1001000100100000#16 = .ok (.sneReg 1 2) ∧ decode 0b1011000100100011#16 = .ok (.jpV0 0x123#12) := by decide

theorem test_decode_alu :
    decode 0b0110101000000101#16 = .ok (.ldImm 10 0x05#8) ∧ decode 0b0111001000000011#16 = .ok (.addImm 2 0x03#8) ∧
    decode 0b1000010001010000#16 = .ok (.ldReg 4 5) ∧ decode 0b1000010001010001#16 = .ok (.orReg 4 5) ∧
    decode 0b1000010001010010#16 = .ok (.andReg 4 5) ∧ decode 0b1000010001010011#16 = .ok (.xorReg 4 5) ∧
    decode 0b1000010001010100#16 = .ok (.addReg 4 5) ∧ decode 0b1000010001010101#16 = .ok (.subReg 4 5) ∧
    decode 0b1000010001010110#16 = .ok (.shr 4 5) ∧ decode 0b1000010001010111#16 = .ok (.subnReg 4 5) ∧
    decode 0b1000010001011110#16 = .ok (.shl 4 5) := by decide

theorem test_decode_index :
    decode 0b1010001011110000#16 = .ok (.ldI 0x2F0#12) ∧ decode 0b1111000000011110#16 = .ok (.addI 0) ∧
    decode 0b1111011000101001#16 = .ok (.ldF 6) ∧ decode 0b1111011000110011#16 = .ok (.ldB 6) ∧
    decode 0b1111001001010101#16 = .ok (.dump 2) ∧ decode 0b1111000101100101#16 = .ok (.load 1) := by decide

theorem test_decode_display_random_keys_timers :
    decode 0b1101101010110000#16 = .ok (.drw 10 11 0x0#4) ∧ decode 0b1100001100001111#16 = .ok (.rnd 3 0x0F#8) ∧
    decode 0b1110000010011110#16 = .ok (.skp 0) ∧ decode 0b1110000110100001#16 = .ok (.sknp 1) ∧
    decode 0b1111001000000111#16 = .ok (.ldVxDT 2) ∧ decode 0b1111111100001010#16 = .ok (.ldVxK 15) ∧
    decode 0b1111001000010101#16 = .ok (.ldDTVx 2) ∧ decode 0b1111001000011000#16 = .ok (.ldSTVx 2) := by decide

/-- V-DEC-8, 9, 10, 12, 15, 16, 17. -/
theorem test_decode_unrecognized :
    decode 0x5121#16 = .error (.unrecognized 0x5121#16) ∧ decode 0x9AB1#16 = .error (.unrecognized 0x9AB1#16) ∧
    decode 0x8008#16 = .error (.unrecognized 0x8008#16) ∧ decode 0x800F#16 = .error (.unrecognized 0x800F#16) ∧
    decode 0xE09F#16 = .error (.unrecognized 0xE09F#16) ∧ decode 0xF000#16 = .error (.unrecognized 0xF000#16) ∧
    decode 0xF0FF#16 = .error (.unrecognized 0xF0FF#16) := by decide

/-- Two bytes make an instruction (R71), the first the high-order one (20_memory.md R55), and the rest is left. -/
theorem test_decodeBytes :
    decodeBytes [0x6A#8, 0x05#8, 0x12#8] = .ok (.ldImm 10 0x05#8, [0x12#8]) ∧
    decodeBytes [0x6A#8] = .error .truncated ∧ encodeBytes (.ldImm 10 0x05#8) = [0x6A#8, 0x05#8] ∧
    decodeTableWord 16 0x6A05 = some (.ldImm 10 0x05#8) ∧ decodeTableWord 16 0x5121 = none := by decide

/-! ### Reset and memory -/

/-- V-HST-12 and the reset column of R20. -/
theorem test_reset :
    State.reset.mem.wf = true ∧ (List.range 5).map State.reset.readMem = [0xF0#8, 0x90#8, 0x90#8, 0x90#8, 0xF0#8] ∧
    (List.range 5).map (fun k => State.reset.readMem (0x4B + k)) = [0xF0#8, 0x80#8, 0xF0#8, 0x80#8, 0x80#8] ∧
    State.reset.readMem 0x50 = 0x00#8 ∧ State.reset.pc = 0x0200#16 ∧ State.reset.dirty = true := by decide

/-- Writing back what reset left unlists the byte, so that equal memories are equal lists. -/
theorem test_memory_canonical :
    Memory.write (Memory.write [] 0x300 0x07#8) 0x300 0x00#8 = [] ∧
    Memory.write (Memory.write [] 0x300 0x07#8) 0x000 0xAA#8 = [(0x000, 0xAA#8), (0x300, 0x07#8)] ∧
    Memory.write [] 0x000 0xF0#8 = [] := by decide

/-! ### The cycle -/

/-- V-CYC-1: the highest fetch that succeeds. -/
theorem test_fetch_at_FFE : stepGives (start 0x1300#16 (·.setPc 0x0FFE#16)) (fun t => t.pc == 0x0300#16) = true := by
  decide

/-- V-CYC-4: pc = 0xFFF faults, the timers stand still. -/
theorem test_fetch_at_FFF :
    cycleGives ((State.reset.setPc 0x0FFF#16).setDT 0x05#8) (fun t r =>
      latched t .fetchRange 0x0FFF#16 0x1000#16 && t.pc == 0x0FFF#16 && t.DT == 0x05#8 &&
      r == { displayChanged := false, beep := false, fault := .fetchRange }) = true := by decide

/-- V-CYC-5. -/
theorem test_unrecognized_word :
    stepGives (start 0x5121#16 fun s => (s.setPc 0x0300#16).setDT 0x02#8)
      (fun t => t.pc == 0x0302#16 && t.DT == 0x01#8) = true := by decide

/-- V-CYC-6. -/
theorem test_latched_cycle :
    cycle (State.reset.takeFault .dataRange 0x1000) =
      .next (State.reset.takeFault .dataRange 0x1000,
        { displayChanged := false, beep := false, fault := .dataRange }) := rfl

/-- V-CYC-7. -/
theorem test_timers_and_beep :
    cycleGives (start 0x6000#16 fun s => (s.setDT 0x01#8).setST 0x01#8) (fun t r =>
      t.pc == 0x0202#16 && t.DT == 0x00#8 && t.ST == 0x00#8 &&
      r == { displayChanged := false, beep := true, fault := .none }) = true := by decide

/-! ### Control transfer -/

/-- V-CTL-7. -/
theorem test_ret :
    stepGives (start 0x00EE#16 (withStack 2#5 (((State.reset.stack.set 0 0x0206#16)).set 1 0x0456#16)))
      (fun t => t.pc == 0x0456#16 && t.SP == 1#5 && t.stack[1] == 0x0456#16) = true := by decide

/-- V-CTL-4. -/
theorem test_ret_underflow :
    stepGives (start 0x00EE#16 asB) (fun t => latched t .stackUnderflow 0x0200#16 0x0000#16 && t.pc == 0x0200#16) = true := by
  decide

/-- V-CTL-21. -/
theorem test_sys : step (start 0x0123#16 asB) = .next ((start 0x0123#16 asB).setPc 0x0202#16) := rfl

/-- V-CTL-1. -/
theorem test_jp : stepGives (start 0x1ABC#16 asB) (fun t => t.pc == 0x0ABC#16) = true := by decide

/-- V-CTL-6. -/
theorem test_call_last_entry :
    stepGives (start 0x2400#16 (withStack 15#5 State.reset.stack))
      (fun t => t.stack[15] == 0x0202#16 && t.SP == 16#5 && t.pc == 0x0400#16) = true := by decide

/-- V-CTL-5. -/
theorem test_call_overflow :
    stepGives (start 0x2400#16 (withStack 16#5 (Vector.replicate 16 0x0202#16)))
      (fun t => latched t .stackOverflow 0x0200#16 0x0400#16 && t.SP == 16#5 && t.pc == 0x0200#16) = true := by decide

/-- V-CTL-9 and V-CTL-17. -/
theorem test_seImm_not_taken : stepGives (start 0x3311#16 (·.setV 3 0x10#8)) (fun t => t.pc == 0x0202#16) = true := by
  decide
theorem test_seImm_VF : stepGives (start 0x3F01#16 (·.setV 15 0x01#8)) (fun t => t.pc == 0x0204#16) = true := by decide

/-- V-CTL-10 and V-CTL-11. -/
theorem test_sneImm : stepGives (start 0x4311#16 (·.setV 3 0x10#8)) (fun t => t.pc == 0x0204#16) = true := by decide
theorem test_sneImm_not_taken : stepGives (start 0x4310#16 (·.setV 3 0x10#8)) (fun t => t.pc == 0x0202#16) = true := by
  decide

/-- V-CTL-12 and V-CTL-13. -/
theorem test_seReg :
    stepGives (start 0x5120#16 fun s => (s.setV 1 0x07#8).setV 2 0x07#8) (fun t => t.pc == 0x0204#16) = true := by decide
theorem test_seReg_not_taken :
    stepGives (start 0x5120#16 fun s => (s.setV 1 0x07#8).setV 2 0x08#8) (fun t => t.pc == 0x0202#16) = true := by decide

/-- V-CTL-15 and V-CTL-16. -/
theorem test_sneReg :
    stepGives (start 0x9120#16 fun s => (s.setV 1 0x07#8).setV 2 0x08#8) (fun t => t.pc == 0x0204#16) = true := by decide
theorem test_sneReg_same : stepGives (start 0x9110#16 asB) (fun t => t.pc == 0x0202#16) = true := by decide

/-- V-CTL-20, first cycle: not wrapped at 12 bits. -/
theorem test_jpV0 : stepGives (start 0xBFFF#16 (·.setV 0 0xFF#8)) (fun t => t.pc == 0x10FE#16) = true := by decide

/-! ### Register loads and ALU -/

/-- E1, "and advances program counter by 2 only". -/
theorem test_ldImm :
    stepGives (start 0x6A05#16 asB) (· == ((start 0x6A05#16 asB).setV 10 0x05#8).setPc 0x0202#16) = true := by decide

/-- V-ALU-3 and V-ALU-4. -/
theorem test_addImm :
    stepGives (start 0x7203#16 (·.setV 2 0xFE#8)) (fun t => t.getV 2 == 0x01#8 && t.getV VF == 0x00#8) = true := by decide
theorem test_addImm_VF : stepGives (start 0x7F01#16 (·.setV 15 0xFF#8)) (fun t => t.getV VF == 0x00#8) = true := by
  decide

/-- V-ALU-5. -/
theorem test_ldReg :
    stepGives (start 0x8010#16 fun s => (s.setV 1 0x33#8).setV 15 0x5A#8)
      (fun t => t.getV 0 == 0x33#8 && t.getV VF == 0x5A#8) = true := by decide

/-- V-ALU-6. -/
theorem test_orReg :
    stepGives (start 0x8011#16 fun s => ((s.setV 0 0x0F#8).setV 1 0xF0#8).setV 15 0x5A#8)
      (fun t => t.getV 0 == 0xFF#8 && t.getV VF == 0x5A#8) = true := by decide

/-- V-ALU-7. -/
theorem test_andReg :
    stepGives (start 0x8012#16 fun s => ((s.setV 0 0x3C#8).setV 1 0x0F#8).setV 15 0x5A#8)
      (fun t => t.getV 0 == 0x0C#8 && t.getV VF == 0x5A#8) = true := by decide

/-- V-ALU-8. -/
theorem test_xorReg :
    stepGives (start 0x8013#16 fun s => ((s.setV 0 0x3C#8).setV 1 0x0F#8).setV 15 0x5A#8)
      (fun t => t.getV 0 == 0x33#8 && t.getV VF == 0x5A#8) = true := by decide

/-- E2 and V-ALU-13. -/
theorem test_addReg :
    stepGives (start 0x8014#16 fun s => (s.setV 0 0xFF#8).setV 1 0x01#8)
      (fun t => t.getV 0 == 0x00#8 && t.getV VF == 0x01#8) = true := by decide
theorem test_addReg_VF :
    stepGives (start 0x8F14#16 fun s => (s.setV 15 0x80#8).setV 1 0x90#8) (fun t => t.getV VF == 0x01#8) = true := by
  decide

/-- E3 and V-ALU-18. -/
theorem test_subReg :
    stepGives (start 0x8015#16 fun s => (s.setV 0 0x01#8).setV 1 0x02#8)
      (fun t => t.getV 0 == 0xFF#8 && t.getV VF == 0x00#8) = true := by decide
theorem test_subReg_VF :
    stepGives (start 0x8F15#16 fun s => (s.setV 15 0x05#8).setV 1 0x03#8) (fun t => t.getV VF == 0x01#8) = true := by
  decide

/-- V-ALU-19 and V-ALU-21: Vy is ignored. -/
theorem test_shr :
    stepGives (start 0x8406#16 (·.setV 4 0x05#8)) (fun t => t.getV 4 == 0x02#8 && t.getV VF == 0x01#8) = true := by decide
theorem test_shr_ignores_Vy :
    stepGives (start 0x8456#16 fun s => (s.setV 4 0x04#8).setV 5 0xFF#8)
      (fun t => t.getV 4 == 0x02#8 && t.getV VF == 0x00#8) = true := by decide

/-- V-ALU-23 and V-ALU-24. -/
theorem test_subnReg_borrow :
    stepGives (start 0x8017#16 fun s => (s.setV 0 0x05#8).setV 1 0x03#8)
      (fun t => t.getV 0 == 0xFE#8 && t.getV VF == 0x00#8) = true := by decide
theorem test_subnReg :
    stepGives (start 0x8017#16 fun s => (s.setV 0 0x03#8).setV 1 0x05#8)
      (fun t => t.getV 0 == 0x02#8 && t.getV VF == 0x01#8) = true := by decide

/-- V-ALU-29 and V-ALU-30: Vy is ignored, the flag wins. -/
theorem test_shl_ignores_Vy :
    stepGives (start 0x845E#16 fun s => (s.setV 4 0x01#8).setV 5 0x80#8)
      (fun t => t.getV 4 == 0x02#8 && t.getV VF == 0x00#8) = true := by decide
theorem test_shl_VF : stepGives (start 0x8F0E#16 (·.setV 15 0x80#8)) (fun t => t.getV VF == 0x01#8) = true := by decide

/-! ### Index register and memory -/

/-- V-MEM-1. -/
theorem test_ldI : stepGives (start 0xA2F0#16 asB) (fun t => t.I == 0x02F0#16) = true := by decide

/-- V-MEM-2 and V-MEM-4. -/
theorem test_addI :
    stepGives (start 0xF01E#16 fun s => (s.setI 0x0FFF#16).setV 0 0x01#8)
      (fun t => t.I == 0x1000#16 && t.getV VF == 0x01#8) = true := by decide
theorem test_addI_wraps :
    stepGives (start 0xF01E#16 fun s => (s.setI 0xFFFF#16).setV 0 0x01#8)
      (fun t => t.I == 0x0000#16 && t.getV VF == 0x00#8) = true := by decide

/-- V-MEM-7: not masked. -/
theorem test_ldF : stepGives (start 0xF029#16 (·.setV 0 0xFF#8)) (fun t => t.I == 0x04FB#16) = true := by decide

/-- E5 and V-MEM-13. -/
theorem test_ldB :
    stepGives (start 0xF033#16 fun s => (s.setI 0x0300#16).setV 0 0xFE#8)
      (fun t => t.readMem 0x300 == 0x02#8 && t.readMem 0x301 == 0x05#8 && t.readMem 0x302 == 0x04#8) = true := by decide
theorem test_ldB_range :
    stepGives (start 0xF033#16 fun s => (s.setI 0x0FFE#16).setV 0 0x09#8)
      (fun t => latched t .dataRange 0x0200#16 0x1000#16 && t.readMem 0xFFE == 0x00#8 && t.pc == 0x0200#16) = true := by
  decide

/-- V-MEM-15 and V-MEM-18. -/
theorem test_dump :
    stepGives (start 0xF255#16 fun s => (((s.setI 0x0300#16).setV 0 0x01#8).setV 1 0x02#8).setV 2 0x03#8)
      (fun t => t.readMem 0x300 == 0x01#8 && t.readMem 0x302 == 0x03#8 && t.readMem 0x303 == 0x00#8 &&
        t.I == 0x0303#16) = true := by decide
theorem test_dump_range :
    stepGives (start 0xFF55#16 fun s => (s.setI 0x0FF1#16).setV 0 0x01#8)
      (fun t => latched t .dataRange 0x0200#16 0x1000#16 && t.readMem 0xFF1 == 0x00#8 && t.I == 0x0FF1#16) = true := by
  decide

/-- V-MEM-20 and V-MEM-21. -/
theorem test_load :
    stepGives (start 0xF265#16 fun s => (s.setI 0x0300#16).writeBytes 0x300 [0x07#8, 0x08#8, 0x09#8, 0x0A#8])
      (fun t => t.getV 0 == 0x07#8 && t.getV 2 == 0x09#8 && t.getV 3 == 0x00#8 && t.I == 0x0303#16) = true := by decide
theorem test_load_VF :
    stepGives (start 0xFF65#16 fun s => (s.setI 0x0300#16).writeBytes 0x30F [0x77#8])
      (fun t => t.getV VF == 0x77#8 && t.I == 0x0310#16) = true := by decide

/-! ### Display -/

/-- V-DSP-1. -/
theorem test_cls :
    cycleGives (start 0x00E0#16 fun s => (s.setDisp (Display.flip Display.clear 5 0)).setDirty false)
      (fun t r => t.disp == Display.clear && t.dirty && r.displayChanged) = true := by decide

/-- V-DSP-5: cell 1 was lit. -/
theorem test_drw_collision :
    stepGives (start 0xD011#16 fun s =>
        ((s.setI 0x0300#16).writeBytes 0x300 [0xC0#8]).setDisp (Display.flip Display.clear 1 0))
      (fun t => lit t 130 == [0] && t.getV VF == 0x01#8 && t.dirty) = true := by decide

/-- V-DSP-6: clipped at the right edge. -/
theorem test_drw_clips :
    stepGives (start 0xD011#16 fun s => ((s.setI 0x0300#16).writeBytes 0x300 [0xFF#8]).setV 0 62#8)
      (fun t => lit t 130 == [62, 63] && t.getV VF == 0x00#8) = true := by decide

/-! ### Random, keys and timers -/

/-- V-TIR-1, through CYCLE(rnd). -/
theorem test_rnd :
    (match runCycle 0xB7#8 (start 0xC30F#16 asB) with
      | .next (t, _) => t.getV 3 == 0x07#8 && t.rndIn == none
      | .fault _ => false
      | .refused _ => false) = true := by decide

/-- V-TIR-4 and V-TIR-8. -/
theorem test_skp :
    stepGives (start 0xE19E#16 fun s => (s.setV 1 0x05#8).setKeys 0x0020#16) (fun t => t.pc == 0x0204#16) = true := by
  decide
theorem test_skp_range :
    stepGives (start 0xE19E#16 (·.setV 1 0x10#8)) (fun t => latched t .keyRange 0x0200#16 0x0010#16) = true := by decide

/-- V-TIR-7 and V-TIR-9. -/
theorem test_sknp :
    stepGives (start 0xE1A1#16 fun s => (s.setV 1 0x05#8).setKeys 0x0020#16) (fun t => t.pc == 0x0202#16) = true := by
  decide
theorem test_sknp_range :
    stepGives (start 0xE1A1#16 (·.setV 1 0xFF#8)) (fun t => latched t .keyRange 0x0200#16 0x00FF#16) = true := by decide

/-- V-TIR-10. -/
theorem test_ldVxDT :
    stepGives (start 0xF207#16 (·.setDT 0x10#8)) (fun t => t.getV 2 == 0x10#8 && t.DT == 0x0F#8) = true := by decide

/-- V-TIR-11. -/
theorem test_ldDTVx : stepGives (start 0xF215#16 (·.setV 2 0x3C#8)) (fun t => t.DT == 0x3B#8) = true := by decide

/-- V-TIR-14 and V-TIR-15. -/
theorem test_ldSTVx_beeps :
    cycleGives (start 0xF218#16 (·.setV 2 0x01#8)) (fun t r => t.ST == 0x00#8 && r.beep) = true := by decide
theorem test_ldSTVx_zero_is_silent :
    cycleGives (start 0xF218#16 (·.setST 0x01#8)) (fun t r => t.ST == 0x00#8 && !r.beep) = true := by decide

/-- V-TIR-16 and V-TIR-17. -/
theorem test_ldVxK_waits :
    stepGives (start 0xF30A#16 fun s => (s.setDT 0x05#8).setST 0x03#8)
      (· == start 0xF30A#16 fun s => (s.setDT 0x05#8).setST 0x03#8) = true := by decide
theorem test_ldVxK_least :
    stepGives (start 0xF30A#16 fun s => (s.setKeys 0x1080#16).setDT 0x05#8)
      (fun t => t.getV 3 == 0x07#8 && t.pc == 0x0202#16 && t.DT == 0x04#8) = true := by decide

/-! ### The host -/

/-- V-HST-3, 4, 5. -/
theorem test_load_failures :
    said (.load (some [])) Session.start = .loaded .empty ∧ said (.load none) Session.start = .loaded .unreadable ∧
    (did (.load (some [])) Session.start) = Session.start := by decide

/-- V-HST-7 and V-HST-9 to V-HST-11. -/
theorem test_host_writes :
    (did (.load (some [0x60#8, 0x05#8])) Session.start).machine.mem = [(0x200, 0x60#8), (0x201, 0x05#8)] ∧
    (did (.setKeys 0x8001#16) Session.start).machine.keys = 0x8001#16 ∧
    (did .clearDirty Session.start).machine.dirty = false ∧
    said .readDisplay Session.start = .display Display.clear true := by decide

/-! ### Witnesses: for every obligation with hypotheses, a state and operands that meet them, at the boundaries of each clause

`next s` is the state after the step of `s`, and `ran i s` the state after executing `i`. -/

/-- A state that can fetch `i`: the hypotheses of every statement about a step or a cycle of `i`. -/
def Fetches (s : State) (i : Instr) : Prop :=
  s.FAULT = .none ∧ s.pc.toNat + 1 ≤ 0xFFF ∧ decode s.fetchWord = .ok i

/-- DecodeOfEncodeIsTheInstruction. -/
theorem witness_wellformed :
    WellFormed (.sys 0x0E1#12) ∧ WellFormed .cls ∧ WellFormed (.drw 15 15 0xF#4) ∧ WellFormed (.load 15) := by decide

/-- EncodeOfDecodeIsTheWord. -/
theorem witness_decodes : decode 0xDAB5#16 = .ok (.drw 10 11 0x5#4) ∧ decode 0x0000#16 = .ok (.sys 0x000#12) := by
  decide

/-- StepRunsTheDecodedInstruction: a form that completes, one that faults, one that waits; at 0xFFE, the last address. -/
theorem witness_step_runs :
    Fetches (start 0x6A05#16 (·.setPc 0x0FFE#16)) (.ldImm 10 0x05#8) ∧ Fetches (start 0x00EE#16 asB) .ret ∧
    (ran .ret (start 0x00EE#16 asB).advance).FAULT ≠ .none ∧ Fetches (start 0xF30A#16 asB) (.ldVxK 3) ∧
    waits (.ldVxK 3) (start 0xF30A#16 asB) = true := by
  refine ⟨⟨rfl, ?_, ?_⟩, ⟨rfl, ?_, ?_⟩, ?_, ⟨rfl, ?_, ?_⟩, ?_⟩ <;> decide

/-- FetchReadsTwoBytesOrFaults, both sides of the last fetchable address, with a recognized and an unrecognized word. -/
theorem witness_fetch :
    ((start 0x1300#16 (·.setPc 0x0FFE#16)).FAULT = .none ∧
      (start 0x1300#16 (·.setPc 0x0FFE#16)).pc.toNat + 1 ≤ 0xFFF ∧ decode 0x1300#16 = .ok (.jp 0x300#12) ∧
      decode 0x5121#16 = .error (.unrecognized 0x5121#16)) ∧
    ((State.reset.setPc 0x0FFF#16).FAULT = .none ∧ (State.reset.setPc 0x0FFF#16).pc.toNat + 1 > 0xFFF) := by
  refine ⟨⟨rfl, ?_, ?_, ?_⟩, rfl, ?_⟩ <;> decide

/-- UnrecognizedWordIsANoOp. -/
theorem witness_unrecognized :
    (start 0x5121#16 asB).FAULT = .none ∧ (start 0x5121#16 asB).pc.toNat + 1 ≤ 0xFFF ∧
    decode (start 0x5121#16 asB).fetchWord = .error (.unrecognized 0x5121#16) := by
  refine ⟨rfl, ?_, ?_⟩ <;> decide

/-- TimersCountDownInCompletedCycles, first clause: a form that completes, and an unrecognized word. -/
theorem witness_completes :
    Completes (start 0x6A05#16 asB) (ran (.ldImm 10 0x05#8) (start 0x6A05#16 asB).advance) ∧
    Completes (start 0x5121#16 asB) (start 0x5121#16 asB).advance :=
  ⟨.inr ⟨.ldImm 10 0x05#8, by decide, rfl, rfl, rfl⟩, .inl ⟨⟨.unrecognized 0x5121#16, by decide⟩, rfl⟩⟩

/-- TimersCountDownInCompletedCycles, second clause: a cycle that waits completes nothing. -/
theorem witness_does_not_complete :
    (∀ t, ¬ Completes (start 0xF30A#16 asB) t) ∧
    ∃ u r, cycle (start 0xF30A#16 asB) = .next (u, r) := by
  have hd : decode (start 0xF30A#16 asB).fetchWord = .ok (.ldVxK 3) := by decide
  refine ⟨?_, _, _, rfl⟩
  rintro t (⟨⟨r, hr⟩, _⟩ | ⟨i, hi, _, _, hw⟩)
  · rw [hd] at hr
    cases hr
  · rw [hd] at hi
    cases hi
    revert hw
    decide

/-- CycleReportsDisplayBeepAndFault: cycles with each report set. -/
theorem witness_reports :
    cycleGives (start 0x00E0#16 asB) (fun _ r => r.displayChanged) = true ∧
    cycleGives (start 0x6000#16 (·.setST 0x01#8)) (fun _ r => r.beep) = true ∧
    cycleGives (start 0x00EE#16 asB) (fun _ r => r.fault == .stackUnderflow) = true := by decide

/-- LatchedMachineDoesNothing, and an operation of the host on a latched machine. -/
theorem witness_latched :
    (State.reset.takeFault .fetchRange 0x1000).FAULT ≠ .none ∧
    hostStep (.setKeys 0x0001#16) { machine := State.reset.takeFault .fetchRange 0x1000, loadable := false } =
      .next ({ machine := (State.reset.takeFault .fetchRange 0x1000).setKeys 0x0001#16, loadable := false },
        .nothing) :=
  ⟨by decide, rfl⟩

/-- FaultingCycleChangesOnlyTheLatch. -/
theorem witness_faulting_cycle :
    (start 0x00EE#16 asB).FAULT = .none ∧
    ∃ u r, cycle (start 0x00EE#16 asB) = .next (u, r) ∧ u.FAULT ≠ .none :=
  ⟨rfl, _, _, rfl, by decide⟩

/-- FaultsAreRaisedExactlyWhenDue: each fault is due somewhere, at the boundary of its condition. -/
theorem witness_due_fetchRange : Due (State.reset.setPc 0x0FFF#16) 0x1000 .fetchRange := by
  refine ⟨?_, ?_⟩ <;> decide

theorem witness_due_dataRange :
    Due (start 0xF033#16 (·.setI 0x0FFE#16)) 0x1000 .dataRange ∧
    Due (start 0xF155#16 (·.setI 0x0FFF#16)) 0x1000 .dataRange ∧
    Due (start 0xF165#16 (·.setI 0x0FFF#16)) 0x1000 .dataRange ∧
    Due (start 0xD012#16 (·.setI 0x0FFF#16)) 0x1000 .dataRange := by
  refine ⟨⟨by decide, .ldB 0, by decide, ?_, by decide⟩, ⟨by decide, .dump 1, by decide, ?_, by decide⟩,
    ⟨by decide, .load 1, by decide, ?_, by decide⟩, ⟨by decide, .drw 0 1 0x2#4, by decide, ?_, by decide⟩⟩ <;>
  · unfold touchesAbove
    decide

theorem witness_due_stack :
    Due (start 0x2400#16 (withStack 16#5 State.reset.stack)) 0x400 .stackOverflow ∧
    Due (start 0x00EE#16 asB) 0 .stackUnderflow :=
  ⟨⟨by decide, 0x400#12, by decide, rfl, by decide⟩, by decide, by decide, rfl, rfl⟩

theorem witness_due_keyRange : Due (start 0xE19E#16 (·.setV 1 0x10#8)) 0x10 .keyRange :=
  ⟨by decide, 1, .inl (by decide), by decide, by decide⟩

/-- StepAlwaysAnswersANextState and FaultsAreRaisedExactlyWhenDue: SP at its two ends. -/
theorem witness_SP_in_range :
    State.reset.SP.toNat ≤ 16 ∧ (withStack 16#5 State.reset.stack State.reset).SP.toNat ≤ 16 := by decide

/-- CallAndRetStopOnlyAboveSixteen: the first SP out of range, and that the stop is then real. -/
theorem witness_SP_out_of_range :
    (withStack 17#5 State.reset.stack State.reset).SP.toNat > 16 ∧
    exec .ret (withStack 17#5 State.reset.stack State.reset) = .fault .stackPointerOutOfRange ∧
    exec (.call 0x300#12) (withStack 17#5 State.reset.stack State.reset) = .fault .stackPointerOutOfRange :=
  ⟨by decide, rfl, rfl⟩

/-- StepKeepsTheStateInvariant: with SP, `pc` and a saved `pc` at their bounds, before a step. -/
theorem witness_inv :
    Inv (start 0x2300#16 asB) ∧ step (start 0x2300#16 asB) = .next (next (start 0x2300#16 asB)) ∧
    Inv ((withStack 16#5 (Vector.replicate 16 0x1000#16) State.reset).setPc 0x10FE#16) := by
  refine ⟨⟨?_, ?_, ?_, ?_⟩, rfl, ⟨?_, ?_, ?_, ?_⟩⟩ <;> decide

/-- StepKeepsTheLatchTruthful: a clear latch before a step that sets it, and the set latch after it. -/
theorem witness_latch_truth :
    LatchTruth (start 0x00EE#16 asB) ∧ step (start 0x00EE#16 asB) = .next (next (start 0x00EE#16 asB)) ∧
    LatchTruth (next (start 0x00EE#16 asB)) :=
  ⟨⟨fun _ => ⟨rfl, rfl⟩, fun h => absurd rfl h, fun h => absurd rfl h⟩, rfl,
    ⟨fun h => by revert h; decide, fun _ => rfl,
      fun _ => ⟨0, ⟨by decide, by decide, rfl, rfl⟩, rfl⟩⟩⟩

theorem session_start_inv : SessionInv Session.start :=
  ⟨⟨rfl, by decide, by decide, by decide⟩,
    ⟨fun _ => ⟨rfl, rfl⟩, fun h => absurd rfl h, fun h => absurd rfl h⟩, fun _ => rfl⟩

/-- HostOperationsKeepTheSessionInvariant: every operation answers from the session a RESET opens. -/
theorem witness_session :
    SessionInv Session.start ∧
    hostStep (.load (some [0x00#8, 0xEE#8])) Session.start =
      .next (did (.load (some [0x00#8, 0xEE#8])) Session.start, .loaded .ok) ∧
    hostStep (.cycle 0xB7#8) Session.start =
      .next (did (.cycle 0xB7#8) Session.start, said (.cycle 0xB7#8) Session.start) :=
  ⟨session_start_inv, rfl, rfl⟩

/-- ReachableMachinesCanAlwaysCycle, with a machine that has faulted: LOAD of 00 EE, then one CYCLE. -/
theorem witness_reachable_faulted :
    Reachable (did (.cycle 0x00#8) (did (.load (some [0x00#8, 0xEE#8])) Session.start)) ∧
    (did (.cycle 0x00#8) (did (.load (some [0x00#8, 0xEE#8])) Session.start)).machine.FAULT ≠ .none :=
  ⟨.next (.cycle 0x00#8) _ _ (said (.cycle 0x00#8) (did (.load (some [0x00#8, 0xEE#8])) Session.start))
    (.next (.load (some [0x00#8, 0xEE#8])) _ _ (.loaded .ok) .start rfl) rfl, by decide⟩

/-- FormsWriteOnlyTheirMatrixRow: forms of every family that go on. -/
theorem witness_forms_go_on :
    exec (.call 0x300#12) State.reset = .next (ran (.call 0x300#12) State.reset) ∧
    (ran (.call 0x300#12) State.reset).FAULT = .none ∧
    exec (.addReg 0 1) State.reset = .next (ran (.addReg 0 1) State.reset) ∧
    (ran (.addReg 0 1) State.reset).FAULT = .none ∧
    exec (.dump 15) State.reset = .next (ran (.dump 15) State.reset) ∧ (ran (.dump 15) State.reset).FAULT = .none ∧
    exec (.ldB 0) State.reset = .next (ran (.ldB 0) State.reset) ∧ (ran (.ldB 0) State.reset).FAULT = .none ∧
    exec (.drw 0 1 0xF#4) State.reset = .next (ran (.drw 0 1 0xF#4) State.reset) ∧
    (ran (.drw 0 1 0xF#4) State.reset).FAULT = .none ∧
    exec (.ldSTVx 2) State.reset = .next (ran (.ldSTVx 2) State.reset) ∧ (ran (.ldSTVx 2) State.reset).FAULT = .none :=
  ⟨rfl, rfl, rfl, rfl, rfl, rfl, rfl, rfl, rfl, rfl, rfl, rfl⟩

/-- TimersNeverRiseByThemselves: a step of a form that writes no timer. -/
theorem witness_timer_step :
    step (start 0x6000#16 (·.setDT 0x01#8)) = .next (next (start 0x6000#16 (·.setDT 0x01#8))) ∧
    (∀ x, decode (start 0x6000#16 (·.setDT 0x01#8)).fetchWord ≠ .ok (.ldDTVx x)) ∧
    (∀ x, decode (start 0x6000#16 (·.setDT 0x01#8)).fetchWord ≠ .ok (.ldSTVx x)) := by
  refine ⟨rfl, ?_, ?_⟩ <;> decide

/-- RetPopsTheSavedPc: SP = 1, 16 and 0. -/
theorem witness_ret_SP :
    (withStack 1#5 State.reset.stack State.reset).SP.toNat = (0 : Fin 16).val + 1 ∧
    (withStack 16#5 State.reset.stack State.reset).SP.toNat = (15 : Fin 16).val + 1 ∧ State.reset.SP.toNat = 0 := by
  decide

/-- CallPushesTheReturnAddress: SP = 0, 15 and 16. -/
theorem witness_call_SP :
    State.reset.SP.toNat = (0 : Fin 16).val ∧
    (withStack 15#5 State.reset.stack State.reset).SP.toNat = (15 : Fin 16).val ∧
    (withStack 16#5 State.reset.stack State.reset).SP.toNat = 16 := by decide

/-- The decoding clauses of the statements about one form or family: a word with each key. -/
theorem witness_keys :
    opOf 0x1ABC#16 = 0x1#4 ∧ opOf 0x2300#16 = 0x2#4 ∧ opOf 0x3310#16 = 0x3#4 ∧ opOf 0x4311#16 = 0x4#4 ∧
    (opOf 0x5120#16 = 0x5#4 ∧ nOf 0x5120#16 = 0x0#4) ∧ opOf 0x6A05#16 = 0x6#4 ∧ opOf 0x7203#16 = 0x7#4 ∧
    (opOf 0x845E#16 = 0x8#4 ∧ nOf 0x845E#16 = 0xE#4) ∧ (opOf 0x9120#16 = 0x9#4 ∧ nOf 0x9120#16 = 0x0#4) ∧
    opOf 0xA2F0#16 = 0xA#4 ∧ opOf 0xB123#16 = 0xB#4 ∧ opOf 0xC30F#16 = 0xC#4 ∧ opOf 0xDAB5#16 = 0xD#4 ∧
    (opOf 0xE19E#16 = 0xE#4 ∧ nnOf 0xE19E#16 = 0x9E#8) ∧ (opOf 0xF165#16 = 0xF#4 ∧ nnOf 0xF165#16 = 0x65#8) ∧
    (opOf 0x0123#16 = 0x0#4 ∧ 0x0123#16 ≠ 0x00E0#16 ∧ 0x0123#16 ≠ 0x00EE#16) := by decide

/-- The same, for every key of groups 8, E and F. -/
theorem witness_subkeys :
    (∀ n ∈ [0x0#4, 0x1#4, 0x2#4, 0x3#4, 0x4#4, 0x5#4, 0x6#4, 0x7#4, 0xE#4],
      opOf (0x8450#16 ||| n.setWidth 16) = 0x8#4 ∧ nOf (0x8450#16 ||| n.setWidth 16) = n) ∧
    (∀ nn ∈ [0x9E#8, 0xA1#8],
      opOf (0xE100#16 ||| nn.setWidth 16) = 0xE#4 ∧ nnOf (0xE100#16 ||| nn.setWidth 16) = nn) ∧
    (∀ nn ∈ [0x07#8, 0x0A#8, 0x15#8, 0x18#8, 0x1E#8, 0x29#8, 0x33#8, 0x55#8, 0x65#8],
      opOf (0xF100#16 ||| nn.setWidth 16) = 0xF#4 ∧ nnOf (0xF100#16 ||| nn.setWidth 16) = nn) := by decide

/-- LdBStoresTheThreeDigits: `I` at the last address that is in range, and at the first that is not. -/
theorem witness_ldB_range :
    (State.reset.setI 0x0FFD#16).mem.wf = true ∧ (State.reset.setI 0x0FFD#16).I.toNat + 2 ≤ 0xFFF ∧
    (State.reset.setI 0x0FFE#16).mem.wf = true ∧ (State.reset.setI 0x0FFE#16).I.toNat + 2 > 0xFFF := by decide

/-- DumpStoresV0ToVx and LoadReadsV0ToVx: x = 15 and x = 0, in range and past it. -/
theorem witness_dump_load_range :
    (State.reset.setI 0x0FF0#16).mem.wf = true ∧ (State.reset.setI 0x0FF0#16).I.toNat + (15 : Reg).val ≤ 0xFFF ∧
    (State.reset.setI 0x0FF1#16).mem.wf = true ∧ (State.reset.setI 0x0FF1#16).I.toNat + (15 : Reg).val > 0xFFF ∧
    (State.reset.setI 0x0FFF#16).I.toNat + (0 : Reg).val ≤ 0xFFF ∧
    (State.reset.setI 0x1000#16).I.toNat + (0 : Reg).val > 0xFFF := by decide

/-- DrwXorsTheSpriteAndReportsCollision: the range clauses, where no rows meets the largest `I`. -/
theorem witness_drw_range :
    (0x0#4).toNat = 0 ∧ (State.reset.setI 0x0FFF#16).I.toNat + (0x1#4).toNat - 1 ≤ 0xFFF ∧
    ((0x2#4).toNat > 0 ∧ (State.reset.setI 0x0FFF#16).I.toNat + (0x2#4).toNat - 1 > 0xFFF) := by decide

/-- The same: a set bit of the sprite on the last cell of the frame, lit and unlit. -/
theorem witness_drw_bit :
    SpriteBit (((State.reset.setV 0 63#8).setV 1 31#8).setI 0x0000#16) 0 1 0x1#4 63 31 ∧
    (((State.reset.setV 0 63#8).setV 1 31#8).setI 0x0000#16).cell (63 + 64 * 31) = false ∧
    SpriteBit ((((State.reset.setV 0 63#8).setV 1 31#8).setI 0x0000#16).setDisp (Display.flip Display.clear 63 31))
      0 1 0x1#4 63 31 ∧
    ((((State.reset.setV 0 63#8).setV 1 31#8).setI 0x0000#16).setDisp
      (Display.flip Display.clear 63 31)).cell (63 + 64 * 31) = true := by
  refine ⟨?_, ?_, ?_, ?_⟩ <;> first | decide | (unfold SpriteBit; decide)

/-- DrawingTwiceRestoresTheDisplay: glyph 0 twice at column 0, row 0. -/
theorem witness_draw_twice :
    exec (.drw 0 1 0x5#4) State.reset = .next (ran (.drw 0 1 0x5#4) State.reset) ∧
    (ran (.drw 0 1 0x5#4) State.reset).FAULT = .none ∧
    (ran (.drw 0 1 0x5#4) State.reset).getV 0 = State.reset.getV 0 ∧
    (ran (.drw 0 1 0x5#4) State.reset).getV 1 = State.reset.getV 1 ∧
    exec (.drw 0 1 0x5#4) (ran (.drw 0 1 0x5#4) State.reset) =
      .next (ran (.drw 0 1 0x5#4) (ran (.drw 0 1 0x5#4) State.reset)) ∧
    State.reset.cell 0 = false ∧ (ran (.drw 0 1 0x5#4) State.reset).cell 0 = true :=
  ⟨rfl, rfl, by decide, by decide, rfl, by decide, by decide⟩

/-- RndMasksTheRandomByte: a byte handed in, and none. -/
theorem witness_rnd :
    (State.reset.setRndIn (some 0xB7#8)).rndIn = some 0xB7#8 ∧ State.reset.rndIn = none := ⟨rfl, rfl⟩

/-- KeySkipsTestTheNamedKey: the last key index and the first value that is none; the key pressed and not. -/
theorem witness_key_range :
    ((State.reset.setV 1 0x0F#8).getV 1).toNat ≤ 0x0F ∧ ((State.reset.setV 1 0x10#8).getV 1).toNat > 0x0F ∧
    (State.reset.setKeys 0x8000#16).keys.getLsbD 15 = true ∧ State.reset.keys.getLsbD 15 = false := by decide

/-- TimerTransfersMoveOneByte: cycles of the three forms. -/
theorem witness_timer_transfers :
    Fetches (start 0xF207#16 asB) (.ldVxDT 2) ∧ Fetches (start 0xF215#16 asB) (.ldDTVx 2) ∧
    Fetches (start 0xF218#16 asB) (.ldSTVx 2) := by
  refine ⟨⟨rfl, ?_, ?_⟩, ⟨rfl, ?_, ?_⟩, ⟨rfl, ?_, ?_⟩⟩ <;> decide

/-- AwaitKeyTakesTheLeastKeyOrWaits: key 0 of two, only key 15, no key. -/
theorem witness_await_key :
    ((State.reset.setKeys 0x8001#16).keys.getLsbD 0 = true ∧
      ∀ j < 0, (State.reset.setKeys 0x8001#16).keys.getLsbD j = false) ∧
    ((State.reset.setKeys 0x8000#16).keys.getLsbD 15 = true ∧
      ∀ j < 15, (State.reset.setKeys 0x8000#16).keys.getLsbD j = false) ∧
    (∀ j < 16, State.reset.keys.getLsbD j = false) ∧ Fetches (start 0xF30A#16 asB) (.ldVxK 3) := by
  refine ⟨?_, ?_, ?_, rfl, ?_, ?_⟩ <;> decide

/-- LoadCopiesTheImage and FailedLoadChangesNothing: the shortest image, the longest, and one byte more. -/
theorem witness_load :
    Session.start.loadable = true ∧ Session.start.machine.mem.wf = true ∧
    (1 ≤ [0xAB#8].length ∧ [0xAB#8].length ≤ 3584) ∧ (List.replicate 3584 0xAB#8).length = 3584 ∧
    (List.replicate 3585 0xAB#8).length > 3584 := by
  refine ⟨rfl, rfl, by decide, List.length_replicate, ?_⟩
  rw [List.length_replicate]
  decide

/-- LoadIsRefusedAfterACycleOrALoad: the CYCLE and the LOAD, each with an operation after it that answers. -/
theorem witness_load_refused :
    hostStep (.cycle 0x00#8) Session.start =
      .next (did (.cycle 0x00#8) Session.start, said (.cycle 0x00#8) Session.start) ∧
    WithoutReset (did (.cycle 0x00#8) Session.start) (did .clearDirty (did (.cycle 0x00#8) Session.start)) ∧
    hostStep (.load (some [0x12#8, 0x00#8])) Session.start =
      .next (did (.load (some [0x12#8, 0x00#8])) Session.start, .loaded .ok) ∧
    WithoutReset (did (.load (some [0x12#8, 0x00#8])) Session.start)
      (did (.setKeys 0x0001#16) (did (.load (some [0x12#8, 0x00#8])) Session.start)) ∧
    (did (.cycle 0x00#8) Session.start).loadable = false :=
  ⟨rfl, .next .clearDirty _ _ .nothing .refl (by decide) rfl, rfl,
    .next (.setKeys 0x0001#16) _ _ .nothing .refl (by decide) rfl, rfl⟩

/-- RandomByteMattersOnlyToRnd. -/
theorem witness_not_rnd : ∀ x nn, decode (Session.start.machine).fetchWord ≠ .ok (.rnd x nn) := by
  have h : decode (Session.start.machine).fetchWord = .ok (.sys 0x000#12) := by decide
  intro x nn e
  rw [h] at e
  cases e

/-- CALL 0x300 at 0x200 with RET at 0x300 (V-CTL-3). -/
def calling : State := start 0x2300#16 (·.writeBytes 0x300 [0x00#8, 0xEE#8])

/-- CallThenRetComesBack. -/
theorem witness_call_then_ret :
    Fetches calling (.call 0x300#12) ∧ calling.SP.toNat < 16 ∧ (0x300#12).toNat + 1 ≤ 0xFFF ∧
    step calling = .next (next calling) ∧ decode (next calling).fetchWord = .ok .ret ∧
    step (next calling) = .next (next (next calling)) := by
  refine ⟨⟨rfl, ?_, ?_⟩, ?_, ?_, rfl, ?_, rfl⟩ <;> decide

/-- LD DT, V0 at 0x200 and LD V1, DT at 0x202 (V-TIR-19). -/
def timing : State := start 0xF015#16 fun s => (s.setV 0 0x05#8).writeBytes 0x202 [0xF1#8, 0x07#8]

/-- DelayTimerReadsBackOneLess. -/
theorem witness_delay :
    Fetches timing (.ldDTVx 0) ∧ timing.pc.toNat + 3 ≤ 0xFFF ∧ step timing = .next (next timing) ∧
    decode (next timing).fetchWord = .ok (.ldVxDT 1) ∧ step (next timing) = .next (next (next timing)) := by
  refine ⟨⟨rfl, ?_, ?_⟩, ?_, rfl, ?_, rfl⟩ <;> decide

/-- LD [I], V1 at 0x200 with I = 0x202: it writes the word after it. -/
def storing : State := start 0xF155#16 fun s => (s.setI 0x0202#16).setV 0 0x12#8

/-- StoreIsSeenByTheNextFetch. -/
theorem witness_store :
    storing.mem.wf = true ∧ Fetches storing (.dump 1) ∧ storing.pc.toNat + 3 ≤ 0xFFF ∧
    storing.I.toNat = storing.pc.toNat + 2 ∧ step storing = .next (next storing) := by
  refine ⟨?_, ⟨rfl, ?_, ?_⟩, ?_, ?_, rfl⟩ <;> decide

/-- LoadImmediateStepSetsOneRegister and JumpStepGoesToNNN, the jump to itself too, at the last address that can be
fetched from. -/
theorem witness_whole_steps :
    Fetches (start 0x6A05#16 (·.setPc 0x0FFE#16)) (.ldImm 10 0x05#8) ∧
    opOf (start 0x6A05#16 (·.setPc 0x0FFE#16)).fetchWord = 0x6#4 ∧
    Fetches (start 0x1FFE#16 (·.setPc 0x0FFE#16)) (.jp 0xFFE#12) ∧
    opOf (start 0x1FFE#16 (·.setPc 0x0FFE#16)).fetchWord = 0x1#4 ∧
    (nnnOf (start 0x1FFE#16 (·.setPc 0x0FFE#16)).fetchWord).toNat = (start 0x1FFE#16 (·.setPc 0x0FFE#16)).pc.toNat := by
  refine ⟨⟨rfl, ?_, ?_⟩, ?_, ⟨rfl, ?_, ?_⟩, ?_, ?_⟩ <;> decide

/-- DecodeAndEncodeFollowThePatternTable: a word with one pattern, with none, and with two. -/
theorem witness_patterns :
    hasPattern (Config.patterns.pattern .seReg) 0x5120#16 = true ∧
    (∀ f, hasPattern (Config.patterns.pattern f) 0x5121#16 = false) ∧
    hasPattern (Config.patterns.pattern .sys) 0x0EE0#16 = true ∧
    hasPattern (Config.patterns.pattern .sys) 0x00EE#16 = true ∧
    hasPattern (Config.patterns.pattern .ret) 0x00EE#16 = true := by
  refine ⟨by decide, fun f => ?_, by decide, by decide, by decide⟩
  cases f <;> decide

end Sys2Proof.Tests.Slice0
end

section
/-! The pattern table of the forms (30_encoding.md R84, R85): which rows can hold of one word, what the first row found
says of a word, and that an instruction's word has its form's row. -/

namespace Sys2Proof

/-! ### Two rows that hold of one word -/

/-- Every form is tried by the decoder. -/
theorem mem_decodeOrder (f : Config.Form) : f ∈ Config.decodeOrder := by cases f <;> decide

/-- Two patterns that hold of one word agree on the bits that both of them fix. -/
theorem values_agree_of_hasPattern {p q : Config.Pattern} {w : Word} (hp : hasPattern p w = true)
    (hq : hasPattern q w = true) : p.value &&& q.mask = q.value &&& p.mask := by
  rw [hasPattern, beq_iff_eq] at hp hq
  calc p.value &&& q.mask
    _ = w &&& p.mask &&& q.mask := by rw [hp]
    _ = w &&& q.mask &&& p.mask := by ac_rfl
    _ = q.value &&& p.mask := by rw [hq]

/-- The only rows of the table that agree on the bits both fix are SYS with CLS, and SYS with RET (R84). -/
theorem sys_with_cls_or_ret_of_values_agree : ∀ f ∈ Config.decodeOrder, ∀ g ∈ Config.decodeOrder, f ≠ g →
    (Config.pattern f).value &&& (Config.pattern g).mask = (Config.pattern g).value &&& (Config.pattern f).mask →
    f = .sys ∧ (g = .cls ∨ g = .ret) ∨ g = .sys ∧ (f = .cls ∨ f = .ret) := by
  decide

theorem word_eq_of_hasPattern_cls_or_ret {w : Word} {f : Config.Form} (h : f = .cls ∨ f = .ret)
    (hf : hasPattern (Config.pattern f) w = true) : w = 0x00E0#16 ∨ w = 0x00EE#16 := by
  rw [hasPattern_eq_hasKeys] at hf
  rcases h with rfl | rfl
  · exact .inl (beq_iff_eq.mp hf)
  · exact .inr (beq_iff_eq.mp hf)

theorem patterns_overlap_only_on_cls_and_ret {w : Word} {f g : Config.Form} (hne : f ≠ g)
    (hf : hasPattern (Config.pattern f) w = true) (hg : hasPattern (Config.pattern g) w = true) :
    (f = .sys ∨ g = .sys) ∧ (w = 0x00E0#16 ∨ w = 0x00EE#16) := by
  rcases sys_with_cls_or_ret_of_values_agree f (mem_decodeOrder f) g (mem_decodeOrder g) hne
    (values_agree_of_hasPattern hf hg) with ⟨hsys, hword⟩ | ⟨hsys, hword⟩
  · exact ⟨.inl hsys, word_eq_of_hasPattern_cls_or_ret hword hg⟩
  · exact ⟨.inr hsys, word_eq_of_hasPattern_cls_or_ret hword hf⟩

/-! ### The form that the decoder finds -/

theorem hasPattern_of_formOf_eq_some {w : Word} {f : Config.Form} (h : formOf Config.patterns w = some f) :
    hasPattern (Config.pattern f) w = true :=
  List.find?_some (p := fun g => hasPattern (Config.pattern g) w) h

theorem formOf_eq_none_iff (w : Word) :
    formOf Config.patterns w = none ↔ ∀ f, hasPattern (Config.pattern f) w = false := by
  simp only [formOf, List.find?_eq_none, Bool.not_eq_true]
  exact ⟨fun h f => h f (mem_decodeOrder f), fun h f _ => h f⟩

/-- 00E0 and 00EE have the pattern of SYS too, but theirs is tried first (R84, D3). -/
theorem ne_cls_and_ret_of_formOf_eq_sys {w : Word} (h : formOf Config.patterns w = some .sys) :
    w ≠ 0x00E0#16 ∧ w ≠ 0x00EE#16 := by
  constructor <;> rintro rfl <;> exact absurd h (by decide)

theorem formOf_eq_some_of_hasPattern {w : Word} {f : Config.Form} (hf : hasPattern (Config.pattern f) w = true)
    (hsys : f = .sys → w ≠ 0x00E0#16 ∧ w ≠ 0x00EE#16) : formOf Config.patterns w = some f := by
  cases hw : formOf Config.patterns w with
  | none => exact absurd ((formOf_eq_none_iff w).mp hw f) (by simp [hf])
  | some g =>
    by_contra hne
    have hgf : g ≠ f := fun e => hne (congrArg some e)
    obtain ⟨hform, hword⟩ := patterns_overlap_only_on_cls_and_ret hgf (hasPattern_of_formOf_eq_some hw) hf
    have hnot : w ≠ 0x00E0#16 ∧ w ≠ 0x00EE#16 := by
      rcases hform with rfl | rfl
      · exact ne_cls_and_ret_of_formOf_eq_sys hw
      · exact hsys rfl
    exact hword.elim hnot.1 hnot.2

theorem decode_of_formOf_eq_some {w : Word} {f : Config.Form} (h : formOf Config.patterns w = some f) :
    decode w = .ok (buildInstr w f) := by
  rw [decode, decodeWith, h]

theorem decode_of_formOf_eq_none {w : Word} (h : formOf Config.patterns w = none) :
    decode w = .error (.unrecognized w) := by
  rw [decode, decodeWith, h]

/-! ### The word of an instruction -/

/-- The word of every instruction holds the key fields of its form. -/
theorem hasKeys_encode (i : Instr) : hasKeys (encode i) i.form = true := by
  cases i <;> simp [Instr.form, hasKeys]

/-! ### The obligation -/

/-- Settles O57: rows of different forms agree on their common bits only for SYS with CLS or RET, so the first row found
is the form's own; the encoder's word is read back field by field. -/
theorem decodeAndEncodeFollowThePatternTable : Obligations.DecodeAndEncodeFollowThePatternTable := by
  unfold Obligations.DecodeAndEncodeFollowThePatternTable
  refine ⟨?pattern, ?noPattern, ?encoder, ?overlap⟩
  case pattern =>
    intro w f hf hsys
    exact decode_of_formOf_eq_some (formOf_eq_some_of_hasPattern hf hsys)
  case noPattern =>
    intro w hnone
    exact decode_of_formOf_eq_none ((formOf_eq_none_iff w).mpr hnone)
  case encoder =>
    intro i
    exact (hasPattern_eq_hasKeys (encode i) i.form).trans (hasKeys_encode i)
  case overlap =>
    intro w f g hne hf hg
    exact patterns_overlap_only_on_cls_and_ret hne hf hg

end Sys2Proof
end

section
/-! Control transfer: JP and the compare skips (41_control.md R120 to R127), and the whole step of a jump. -/

namespace Sys2Proof.Machine

/-! ### Words and meanings -/

/-- A word that holds the key fields of a form other than SYS is that form, its operands read from its fields. -/
theorem decode_of_hasKeys {w : Word} {f : Config.Form} (hf : f ≠ .sys) (hk : hasKeys w f = true) :
    decode w = .ok (buildInstr w f) :=
  decode_of_formOf_eq_some
    (formOf_eq_some_of_hasPattern ((hasPattern_eq_hasKeys w f).trans hk) fun h => absurd h hf)

theorem decode_jp {w : Word} (h : opOf w = 0x1#4) : decode w = .ok (.jp (nnnOf w)) :=
  decode_of_hasKeys (f := .jp) (by decide) (by simp [hasKeys, h])

theorem exec_jp (nnn : Imm12) (s : State) : exec (.jp nnn) s = .next (s.setPc (addrOf nnn)) := rfl

theorem exec_seImm (x : Reg) (nn : Byte) (s : State) :
    exec (.seImm x nn) s = .next (s.skipIf (s.getV x == nn)) := rfl

theorem exec_sneImm (x : Reg) (nn : Byte) (s : State) :
    exec (.sneImm x nn) s = .next (s.skipIf (s.getV x != nn)) := rfl

theorem exec_seReg (x y : Reg) (s : State) :
    exec (.seReg x y) s = .next (s.skipIf (s.getV x == s.getV y)) := rfl

theorem exec_sneReg (x y : Reg) (s : State) :
    exec (.sneReg x y) s = .next (s.skipIf (s.getV x != s.getV y)) := rfl

/-- A form whose meaning is a skip moves `pc` two further exactly when its condition holds, and changes nothing else
(R120). -/
theorem skip_moves_only_pc {i : Instr} {s : State} {c : Bool} {P : Prop} [Decidable P]
    (he : exec i s = .next (s.skipIf c)) (hc : c = true ↔ P) :
    ∃ t, exec i s = .next t ∧ t.pc = (if P then s.pc + 2#16 else s.pc) ∧ ChangesOnly s t (fun k => k = .pc) :=
  ⟨s.skipIf c, he, by simp only [State.skipIf_pc, hc], changesOnly_skipIf s c⟩

/-! ### A whole step -/

/-- A step whose form neither faults nor waits is the fetch advance, the form's meaning and the timer update (40_cycle.md
R108). -/
theorem step_of_exec {s t : State} {i : Instr} (hl : s.FAULT = .none) (hp : s.pc.toNat + 1 ≤ 0xFFF)
    (hd : decode s.fetchWord = .ok i) (he : exec i s.advance = .next t) (ht : t.FAULT = .none)
    (hw : waits i s.advance = false) : step s = .next t.tick := by
  have hc : cycle s = .next (finish i s.advance t) := by rw [cycle_decoded hl hp hd, execute, he]
  rw [step, hc, finish, if_neg (fun h => h ht), hw]
  rfl

theorem step_jp {s : State} {nnn : Imm12} (hl : s.FAULT = .none) (hp : s.pc.toNat + 1 ≤ 0xFFF)
    (hd : decode s.fetchWord = .ok (.jp nnn)) : step s = .next (s.advance.setPc (addrOf nnn)).tick :=
  step_of_exec hl hp hd (exec_jp nnn s.advance) hl rfl

/-- The fetch advance, a write to `pc` and the timer update change `pc` and the timers only. -/
theorem changesOnly_advance_setPc_tick (s : State) (a : Word) :
    ChangesOnly s (s.advance.setPc a).tick (fun c => c = .pc ∨ c = .DT ∨ c = .ST) := by
  have hfetch : ChangesOnly s s.advance (fun c => c = .pc) := changesOnly_setPc s _
  have hjump : ChangesOnly s (s.advance.setPc a) (fun c => c = .pc) := hfetch.trans (changesOnly_setPc s.advance a)
  exact (hjump.mono fun _ => .inl).trans ((changesOnly_tick _).mono fun _ => .inr)

/-! ### The obligations -/

/-- Settles O24: the word's key is its top nibble, and the meaning is one write to `pc`. -/
theorem jpSetsPcToNNN : Obligations.JpSetsPcToNNN := by
  unfold Obligations.JpSetsPcToNNN
  refine ⟨fun w h => decode_jp h, fun nnn s => ?_⟩
  exact ⟨s.setPc (addrOf nnn), exec_jp nnn s, addrOf_toNat nnn, changesOnly_setPc s _⟩

/-- Settles O26: each of the four meanings is a skip on its own comparison. -/
theorem skipsMovePcWhenTheirConditionHolds : Obligations.SkipsMovePcWhenTheirConditionHolds := by
  unfold Obligations.SkipsMovePcWhenTheirConditionHolds
  refine ⟨?group3, ?group4, ?group5, ?group9, fun x y nn s => ⟨?seImm, ?sneImm, ?seReg, ?sneReg⟩⟩
  case group3 => exact fun w h => decode_of_hasKeys (f := .seImm) (by decide) (by simp [hasKeys, h])
  case group4 => exact fun w h => decode_of_hasKeys (f := .sneImm) (by decide) (by simp [hasKeys, h])
  case group5 => exact fun w h hn => decode_of_hasKeys (f := .seReg) (by decide) (by simp [hasKeys, h, hn])
  case group9 => exact fun w h hn => decode_of_hasKeys (f := .sneReg) (by decide) (by simp [hasKeys, h, hn])
  case seImm => exact skip_moves_only_pc (exec_seImm x nn s) beq_iff_eq
  case sneImm => exact skip_moves_only_pc (exec_sneImm x nn s) bne_iff_ne
  case seReg => exact skip_moves_only_pc (exec_seReg x y s) beq_iff_eq
  case sneReg => exact skip_moves_only_pc (exec_sneReg x y s) bne_iff_ne

/-- Settles O56: the step of a jump is the fetch advance, the write to `pc` and the timer update; for a jump to itself the
address written is the one fetched from. -/
theorem jumpStepGoesToNNN : Obligations.JumpStepGoesToNNN := by
  unfold Obligations.JumpStepGoesToNNN
  intro s hl hp hop
  refine ⟨_, step_jp hl hp (decode_jp hop), addrOf_toNat _, ?self, ?delay, ?sound, changesOnly_advance_setPc_tick s _⟩
  case self => exact fun h => BitVec.eq_of_toNat_eq ((addrOf_toNat _).trans h)
  case delay => exact tickByte_toNat s.DT
  case sound => exact tickByte_toNat s.ST

end Sys2Proof.Machine
end

section
/-! The immediate forms of the register unit, LD Vx, NN and ADD Vx, NN (42_alu.md R141, R142), and the whole step of a
load. -/

namespace Sys2Proof.Machine

/-! ### Words and meanings -/

theorem decode_ldImm {w : Word} (h : opOf w = 0x6#4) : decode w = .ok (.ldImm (xOf w) (nnOf w)) :=
  decode_of_hasKeys (f := .ldImm) (by decide) (by simp [hasKeys, h])

theorem decode_addImm {w : Word} (h : opOf w = 0x7#4) : decode w = .ok (.addImm (xOf w) (nnOf w)) :=
  decode_of_hasKeys (f := .addImm) (by decide) (by simp [hasKeys, h])

theorem exec_ldImm (x : Reg) (nn : Byte) (s : State) : exec (.ldImm x nn) s = .next (s.setV x nn) := rfl

theorem exec_addImm (x : Reg) (nn : Byte) (s : State) :
    exec (.addImm x nn) s = .next (s.setV x (s.getV x + nn)) := rfl

theorem State.getV_setV_same (s : State) (x : Reg) (v : Byte) : (s.setV x v).getV x = v := by simp

/-- A form whose meaning is one register write leaves the value there and changes nothing else. -/
theorem write_changes_only_Vx {i : Instr} {s : State} {x : Reg} {v : Byte} (he : exec i s = .next (s.setV x v)) :
    ∃ t, exec i s = .next t ∧ t.getV x = v ∧ ChangesOnly s t (fun c => c = .V x) :=
  ⟨s.setV x v, he, s.getV_setV_same x v, changesOnly_setV s x v⟩

/-! ### A whole step -/

theorem step_ldImm {s : State} {x : Reg} {nn : Byte} (hl : s.FAULT = .none) (hp : s.pc.toNat + 1 ≤ 0xFFF)
    (hd : decode s.fetchWord = .ok (.ldImm x nn)) : step s = .next (s.advance.setV x nn).tick :=
  step_of_exec hl hp hd (exec_ldImm x nn s.advance) hl rfl

/-- The fetch advance and the timer update add `pc` and the timers to what a form changes in between. -/
theorem changesOnly_advance_tick {s t : State} {may : Component → Prop} (h : ChangesOnly s.advance t may) :
    ChangesOnly s t.tick (fun c => may c ∨ c = .pc ∨ c = .DT ∨ c = .ST) := by
  have hfetch : ChangesOnly s s.advance (fun c => c = .pc) := changesOnly_setPc s _
  have htimers : ChangesOnly t t.tick (fun c => c = .DT ∨ c = .ST) := changesOnly_tick t
  exact (hfetch.mono fun _ hc => .inr (.inl hc)).trans
    ((h.mono fun _ => .inl).trans (htimers.mono fun _ hc => .inr (.inr hc)))

/-! ### The obligations -/

/-- Settles O29: each word's key is its top nibble, and each meaning is one write to Vx; the byte sum wraps at 256. -/
theorem immediateLoadAndAddWriteOnlyVx : Obligations.ImmediateLoadAndAddWriteOnlyVx := by
  unfold Obligations.ImmediateLoadAndAddWriteOnlyVx
  refine ⟨fun w h => decode_ldImm h, fun w h => decode_addImm h, fun x nn s => ⟨?load, ?add⟩⟩
  case load => exact write_changes_only_Vx (exec_ldImm x nn s)
  case add =>
    obtain ⟨t, he, hsum, hframe⟩ := write_changes_only_Vx (exec_addImm x nn s)
    exact ⟨t, he, by rw [hsum, BitVec.toNat_add], hframe⟩

/-- Settles O55: the step of a load is the fetch advance, the write to Vx and the timer update. -/
theorem loadImmediateStepSetsOneRegister : Obligations.LoadImmediateStepSetsOneRegister := by
  unfold Obligations.LoadImmediateStepSetsOneRegister
  intro s hl hp hop
  refine ⟨_, step_ldImm hl hp (decode_ldImm hop), ?value, ?pc, ?delay, ?sound,
    changesOnly_advance_tick (changesOnly_setV s.advance _ _)⟩
  case value => exact s.advance.getV_setV_same _ _
  case pc => exact State.advance_pc_toNat hp
  case delay => exact tickByte_toNat s.DT
  case sound => exact tickByte_toNat s.ST

end Sys2Proof.Machine
end

section
/-! The forms that set the index register, LD I, NNN and LD F, Vx (43_index_memory.md R171, R173). -/

namespace Sys2Proof.Machine

/-! ### Words and meanings -/

theorem decode_ldI {w : Word} (h : opOf w = 0xA#4) : decode w = .ok (.ldI (nnnOf w)) :=
  decode_of_hasKeys (f := .ldI) (by decide) (by simp [hasKeys, h])

theorem decode_ldF {w : Word} (h : opOf w = 0xF#4) (hnn : nnOf w = 0x29#8) : decode w = .ok (.ldF (xOf w)) :=
  decode_of_hasKeys (f := .ldF) (by decide) (by simp [hasKeys, h, hnn])

theorem exec_ldI (nnn : Imm12) (s : State) : exec (.ldI nnn) s = .next (s.setI (addrOf nnn)) := rfl

theorem exec_ldF (x : Reg) (s : State) : exec (.ldF x) s = .next (s.setI (glyphAddr (s.getV x))) := rfl

/-- A form whose meaning is one write to `I` leaves the address there and changes nothing else. -/
theorem write_changes_only_I {i : Instr} {s : State} {a : Word} {n : Nat} (he : exec i s = .next (s.setI a))
    (ha : a.toNat = n) : ∃ t, exec i s = .next t ∧ t.I.toNat = n ∧ ChangesOnly s t (fun c => c = .I) :=
  ⟨s.setI a, he, by rw [State.setI_I, ha], changesOnly_setI s a⟩

/-! ### The obligation -/

/-- Settles O34: each meaning is one write to `I`; the glyph address is the whole product, since five times a byte fits in
sixteen bits. -/
theorem indexLoadsWriteOnlyI : Obligations.IndexLoadsWriteOnlyI := by
  unfold Obligations.IndexLoadsWriteOnlyI
  refine ⟨fun w h => decode_ldI h, fun w h hnn => decode_ldF h hnn, fun nnn s => ?load, fun x s => ?glyph⟩
  case load => exact write_changes_only_I (exec_ldI nnn s) (addrOf_toNat nnn)
  case glyph => exact write_changes_only_I (exec_ldF x s) (glyphAddr_toNat (s.getV x))

end Sys2Proof.Machine
end

section
/-! The timer transfers LD Vx, DT, LD DT, Vx and LD ST, Vx (45_timers_input_random.md R203 to R205), and the timer update
at the end of their cycles. -/

namespace Sys2Proof.Machine

/-! ### Words and meanings -/

theorem decode_ldVxDT {w : Word} (h : opOf w = 0xF#4) (hnn : nnOf w = 0x07#8) : decode w = .ok (.ldVxDT (xOf w)) :=
  decode_of_hasKeys (f := .ldVxDT) (by decide) (by simp [hasKeys, h, hnn])

theorem decode_ldDTVx {w : Word} (h : opOf w = 0xF#4) (hnn : nnOf w = 0x15#8) : decode w = .ok (.ldDTVx (xOf w)) :=
  decode_of_hasKeys (f := .ldDTVx) (by decide) (by simp [hasKeys, h, hnn])

theorem decode_ldSTVx {w : Word} (h : opOf w = 0xF#4) (hnn : nnOf w = 0x18#8) : decode w = .ok (.ldSTVx (xOf w)) :=
  decode_of_hasKeys (f := .ldSTVx) (by decide) (by simp [hasKeys, h, hnn])

theorem exec_ldVxDT (x : Reg) (s : State) : exec (.ldVxDT x) s = .next (s.setV x s.DT) := rfl

theorem exec_ldDTVx (x : Reg) (s : State) : exec (.ldDTVx x) s = .next (s.setDT (s.getV x)) := rfl

theorem exec_ldSTVx (x : Reg) (s : State) : exec (.ldSTVx x) s = .next (s.setST (s.getV x)) := rfl

/-! ### A whole cycle -/

theorem cycle_ldVxDT {s : State} {x : Reg} (hl : s.FAULT = .none) (hp : s.pc.toNat + 1 ≤ 0xFFF)
    (hd : decode s.fetchWord = .ok (.ldVxDT x)) : ∃ r, cycle s = .next ((s.advance.setV x s.DT).tick, r) :=
  step_next_iff.mp (step_of_exec hl hp hd (exec_ldVxDT x s.advance) hl rfl)

theorem cycle_ldDTVx {s : State} {x : Reg} (hl : s.FAULT = .none) (hp : s.pc.toNat + 1 ≤ 0xFFF)
    (hd : decode s.fetchWord = .ok (.ldDTVx x)) : ∃ r, cycle s = .next ((s.advance.setDT (s.getV x)).tick, r) :=
  step_next_iff.mp (step_of_exec hl hp hd (exec_ldDTVx x s.advance) hl rfl)

theorem cycle_ldSTVx {s : State} {x : Reg} (hl : s.FAULT = .none) (hp : s.pc.toNat + 1 ≤ 0xFFF)
    (hd : decode s.fetchWord = .ok (.ldSTVx x)) : ∃ r, cycle s = .next ((s.advance.setST (s.getV x)).tick, r) :=
  step_next_iff.mp (step_of_exec hl hp hd (exec_ldSTVx x s.advance) hl rfl)

/-! ### The obligation -/

/-- Settles O44: each meaning is one write, and its cycle ends in the timer update, which counts down the timer that the
form read or has just written. -/
theorem timerTransfersMoveOneByte : Obligations.TimerTransfersMoveOneByte := by
  unfold Obligations.TimerTransfersMoveOneByte
  refine ⟨fun w h hnn => decode_ldVxDT h hnn, fun w h hnn => decode_ldDTVx h hnn,
    fun w h hnn => decode_ldSTVx h hnn, fun x s => ⟨?readDelay, ?writeDelay, ?writeSound, fun hl hp =>
      ⟨fun hd => ?readDelayCycle, fun hd => ?writeDelayCycle, fun hd => ?writeSoundCycle⟩⟩⟩
  case readDelay => exact write_changes_only_Vx (exec_ldVxDT x s)
  case writeDelay => exact ⟨_, exec_ldDTVx x s, s.setDT_DT _, changesOnly_setDT s _⟩
  case writeSound => exact ⟨_, exec_ldSTVx x s, s.setST_ST _, changesOnly_setST s _⟩
  case readDelayCycle =>
    obtain ⟨r, hc⟩ := cycle_ldVxDT hl hp hd
    exact ⟨_, r, hc, s.advance.getV_setV_same x s.DT, tickByte_toNat s.DT⟩
  case writeDelayCycle =>
    obtain ⟨r, hc⟩ := cycle_ldDTVx hl hp hd
    exact ⟨_, r, hc, tickByte_toNat (s.getV x)⟩
  case writeSoundCycle =>
    obtain ⟨r, hc⟩ := cycle_ldSTVx hl hp hd
    exact ⟨_, r, hc, tickByte_toNat (s.getV x)⟩

end Sys2Proof.Machine
end

section
/-! The host's operations between cycles, SET_KEYS, READ_DISPLAY and CLEAR_DIRTY (60_exceptions.md R242, R244, R245). -/

namespace Sys2Proof.Machine

/-! ### What each operation does -/

theorem hostStep_setKeys (k : BitVec 16) (h : Session) :
    hostStep (.setKeys k) h = .next ({ h with machine := h.machine.setKeys k }, .nothing) := rfl

theorem hostStep_clearDirty (h : Session) :
    hostStep .clearDirty h = .next ({ h with machine := h.machine.setDirty false }, .nothing) := rfl

theorem hostStep_readDisplay (h : Session) :
    hostStep .readDisplay h = .next (h, .display h.machine.disp h.machine.dirty) := rfl

theorem State.key_setKeys (s : State) (k : BitVec 16) (j : Nat) : (s.setKeys k).key j = k.getLsbD j := rfl

/-! ### The obligation -/

/-- Settles O50: SET_KEYS is one write to `keys`, CLEAR_DIRTY one write to `dirty`, and READ_DISPLAY answers the display
of the session it leaves as it was. -/
theorem hostWritesOnlyKeysAndDirty : Obligations.HostWritesOnlyKeysAndDirty := by
  unfold Obligations.HostWritesOnlyKeysAndDirty
  refine fun h => ⟨fun k => ?setKeys, ?clearDirty, ?readDisplay⟩
  case setKeys =>
    exact ⟨_, hostStep_setKeys k h, fun j _ => h.machine.key_setKeys k j, changesOnly_setKeys h.machine k⟩
  case clearDirty =>
    exact ⟨_, hostStep_clearDirty h, h.machine.setDirty_dirty false, changesOnly_setDirty h.machine false⟩
  case readDisplay => exact ⟨_, hostStep_readDisplay h, fun _ _ => rfl⟩

end Sys2Proof.Machine
end

section
/-! The decoder and the encoder (30_encoding.md R70 to R84): the round trips, the fields as slices of the word, and the
words that are no instruction. -/

namespace Sys2Proof

/-! ### From an instruction to its word and back -/

/-- The operands of an instruction are read back from the fields of its word (R72, R73). -/
theorem buildInstr_encode (i : Instr) : buildInstr (encode i) i.form = i := by
  cases i <;> simp [Instr.form, buildInstr]

/-- The word of a well-formed SYS is neither 00E0 nor 00EE (R84). -/
theorem encode_ne_cls_and_ret_of_sys {i : Instr} (h : WellFormed i) (hi : i.form = .sys) :
    encode i ≠ 0x00E0#16 ∧ encode i ≠ 0x00EE#16 := by
  cases i with
  | sys nnn =>
    obtain ⟨hcls, hret⟩ : nnn ≠ 0x0E0#12 ∧ nnn ≠ 0x0EE#12 := by simpa [WellFormed, Instr.wellFormed] using h
    have hnnn : nnnOf (encode (.sys nnn)) = nnn := by simp
    constructor <;> intro he <;> rw [he] at hnnn
    · exact hcls hnnn.symm
    · exact hret hnnn.symm
  | _ => cases hi

theorem decode_encode {i : Instr} (h : WellFormed i) : decode (encode i) = .ok i := by
  have hf : formOf Config.patterns (encode i) = some i.form :=
    formOf_eq_some_of_hasPattern ((hasPattern_eq_hasKeys _ _).trans (hasKeys_encode i))
      (encode_ne_cls_and_ret_of_sys h)
  rw [decode_of_formOf_eq_some hf, buildInstr_encode]

/-! ### From a word to its instruction and back -/

theorem wordNNN_fields {w : Word} {op : Nibble} (h : opOf w = op) : wordNNN op (nnnOf w) = w :=
  h ▸ (word_eq_wordNNN w).symm

theorem wordXNN_fields {w : Word} {op : Nibble} (h : opOf w = op) : wordXNN op (xOf w) (nnOf w) = w :=
  h ▸ (word_eq_wordXNN w).symm

theorem wordXYN_fields {w : Word} {op : Nibble} (h : opOf w = op) : wordXYN op (xOf w) (yOf w) (nOf w) = w :=
  h ▸ (word_eq_wordXYN w).symm

/-- A word that holds the key fields of a form is the word of the instruction built from its fields, format by format
(R73). -/
theorem encode_buildInstr {w : Word} {f : Config.Form} (h : hasKeys w f = true) : encode (buildInstr w f) = w := by
  cases f with
  | cls => exact encode_cls.trans (beq_iff_eq.mp h).symm
  | ret => exact encode_ret.trans (beq_iff_eq.mp h).symm
  | sys | jp | call | ldI | jpV0 => simpa [buildInstr] using wordNNN_fields (beq_iff_eq.mp h)
  | seImm | sneImm | ldImm | addImm | rnd => simpa [buildInstr] using wordXNN_fields (beq_iff_eq.mp h)
  | drw => simpa [buildInstr] using wordXYN_fields (beq_iff_eq.mp h)
  | seReg | sneReg | ldReg | orReg | andReg | xorReg | addReg | subReg | shr | subnReg | shl =>
    simp only [hasKeys, Bool.and_eq_true, beq_iff_eq] at h
    simpa [buildInstr, h.2] using wordXYN_fields h.1
  | skp | sknp | ldVxDT | ldVxK | ldDTVx | ldSTVx | addI | ldF | ldB | dump | load =>
    simp only [hasKeys, Bool.and_eq_true, beq_iff_eq] at h
    simpa [buildInstr, h.2] using wordXNN_fields h.1

/-- The instruction of a recognized word is the one built from the form that the decoder finds. -/
theorem exists_formOf_of_decode_eq_ok {w : Word} {i : Instr} (h : decode w = .ok i) :
    ∃ f, formOf Config.patterns w = some f ∧ buildInstr w f = i := by
  cases hf : formOf Config.patterns w with
  | some f =>
    rw [decode_of_formOf_eq_some hf] at h
    exact ⟨f, rfl, Except.ok.inj h⟩
  | none =>
    rw [decode_of_formOf_eq_none hf] at h
    cases h

/-- The one check of well-formedness is that of a word of SYS (R84). -/
theorem wellFormed_buildInstr {w : Word} {f : Config.Form} (hk : hasKeys w f = true)
    (h : f = .sys → w ≠ 0x00E0#16 ∧ w ≠ 0x00EE#16) : WellFormed (buildInstr w f) := by
  cases f with
  | sys =>
    obtain ⟨hcls, hret⟩ := h rfl
    have hw : wordNNN 0x0#4 (nnnOf w) = w := wordNNN_fields (beq_iff_eq.mp hk)
    suffices nnnOf w ≠ 0x0E0#12 ∧ nnnOf w ≠ 0x0EE#12 by simpa [WellFormed, Instr.wellFormed, buildInstr]
    constructor <;> intro he <;> rw [he] at hw
    · exact hcls hw.symm
    · exact hret hw.symm
  | _ => rfl

/-! ### The words that are no instruction (R82) -/

theorem decodeGroup5_eq_error_iff {w : Word} {r : Reject} :
    decodeGroup5 w = .error r ↔ r = .unrecognized w ∧ nOf w ≠ 0x0#4 := by
  unfold decodeGroup5
  split <;> simp [*, eq_comm (b := r)]

theorem decodeGroup9_eq_error_iff {w : Word} {r : Reject} :
    decodeGroup9 w = .error r ↔ r = .unrecognized w ∧ nOf w ≠ 0x0#4 := by
  unfold decodeGroup9
  split <;> simp [*, eq_comm (b := r)]

theorem decodeGroup8_eq_error_iff {w : Word} {r : Reject} :
    decodeGroup8 w = .error r ↔
      r = .unrecognized w ∧ (nOf w).toNat ∈ [0x8, 0x9, 0xA, 0xB, 0xC, 0xD, 0xF] := by
  rcases nibble_cases (nOf w) with h | h | h | h | h | h | h | h | h | h | h | h | h | h | h | h <;>
    simp [decodeGroup8, h, eq_comm (b := r)]

theorem decodeGroupE_eq_error_iff {w : Word} {r : Reject} :
    decodeGroupE w = .error r ↔ r = .unrecognized w ∧ nnOf w ∉ [0x9E#8, 0xA1#8] := by
  unfold decodeGroupE
  split <;> simp_all [eq_comm (b := r)]

theorem decodeGroupF_eq_error_iff {w : Word} {r : Reject} :
    decodeGroupF w = .error r ↔ r = .unrecognized w ∧
      nnOf w ∉ [0x07#8, 0x0A#8, 0x15#8, 0x18#8, 0x1E#8, 0x29#8, 0x33#8, 0x55#8, 0x65#8] := by
  unfold decodeGroupF
  split <;> simp_all [eq_comm (b := r)]

theorem decodeGroup0_ne_error (w : Word) (r : Reject) : decodeGroup0 w ≠ .error r := by
  unfold decodeGroup0
  split
  · simp
  · split <;> simp

/-! ### The obligations -/

/-- Settles O3: the word of a well-formed instruction has the pattern of its form and of no form tried before it, and
its fields are the operands. -/
theorem decodeOfEncodeIsTheInstruction : Obligations.DecodeOfEncodeIsTheInstruction := by
  unfold Obligations.DecodeOfEncodeIsTheInstruction
  exact fun i h => decode_encode h

/-- Settles O4: the form found fixes the key fields, and the operands hold the others. -/
theorem encodeOfDecodeIsTheWord : Obligations.EncodeOfDecodeIsTheWord := by
  unfold Obligations.EncodeOfDecodeIsTheWord
  intro w i h
  obtain ⟨f, hf, rfl⟩ := exists_formOf_of_decode_eq_ok h
  have hk : hasKeys w f = true := (hasPattern_eq_hasKeys w f).symm.trans (hasPattern_of_formOf_eq_some hf)
  exact ⟨encode_buildInstr hk, wellFormed_buildInstr hk fun e => ne_cls_and_ret_of_formOf_eq_sys (e ▸ hf)⟩

/-- Settles O5: along the decode tree, only groups 5, 8, 9, E and F reject, each by its own key. -/
theorem unrecognizedWordsAreThoseListed : Obligations.UnrecognizedWordsAreThoseListed := by
  unfold Obligations.UnrecognizedWordsAreThoseListed
  intro w r
  rw [decode_eq_decodeTree]
  rcases nibble_cases (opOf w) with h | h | h | h | h | h | h | h | h | h | h | h | h | h | h | h <;>
    simp [decodeTree, h, decodeGroup0_ne_error, decodeGroup5_eq_error_iff, decodeGroup8_eq_error_iff,
      decodeGroup9_eq_error_iff, decodeGroupE_eq_error_iff, decodeGroupF_eq_error_iff, ← BitVec.toNat_inj]

/-- Settles O1: each word is a closed term. -/
theorem decodesTheWordsOfTheSpec : Obligations.DecodesTheWordsOfTheSpec := by
  unfold Obligations.DecodesTheWordsOfTheSpec
  decide

/-- Settles O2: a slice of bits is a quotient and a remainder by powers of two. -/
theorem fieldsAreSlicesOfTheWord : Obligations.FieldsAreSlicesOfTheWord := by
  unfold Obligations.FieldsAreSlicesOfTheWord
  intro w
  have hw : w.toNat < 65536 := w.isLt
  refine ⟨?op, ?x, ?y, ?n, ?nn, ?nnn⟩
  case op =>
    simp only [opOf, BitVec.extractLsb'_toNat, Nat.shiftRight_eq_div_pow]
    omega
  case x => simp [xOf, regOf, xNibble, Nat.shiftRight_eq_div_pow]
  case y => simp [yOf, regOf, yNibble, Nat.shiftRight_eq_div_pow]
  case n => simp [nOf]
  case nn => simp [nnOf]
  case nnn => simp [nnnOf]

end Sys2Proof
end

section
/-! What the execute step of a form can do, said once for all 35 forms: it raises the fault that is due, it goes on
inside its row of the access matrix, or it stops for SP above 16 (10_state.md R27, R36; 60_exceptions.md R225 to
R228). -/

namespace Sys2Proof.Machine

/-! ### The fault that a form raises -/

/-- In `s`, the check of form `i` fails, with this code and info (60_exceptions.md R225 to R228). The fetch fault is
not a form's own. -/
def FailsCheck (s : State) (i : Instr) (info : Nat) : FaultCode → Prop
  | .none => False
  | .fetchRange => False
  | .dataRange => touchesAbove s i ∧ info = max s.I.toNat 0x1000
  | .stackOverflow => ∃ nnn, i = .call nnn ∧ s.SP = 16#5 ∧ info = nnn.toNat
  | .stackUnderflow => i = .ret ∧ s.SP = 0#5 ∧ info = 0
  | .keyRange => ∃ x, (i = .skp x ∨ i = .sknp x) ∧ (s.getV x).toNat > 0x0F ∧ info = (s.getV x).toNat

theorem FailsCheck.code_ne_none {s : State} {i : Instr} {n : Nat} {c : FaultCode} (h : FailsCheck s i n c) :
    c ≠ .none := by
  rintro rfl
  exact h

/-- The fault entry of a cycle is due exactly when the check of the decoded form fails there. -/
theorem due_of_failsCheck {s : State} {i : Instr} {n : Nat} {c : FaultCode} (hp : s.pc.toNat + 1 ≤ 0xFFF)
    (hd : decode s.fetchWord = .ok i) (h : FailsCheck s i n c) : Due s n c := by
  cases c with
  | none | fetchRange => exact h.elim
  | dataRange => exact ⟨hp, i, hd, h⟩
  | stackOverflow =>
    obtain ⟨nnn, rfl, hsp⟩ := h
    exact ⟨hp, nnn, hd, hsp⟩
  | stackUnderflow =>
    obtain ⟨rfl, hsp⟩ := h
    exact ⟨hp, hd, hsp⟩
  | keyRange =>
    obtain ⟨x, rfl | rfl, hx⟩ := h
    · exact ⟨hp, x, .inl hd, hx⟩
    · exact ⟨hp, x, .inr hd, hx⟩

/-- A fault other than the fetch's is due because a form is decoded whose check fails. -/
theorem exists_failsCheck_of_due {s : State} {n : Nat} {c : FaultCode} (h : Due s n c) (hc : c ≠ .fetchRange) :
    s.pc.toNat + 1 ≤ 0xFFF ∧ ∃ i, decode s.fetchWord = .ok i ∧ FailsCheck s i n c := by
  cases c with
  | none => exact h.elim
  | fetchRange => exact absurd rfl hc
  | dataRange => exact h
  | stackOverflow =>
    obtain ⟨hp, nnn, hd, hsp⟩ := h
    exact ⟨hp, .call nnn, hd, nnn, rfl, hsp⟩
  | stackUnderflow =>
    obtain ⟨hp, hd, hsp⟩ := h
    exact ⟨hp, .ret, hd, rfl, hsp⟩
  | keyRange =>
    obtain ⟨hp, x, hd | hd, hx⟩ := h
    · exact ⟨hp, .skp x, hd, x, .inl rfl, hx⟩
    · exact ⟨hp, .sknp x, hd, x, .inr rfl, hx⟩

/-- The check of CheckRange is the first thing that each form with a range does (43_index_memory.md R170). -/
theorem exec_of_touchesAbove {s : State} {i : Instr} (h : touchesAbove s i) :
    exec i s = s.raise .dataRange (max s.I.toNat 0x1000) := by
  cases i with
  | ldB x => exact State.checkRange_of_gt _ h
  | dump x => exact State.checkRange_of_gt _ h
  | load x => exact State.checkRange_of_gt _ h
  | drw x y n =>
    obtain ⟨hn, hI⟩ := h
    rcases execDrw_cases x y n s with ⟨hin, _⟩ | ⟨_, he⟩
    · omega
    · exact he
  | _ => exact h.elim

/-- A form whose check fails raises that fault. -/
theorem exec_of_failsCheck {s : State} {i : Instr} {n : Nat} {c : FaultCode} (h : FailsCheck s i n c) :
    exec i s = s.raise c n := by
  cases c with
  | none | fetchRange => exact h.elim
  | dataRange =>
    obtain ⟨ht, rfl⟩ := h
    exact exec_of_touchesAbove ht
  | stackOverflow =>
    obtain ⟨nnn, rfl, hsp, rfl⟩ := h
    exact if_pos hsp
  | stackUnderflow =>
    obtain ⟨rfl, hsp, rfl⟩ := h
    exact if_pos hsp
  | keyRange =>
    obtain ⟨x, rfl | rfl, hx, rfl⟩ := h
    · exact if_pos hx
    · exact if_pos hx

/-! ### Frames of the forms that write more than one piece of the state -/

theorem changesOnly_setI_setV (s : State) (a : Word) (v : Byte) :
    ChangesOnly s ((s.setI a).setV VF v) (fun c => c = .I ∨ c = .V VF) :=
  ((changesOnly_setI s a).mono fun _ => .inl).trans ((changesOnly_setV _ VF v).mono fun _ => .inr)

/-- RET's pop leaves the entries and moves SP and `pc` (41_control.md R121). -/
theorem changesOnly_pop_setPc (s : State) (sp : BitVec 5) (a : Word) :
    ChangesOnly s ((s.setStack s.stack sp).setPc a) (fun c => c = .SP ∨ c = .pc) := by
  refine ((changesOnly_setStack s s.stack sp).mono ?_).trans ((changesOnly_setPc _ a).mono fun _ => .inr)
  rintro c (⟨k, hk, _⟩ | hc)
  · exact absurd rfl hk
  · exact .inl hc

/-- CALL's push writes the entry at SP, SP and `pc` (41_control.md R123). -/
theorem changesOnly_push_setPc {s : State} (h : s.SP.toNat < 16) (a b : Word) :
    ChangesOnly s ((s.setStack (s.stack.set s.SP.toNat a) (s.SP + 1#5)).setPc b)
      (fun c => (∃ k : Fin 16, k.val = s.SP.toNat ∧ c = .stack k) ∨ c = .SP ∨ c = .pc) :=
  ((changesOnly_push s a h).mono fun _ => Or.imp_right .inl).trans
    ((changesOnly_setPc _ b).mono fun _ hc => .inr (.inr hc))

theorem changesOnly_useRnd_setV (s : State) (x : Reg) (v : Byte) :
    ChangesOnly s (s.useRnd.setV x v) (fun c => c = .V x ∨ c = .rndIn ∨ c = .draws) :=
  ((changesOnly_useRnd s).mono fun _ => .inr).trans ((changesOnly_setV _ x v).mono fun _ => .inl)

theorem changesOnly_storeDigits (s : State) (v : Byte) :
    ChangesOnly s (s.writeBytes s.I.toNat (bcdDigits v))
      (fun c => ∃ a, s.I.toNat ≤ a ∧ a ≤ s.I.toNat + 2 ∧ c = .mem a) := by
  refine (changesOnly_writeBytes s s.I.toNat (bcdDigits v)).mono ?_
  rintro c ⟨a, hlo, hhi, hc⟩
  exact ⟨a, hlo, Nat.lt_succ_iff.mp hhi, hc⟩

@[simp] theorem State.length_regsUpTo (s : State) (x : Reg) : (s.regsUpTo x).length = x.val + 1 := by
  simp [State.regsUpTo]

/-- LD [I], Vx stores the bytes from `I` to `I + x` and moves `I` (43_index_memory.md R175). -/
theorem changesOnly_dump (s : State) (x : Reg) :
    ChangesOnly s ((s.writeBytes s.I.toNat (s.regsUpTo x)).bumpI x)
      (fun c => c = .I ∨ ∃ a, s.I.toNat ≤ a ∧ a ≤ s.I.toNat + x.val ∧ c = .mem a) := by
  refine ((changesOnly_writeBytes s s.I.toNat (s.regsUpTo x)).mono ?_).trans
    ((changesOnly_setI _ _).mono fun _ => .inl)
  rintro c ⟨a, hlo, hhi, hc⟩
  rw [State.length_regsUpTo] at hhi
  exact .inr ⟨a, hlo, by omega, hc⟩

theorem changesOnly_loadRegs_bumpI (s : State) (x : Reg) :
    ChangesOnly s ((s.loadRegs x).bumpI x) (fun c => c = .I ∨ ∃ k : Reg, k ≤ x ∧ c = .V k) :=
  ((changesOnly_loadRegs s x).mono fun _ => .inr).trans ((changesOnly_setI _ _).mono fun _ => .inl)

/-! ### The execute step -/

/-- The memory of `t` is that of `s`, or that of `s` with consecutive bytes stored. -/
def StoresOnly (s t : State) : Prop := t.mem = s.mem ∨ ∃ a vs, t.mem = s.mem.writeList a vs

/-- The three ways the execute step of `i` can end in `s`. -/
inductive ExecEnd (i : Instr) (s : State) : Prop
  | raises (c : FaultCode) (n : Nat) (hcheck : FailsCheck s i n c) (he : exec i s = s.raise c n)
  | goesOn (t : State) (he : exec i s = .next t) (hframe : ChangesOnly s t (mayWrite s i)) (hmem : StoresOnly s t)
  | stops (hsp : 16 < s.SP.toNat) (hi : i = .ret ∨ ∃ nnn, i = .call nnn)
    (he : exec i s = .fault .stackPointerOutOfRange)

theorem execEnd_of_failsCheck {i : Instr} {s : State} {c : FaultCode} {n : Nat} (h : FailsCheck s i n c) :
    ExecEnd i s :=
  .raises c n h (exec_of_failsCheck h)

theorem execEnd (i : Instr) (s : State) : ExecEnd i s := by
  cases i with
  | cls => exact .goesOn _ rfl (changesOnly_setDisp s _) (.inl rfl)
  | sys nnn => exact .goesOn _ rfl (ChangesOnly.refl s _) (.inl rfl)
  | jp nnn => exact .goesOn _ rfl (changesOnly_setPc s _) (.inl rfl)
  | jpV0 nnn => exact .goesOn _ rfl (changesOnly_setPc s _) (.inl rfl)
  | seImm x nn => exact .goesOn _ rfl (changesOnly_skipIf s _) (.inl (State.skipIf_mem s _))
  | sneImm x nn => exact .goesOn _ rfl (changesOnly_skipIf s _) (.inl (State.skipIf_mem s _))
  | seReg x y => exact .goesOn _ rfl (changesOnly_skipIf s _) (.inl (State.skipIf_mem s _))
  | sneReg x y => exact .goesOn _ rfl (changesOnly_skipIf s _) (.inl (State.skipIf_mem s _))
  | ldImm x nn => exact .goesOn _ rfl (changesOnly_setV s x _) (.inl rfl)
  | addImm x nn => exact .goesOn _ rfl (changesOnly_setV s x _) (.inl rfl)
  | ldReg x y => exact .goesOn _ rfl (changesOnly_setV s x _) (.inl rfl)
  | orReg x y => exact .goesOn _ rfl (changesOnly_setV s x _) (.inl rfl)
  | andReg x y => exact .goesOn _ rfl (changesOnly_setV s x _) (.inl rfl)
  | xorReg x y => exact .goesOn _ rfl (changesOnly_setV s x _) (.inl rfl)
  | ldVxDT x => exact .goesOn _ rfl (changesOnly_setV s x _) (.inl rfl)
  | addReg x y => exact .goesOn _ rfl (changesOnly_setVThenFlag s x _ _) (.inl rfl)
  | subReg x y => exact .goesOn _ rfl (changesOnly_setVThenFlag s x _ _) (.inl rfl)
  | shr x y => exact .goesOn _ rfl (changesOnly_setVThenFlag s x _ _) (.inl rfl)
  | subnReg x y => exact .goesOn _ rfl (changesOnly_setVThenFlag s x _ _) (.inl rfl)
  | shl x y => exact .goesOn _ rfl (changesOnly_setVThenFlag s x _ _) (.inl rfl)
  | ldI nnn => exact .goesOn _ rfl (changesOnly_setI s _) (.inl rfl)
  | ldF x => exact .goesOn _ rfl (changesOnly_setI s _) (.inl rfl)
  | addI x => exact .goesOn _ rfl (changesOnly_setI_setV s _ _) (.inl rfl)
  | rnd x nn => exact .goesOn _ rfl (changesOnly_useRnd_setV s x _) (.inl s.useRnd_mem)
  | ldDTVx x => exact .goesOn _ rfl (changesOnly_setDT s _) (.inl rfl)
  | ldSTVx x => exact .goesOn _ rfl (changesOnly_setST s _) (.inl rfl)
  | ldVxK x =>
    rcases execLdVxK_cases x s with ⟨k, _, he⟩ | ⟨_, he⟩
    · exact .goesOn _ he ((changesOnly_setV s x _).mono fun _ => .inl) (.inl rfl)
    · exact .goesOn _ he ((changesOnly_setPc s _).mono fun _ => .inr) (.inl rfl)
  | ret =>
    rcases execRet_cases s with ⟨hsp, _⟩ | ⟨_, _, he⟩ | ⟨hsp, he⟩
    · exact execEnd_of_failsCheck (c := .stackUnderflow) ⟨rfl, BitVec.eq_of_toNat_eq hsp, rfl⟩
    · exact .goesOn _ he (changesOnly_pop_setPc s _ _) (.inl rfl)
    · exact .stops hsp (.inl rfl) he
  | call nnn =>
    rcases execCall_cases nnn s with ⟨hsp, he⟩ | ⟨hsp, _⟩ | ⟨hsp, he⟩
    · exact .goesOn _ he (changesOnly_push_setPc hsp _ _) (.inl rfl)
    · exact execEnd_of_failsCheck (c := .stackOverflow) ⟨nnn, rfl, BitVec.eq_of_toNat_eq hsp, rfl⟩
    · exact .stops hsp (.inr ⟨nnn, rfl⟩) he
  | skp x =>
    rcases execSkp_cases x s with ⟨_, he⟩ | ⟨hx, _⟩
    · exact .goesOn _ he (changesOnly_skipIf s _) (.inl (State.skipIf_mem s _))
    · exact execEnd_of_failsCheck (c := .keyRange) ⟨x, .inl rfl, hx, rfl⟩
  | sknp x =>
    rcases execSknp_cases x s with ⟨_, he⟩ | ⟨hx, _⟩
    · exact .goesOn _ he (changesOnly_skipIf s _) (.inl (State.skipIf_mem s _))
    · exact execEnd_of_failsCheck (c := .keyRange) ⟨x, .inr rfl, hx, rfl⟩
  | ldB x =>
    rcases execLdB_cases x s with ⟨_, he⟩ | ⟨hI, _⟩
    · exact .goesOn _ he (changesOnly_storeDigits s _) (.inr ⟨_, _, rfl⟩)
    · exact execEnd_of_failsCheck (c := .dataRange) ⟨hI, rfl⟩
  | dump x =>
    rcases execDump_cases x s with ⟨_, he⟩ | ⟨hI, _⟩
    · exact .goesOn _ he (changesOnly_dump s x) (.inr ⟨_, _, rfl⟩)
    · exact execEnd_of_failsCheck (c := .dataRange) ⟨hI, rfl⟩
  | load x =>
    rcases execLoad_cases x s with ⟨_, he⟩ | ⟨hI, _⟩
    · exact .goesOn _ he (changesOnly_loadRegs_bumpI s x) (.inl ((State.bumpI_mem _ x).trans (State.loadRegs_mem s x)))
    · exact execEnd_of_failsCheck (c := .dataRange) ⟨hI, rfl⟩
  | drw x y n =>
    rcases execDrw_cases x y n s with ⟨_, he⟩ | ⟨hI, _⟩
    · exact .goesOn _ he (changesOnly_draw_bits s x y n) (.inl rfl)
    · exact execEnd_of_failsCheck (c := .dataRange) ⟨hI, rfl⟩

/-- A form that answers either raised, and then its check failed, or stayed inside its row. -/
theorem exec_next_failsCheck_or_frame {i : Instr} {s t : State} (h : exec i s = .next t) :
    (∃ c n, FailsCheck s i n c ∧ t = s.undoFetch.takeFault c n) ∨ ChangesOnly s t (mayWrite s i) := by
  rcases execEnd i s with ⟨c, n, hcheck, he⟩ | ⟨t', he, hframe, _⟩ | ⟨_, _, he⟩
  · exact .inl ⟨c, n, hcheck, Host.Outcome.next.inj (h.symm.trans he)⟩
  · exact .inr (Host.Outcome.next.inj (he.symm.trans h) ▸ hframe)
  · cases he.symm.trans h

theorem storesOnly_of_exec {i : Instr} {s t : State} (h : exec i s = .next t) : StoresOnly s t := by
  rcases execEnd i s with ⟨c, n, _, he⟩ | ⟨t', he, _, hmem⟩ | ⟨_, _, he⟩
  · cases h.symm.trans he
    exact .inl rfl
  · exact Host.Outcome.next.inj (he.symm.trans h) ▸ hmem
  · cases he.symm.trans h

/-- While SP is in range every form answers a next state. -/
theorem exists_exec_eq_next (i : Instr) {s : State} (hsp : s.SP.toNat ≤ 16) : ∃ t, exec i s = .next t := by
  rcases execEnd i s with ⟨c, n, _, he⟩ | ⟨t, he, _, _⟩ | ⟨hgt, _, _⟩
  · exact ⟨_, he⟩
  · exact ⟨t, he⟩
  · omega

/-! ### The obligations -/

/-- Settles O21: a form that raised has set the latch, and every other end of a form is inside its row. -/
theorem formsWriteOnlyTheirMatrixRow : Obligations.FormsWriteOnlyTheirMatrixRow := by
  unfold Obligations.FormsWriteOnlyTheirMatrixRow
  intro i s t h ht
  rcases exec_next_failsCheck_or_frame h with ⟨c, n, hcheck, rfl⟩ | hframe
  · exact absurd ht hcheck.code_ne_none
  · exact hframe

/-- Settles O15: push and pop answer nothing above 16 entries, and no other end of a form is a stop. -/
theorem callAndRetStopOnlyAboveSixteen : Obligations.CallAndRetStopOnlyAboveSixteen := by
  unfold Obligations.CallAndRetStopOnlyAboveSixteen
  refine ⟨fun s hsp => ⟨?ret, fun nnn => ?call⟩, fun i s f h => ?onlyThese, fun i s r h => ?refusal⟩
  case ret =>
    rcases execRet_cases s with ⟨h, _⟩ | ⟨h, _, _⟩ | ⟨_, he⟩
    · omega
    · omega
    · exact he
  case call =>
    rcases execCall_cases nnn s with ⟨h, _⟩ | ⟨h, _⟩ | ⟨_, he⟩
    · omega
    · omega
    · exact he
  case onlyThese =>
    rcases execEnd i s with ⟨c, n, _, he⟩ | ⟨t, he, _, _⟩ | ⟨hsp, hi, _⟩
    · cases he.symm.trans h
    · cases he.symm.trans h
    · exact ⟨hsp, hi⟩
  case refusal =>
    rcases execEnd i s with ⟨c, n, _, he⟩ | ⟨t, he, _, _⟩ | ⟨_, _, he⟩ <;> cases he.symm.trans h

end Sys2Proof.Machine
end

section
/-! The cycle (40_cycle.md R100 to R108; 60_exceptions.md R221 to R229): the four ways it can end, what it reports,
and when it faults. -/

namespace Sys2Proof.Machine

/-! ### Checks and the fetch advance -/

/-- No check reads `pc`, so the fetch advance makes no difference to it. -/
theorem failsCheck_advance {s : State} {i : Instr} {n : Nat} {c : FaultCode} :
    FailsCheck s.advance i n c ↔ FailsCheck s i n c := by
  cases c <;> exact Iff.rfl

theorem Due.code_ne_none {s : State} {n : Nat} {c : FaultCode} (h : Due s n c) : c ≠ .none := by
  rintro rfl
  exact h

/-- A form writes neither the latch's code nor its registers, except by raising (10_state.md R33). -/
theorem not_mayWrite_of_inLatch (s : State) (i : Instr) {k : Component} (hk : InLatch k) : ¬ mayWrite s i k := by
  rcases hk with rfl | rfl | rfl <;> cases i <;> simp [mayWrite]

/-- A form that leaves the latch set, from a clear one, has failed its check. -/
theorem exists_failsCheck_of_exec {i : Instr} {s t : State} (h : exec i s = .next t) (hs : s.FAULT = .none)
    (ht : t.FAULT ≠ .none) : ∃ c n, FailsCheck s i n c ∧ t = s.undoFetch.takeFault c n := by
  rcases exec_next_failsCheck_or_frame h with hraise | hframe
  · exact hraise
  · have hkeep : t.FAULT = s.FAULT := hframe .FAULT (not_mayWrite_of_inLatch s i (.inl rfl))
    exact absurd (hkeep.trans hs) ht

/-! ### An execute step that completes -/

theorem Completes.FAULT_eq_none {s t : State} (hl : s.FAULT = .none) (h : Completes s t) : t.FAULT = .none := by
  rcases h with ⟨_, rfl⟩ | ⟨_, _, _, ht, _⟩
  · exact hl
  · exact ht

theorem Completes.waits_eq_false {s t : State} (h : Completes s t) {i : Instr} (hd : decode s.fetchWord = .ok i) :
    waits i s = false := by
  rcases h with ⟨⟨r, hr⟩, _⟩ | ⟨j, hj, _, _, hw⟩
  · cases hr.symm.trans hd
  · cases hj.symm.trans hd
    exact hw

/-- A completed execute step leaves everything but `pc` and the row of the form decoded. -/
theorem Completes.unchanged {s t : State} (h : Completes s t) {k : Component} (hpc : k ≠ .pc)
    (hk : ∀ i, decode s.fetchWord = .ok i → ¬ mayWrite s.advance i k) : Unchanged s t k := by
  have hfetch : Unchanged s s.advance k := changesOnly_setPc s _ k hpc
  rcases h with ⟨_, rfl⟩ | ⟨i, hd, he, ht, _⟩
  · exact hfetch
  · rcases exec_next_failsCheck_or_frame he with ⟨c, n, hcheck, rfl⟩ | hframe
    · exact absurd ht hcheck.code_ne_none
    · exact hfetch.trans (hframe k (hk i hd))

theorem Completes.latch_unchanged {s t : State} (h : Completes s t) {k : Component} (hk : InLatch k) :
    Unchanged s t k :=
  h.unchanged (by rcases hk with rfl | rfl | rfl <;> decide) fun i _ => not_mayWrite_of_inLatch s.advance i hk

/-- The cycle of an execute step that completes ends in the timer update, and reports a display change for CLS and DRW
(R105, R106). -/
theorem cycle_of_completes {s t : State} (hl : s.FAULT = .none) (hp : s.pc.toNat + 1 ≤ 0xFFF) (h : Completes s t) :
    ∃ changed : Bool, cycle s = .next (completed t changed) ∧
      (changed = true ↔ decode s.fetchWord = .ok .cls ∨ ∃ x y n, decode s.fetchWord = .ok (.drw x y n)) := by
  rcases h with ⟨⟨r, hr⟩, rfl⟩ | ⟨i, hd, he, ht, hw⟩
  · exact ⟨false, cycle_unrecognized hl hp hr, by simp [hr]⟩
  · refine ⟨changesDisplay i, ?_, by simp [hd, changesDisplay_eq_true]⟩
    rw [cycle_decoded hl hp hd, execute, he]
    simp [finish, ht, waits_advance, hw]

/-! ### The ends of a cycle -/

/-- How a cycle that answers `u` and `r` ended: it found the latch set, it took a fault, its form waits, or its
execute step completed. -/
inductive CycleEnd (s u : State) (r : CycleResult) : Prop
  | latched (hl : s.FAULT ≠ .none) (hu : u = s)
    (hr : r = { displayChanged := false, beep := false, fault := s.FAULT })
  | faulted (hl : s.FAULT = .none) (c : FaultCode) (n : Nat) (hdue : Due s n c) (hu : u = s.takeFault c n)
    (hr : r = { displayChanged := false, beep := false, fault := c })
  | waited (hl : s.FAULT = .none) (x : Reg) (hd : decode s.fetchWord = .ok (.ldVxK x)) (hu : u = s)
    (hr : r = { displayChanged := false, beep := false, fault := .none })
  | completed (hl : s.FAULT = .none) (hp : s.pc.toNat + 1 ≤ 0xFFF) (t : State) (hc : Completes s t) (hu : u = t.tick)
    (hr : r = { displayChanged := r.displayChanged, beep := t.beeps, fault := .none })
    (hdisp : r.displayChanged = true ↔
      decode s.fetchWord = .ok .cls ∨ ∃ x y n, decode s.fetchWord = .ok (.drw x y n))

theorem cycleEnd_of_completes {s t u : State} {r : CycleResult} (h : cycle s = .next (u, r)) (hl : s.FAULT = .none)
    (hp : s.pc.toNat + 1 ≤ 0xFFF) (hc : Completes s t) : CycleEnd s u r := by
  obtain ⟨changed, hcycle, hdisp⟩ := cycle_of_completes hl hp hc
  obtain ⟨rfl, rfl⟩ := Prod.mk.inj (Host.Outcome.next.inj (h.symm.trans hcycle))
  exact .completed hl hp t hc rfl (by rw [hc.FAULT_eq_none hl]) hdisp

theorem cycleEnd_of_cycle {s u : State} {r : CycleResult} (h : cycle s = .next (u, r)) : CycleEnd s u r := by
  rcases cycle_next_cases h with ⟨hl, hq⟩ | ⟨hl, hp, hq⟩ | ⟨hl, hp, hd, _⟩ | ⟨hl, hp, i, t, hd, he, hq⟩
  · obtain ⟨rfl, rfl⟩ := Prod.mk.inj hq
    exact .latched hl rfl rfl
  · obtain ⟨rfl, rfl⟩ := Prod.mk.inj hq
    exact .faulted hl .fetchRange _ ⟨hp, rfl⟩ rfl rfl
  · exact cycleEnd_of_completes h hl hp (.inl ⟨hd, rfl⟩)
  · rcases finish_cases i s.advance t with ⟨ht, hfin⟩ | ⟨ht, hw, hfin⟩ | ⟨ht, hw, _⟩
    · obtain ⟨c, n, hcheck, rfl⟩ := exists_failsCheck_of_exec he hl ht
      obtain ⟨rfl, rfl⟩ := Prod.mk.inj (hq.trans hfin)
      rw [State.undoFetch_advance]
      exact .faulted hl c n (due_of_failsCheck hp hd (failsCheck_advance.mp hcheck)) rfl rfl
    · obtain ⟨⟨x, rfl⟩, hkey⟩ := waits_eq_true.mp hw
      have hback : t = s := by
        rcases execLdVxK_cases x s.advance with ⟨k, hk, _⟩ | ⟨_, hback⟩
        · cases hkey.symm.trans hk
        · exact (Host.Outcome.next.inj (he.symm.trans hback)).trans s.undoFetch_advance
      obtain ⟨rfl, rfl⟩ := Prod.mk.inj (hq.trans hfin)
      rw [hback]
      exact .waited hl x hd rfl (by rw [hl])
    · exact cycleEnd_of_completes h hl hp (.inr ⟨i, hd, he, ht, (waits_advance i s).symm.trans hw⟩)

/-- A fault that is due is taken (R221). -/
theorem cycle_of_due {s : State} {n : Nat} {c : FaultCode} (hl : s.FAULT = .none) (h : Due s n c) :
    cycle s = .next (quiet (s.takeFault c n)) := by
  by_cases hc : c = .fetchRange
  · subst hc
    obtain ⟨hp, rfl⟩ := h
    exact cycle_unfetchable hl hp
  · obtain ⟨hp, i, hd, hcheck⟩ := exists_failsCheck_of_due h hc
    have he : exec i s.advance = .next (s.takeFault c n) := by
      rw [exec_of_failsCheck (failsCheck_advance.mpr hcheck), State.raise_advance]
    rw [cycle_decoded hl hp hd, execute, he]
    simp [finish, h.code_ne_none]

/-- While SP is in range every cycle answers. -/
theorem exists_cycle_eq_next {s : State} (hsp : s.SP.toNat ≤ 16) : ∃ u r, cycle s = .next (u, r) := by
  by_cases hl : s.FAULT = .none
  · by_cases hp : s.pc.toNat + 1 ≤ 0xFFF
    · cases hd : decode s.fetchWord with
      | error r => exact ⟨_, _, cycle_unrecognized hl hp hd⟩
      | ok i =>
        obtain ⟨t, he⟩ := exists_exec_eq_next i (s := s.advance) hsp
        exact ⟨_, _, by rw [cycle_decoded hl hp hd, execute, he]⟩
    · exact ⟨_, _, cycle_unfetchable hl (by omega)⟩
  · exact ⟨_, _, cycle_latched hl⟩

theorem beeps_iff (s : State) : s.beeps = true ↔ s.ST.toNat = 1 := by
  simp [State.beeps, ← BitVec.toNat_inj]

/-- The forms that write a timer (10_state.md R28, R29). -/
theorem mayWrite_DT {s : State} {i : Instr} : mayWrite s i .DT ↔ ∃ x, i = .ldDTVx x := by
  cases i <;> simp [mayWrite]

theorem mayWrite_ST {s : State} {i : Instr} : mayWrite s i .ST ↔ ∃ x, i = .ldSTVx x := by
  cases i <;> simp [mayWrite]

/-! ### The obligations -/

/-- Settles O6: the step is the cycle without its report, and the cycle of a decoded word is its execute step. -/
theorem stepRunsTheDecodedInstruction : Obligations.StepRunsTheDecodedInstruction := by
  unfold Obligations.StepRunsTheDecodedInstruction
  intro s i hl hp hd
  have hfetch : { s with pc := s.pc + 2#16 } = s.advance := rfl
  rw [step, cycle_decoded hl hp hd, execute, hfetch]
  cases exec i s.advance with
  | fault f => rfl
  | refused r => rfl
  | next t =>
    rcases finish_cases i s.advance t with ⟨ht, hfin⟩ | ⟨ht, hw, hfin⟩ | ⟨ht, hw, hfin⟩
    · simp [stateAfter, hfin, ht, quiet]
    · simp [stateAfter, hfin, ← waits_advance i s, hw, quiet]
    · simp [stateAfter, hfin, ht, ← waits_advance i s, hw, completed]

/-- Settles O7: `fetchWord` is the two bytes as one word, and the advance does not wrap below 0xFFF. -/
theorem fetchReadsTwoBytesOrFaults : Obligations.FetchReadsTwoBytesOrFaults := by
  unfold Obligations.FetchReadsTwoBytesOrFaults
  intro s hl
  constructor
  · intro hp
    exact ⟨s.fetchWord, s.advance, toNat_wordOfBytes _ _, State.advance_pc_toNat hp, changesOnly_setPc s _, rfl,
      fun i hd => cycle_decoded hl hp hd, fun r hd => cycle_unrecognized hl hp hd⟩
  · intro hp
    exact ⟨_, cycle_unfetchable hl hp, rfl, rfl, rfl, changesOnly_takeFault s _ _⟩

/-- Settles O8: such a cycle is the fetch advance and the timer update. -/
theorem unrecognizedWordIsANoOp : Obligations.UnrecognizedWordIsANoOp := by
  unfold Obligations.UnrecognizedWordIsANoOp
  intro s r hl hp hd
  refine ⟨s.advance.tick, ?_, State.advance_pc_toNat hp, tickByte_toNat s.DT, tickByte_toNat s.ST, ?_⟩
  · rw [cycle_unrecognized hl hp hd, completed, State.advance_FAULT, hl]
    rfl
  · exact ((changesOnly_setPc s _).mono fun _ => .inl).trans ((changesOnly_tick _).mono fun _ => .inr)

/-- Settles O9: a completed cycle ends in the timer update, and no other end of a cycle touches a timer. -/
theorem timersCountDownInCompletedCycles : Obligations.TimersCountDownInCompletedCycles := by
  unfold Obligations.TimersCountDownInCompletedCycles
  refine fun s t hl hp => ⟨fun hc => ?completes, fun u r h hnot => ?doesNot⟩
  case completes =>
    obtain ⟨changed, hcycle, _⟩ := cycle_of_completes hl hp hc
    exact ⟨_, _, hcycle, tickByte_toNat t.DT, tickByte_toNat t.ST, beeps_iff t, changesOnly_tick t⟩
  case doesNot =>
    rcases cycleEnd_of_cycle h with ⟨_, rfl, rfl⟩ | ⟨_, c, n, _, rfl, rfl⟩ | ⟨_, x, _, rfl, rfl⟩ | ⟨_, _, t', hc, _⟩
    · exact ⟨rfl, rfl, rfl⟩
    · exact ⟨rfl, rfl, rfl⟩
    · exact ⟨rfl, rfl, rfl⟩
    · exact absurd hc (hnot t')

/-- Settles O10: read off the four ends of a cycle; only the completed one reports more than the latch. -/
theorem cycleReportsDisplayBeepAndFault : Obligations.CycleReportsDisplayBeepAndFault := by
  unfold Obligations.CycleReportsDisplayBeepAndFault
  intro s u r h
  rcases cycleEnd_of_cycle h with ⟨hl, rfl, rfl⟩ | ⟨_, c, n, hdue, rfl, rfl⟩ | ⟨_, x, hd, rfl, rfl⟩ |
    ⟨hl, hp, t, hc, rfl, hr, hdisp⟩
  · simp [hl]
  · simp [hdue.code_ne_none]
  · simp [*]
  · have ht : t.FAULT = .none := hc.FAULT_eq_none hl
    refine ⟨by rw [hr, State.tick_FAULT, ht], by simp [hdisp, hl, hp, ht],
      fun hbeep => ⟨ht, ?_, fun i => hc.waits_eq_false⟩⟩
    rw [hr] at hbeep
    have hST : t.ST.toNat = 1 := (beeps_iff t).mp hbeep
    exact BitVec.eq_of_toNat_eq ((tickByte_toNat t.ST).trans (by rw [hST]; rfl))

/-- Settles O12: of the ends of a cycle with a clear latch, only the fault entry sets it. -/
theorem faultingCycleChangesOnlyTheLatch : Obligations.FaultingCycleChangesOnlyTheLatch := by
  unfold Obligations.FaultingCycleChangesOnlyTheLatch
  intro s u r hl h hu
  rcases cycleEnd_of_cycle h with ⟨hnot, _⟩ | ⟨_, c, n, hdue, rfl, rfl⟩ | ⟨_, _, _, rfl, _⟩ |
    ⟨_, _, t, hc, rfl, _⟩
  · exact absurd hl hnot
  · exact ⟨changesOnly_takeFault s c n, rfl, rfl, rfl, n, hdue, rfl⟩
  · exact absurd hl hu
  · exact absurd (hc.FAULT_eq_none hl) hu

/-- Settles O13: a due fault is taken by `cycle_of_due`, and the latch is set in no other way. -/
theorem faultsAreRaisedExactlyWhenDue : Obligations.FaultsAreRaisedExactlyWhenDue := by
  unfold Obligations.FaultsAreRaisedExactlyWhenDue
  refine ⟨fun s hl hsp => ?_, rfl, rfl, rfl, rfl, rfl, rfl⟩
  obtain ⟨u, r, h⟩ := exists_cycle_eq_next hsp
  refine ⟨u, r, h, fun c hc info => ⟨fun hdue => ?raised, fun hu => ?onlyThen⟩⟩
  case raised =>
    obtain ⟨rfl, _⟩ := Prod.mk.inj (Host.Outcome.next.inj (h.symm.trans (cycle_of_due hl hdue)))
    exact ⟨rfl, rfl, rfl⟩
  case onlyThen =>
    have hfault : u.FAULT ≠ .none := hu ▸ hc
    obtain ⟨_, _, _, _, n, hdue, _⟩ := faultingCycleChangesOnlyTheLatch s u r hl h hfault
    exact ⟨n, hu ▸ hdue⟩

/-- Settles O14: push and pop are the only operations that can answer nothing, and only above 16 entries. -/
theorem stepAlwaysAnswersANextState : Obligations.StepAlwaysAnswersANextState := by
  unfold Obligations.StepAlwaysAnswersANextState
  intro s hsp
  obtain ⟨u, r, h⟩ := exists_cycle_eq_next hsp
  exact ⟨u, step_next_iff.mpr ⟨r, h⟩⟩

/-- Settles O22: an execute step leaves a timer that is not in its form's row, and the timer update takes at most 1. -/
theorem timersNeverRiseByThemselves : Obligations.TimersNeverRiseByThemselves := by
  unfold Obligations.TimersNeverRiseByThemselves
  intro s t h
  obtain ⟨r, hcycle⟩ := step_next_iff.mp h
  rcases cycleEnd_of_cycle hcycle with ⟨_, rfl, _⟩ | ⟨_, c, n, _, rfl, _⟩ | ⟨_, _, _, rfl, _⟩ | ⟨_, _, t', hc, rfl, _⟩
  · simp
  · simp
  · simp
  · refine ⟨fun hno => ?delay, fun hno => ?sound⟩
    case delay =>
      have hkeep : t'.DT = s.DT := hc.unchanged (k := .DT) (by decide) fun i hd hm => by
        obtain ⟨x, rfl⟩ := mayWrite_DT.mp hm
        exact hno x hd
      rw [State.tick_DT, tickByte_toNat, hkeep]
      omega
    case sound =>
      have hkeep : t'.ST = s.ST := hc.unchanged (k := .ST) (by decide) fun i hd hm => by
        obtain ⟨x, rfl⟩ := mayWrite_ST.mp hm
        exact hno x hd
      rw [State.tick_ST, tickByte_toNat, hkeep]
      omega

end Sys2Proof.Machine
end

section
/-! The invariants of a run: that every cycle keeps memory canonical, SP in range and every program counter where its
writers can put it (10_state.md R25 to R27), and keeps the latch truthful (60_exceptions.md R221 to R223). -/

namespace Sys2Proof.Machine

/-! ### What a form does to `pc`, SP and the stack -/

/-- Where a form executed in `s` can leave `pc` (10_state.md R25): `pc` is already two past the word, so going back
two is a fault or a wait. -/
inductive NextPc (s : State) : Word → Prop
  | stays : NextPc s s.pc
  | skips : NextPc s (s.pc + 2#16)
  | back : NextPc s (s.pc - 2#16)
  | jumps (nnn : Imm12) : NextPc s (addrOf nnn)
  | jumpsPast (nnn : Imm12) : NextPc s (addrOf nnn + s.wideV 0)
  | returns (k : Fin 16) : NextPc s s.stack[k]

theorem nextPc_skipIf (s : State) (c : Bool) : NextPc s (s.skipIf c).pc := by
  cases c
  · exact .stays
  · exact .skips

theorem nextPc_of_exec {i : Instr} {s t : State} (h : exec i s = .next t) : NextPc s t.pc := by
  cases i with
  | ret =>
    rcases execRet_cases s with ⟨_, he⟩ | ⟨hk, _, he⟩ | ⟨_, he⟩
    · cases h.symm.trans he
      exact .back
    · cases h.symm.trans he
      exact .returns ⟨s.SP.toNat - 1, hk⟩
    · cases h.symm.trans he
  | call nnn =>
    rcases execCall_cases nnn s with ⟨_, he⟩ | ⟨_, he⟩ | ⟨_, he⟩
    · cases h.symm.trans he
      exact .jumps nnn
    · cases h.symm.trans he
      exact .back
    · cases h.symm.trans he
  | jp nnn =>
    cases h
    exact .jumps nnn
  | jpV0 nnn =>
    cases h
    exact .jumpsPast nnn
  | seImm | sneImm | seReg | sneReg =>
    cases h
    exact nextPc_skipIf s _
  | skp x =>
    rcases execSkp_cases x s with ⟨_, he⟩ | ⟨_, he⟩
    · cases h.symm.trans he
      exact nextPc_skipIf s _
    · cases h.symm.trans he
      exact .back
  | sknp x =>
    rcases execSknp_cases x s with ⟨_, he⟩ | ⟨_, he⟩
    · cases h.symm.trans he
      exact nextPc_skipIf s _
    · cases h.symm.trans he
      exact .back
  | ldVxK x =>
    rcases execLdVxK_cases x s with ⟨_, _, he⟩ | ⟨_, he⟩
    · cases h.symm.trans he
      exact .stays
    · cases h.symm.trans he
      exact .back
  | _ =>
    rcases exec_next_failsCheck_or_frame h with ⟨c, n, _, rfl⟩ | hframe
    · exact .back
    · have hpc : t.pc = s.pc := hframe .pc (by simp [mayWrite])
      rw [hpc]
      exact .stays

/-- The largest of these addresses is that of JP V0, 0xFFF + 0xFF (41_control.md R128). -/
theorem NextPc.toNat_le {s : State} {a : Word} (h : NextPc s a) (hlo : 2 ≤ s.pc.toNat) (hhi : s.pc.toNat ≤ 0x1000)
    (hsaved : ∀ k : Fin 16, s.stack[k].toNat ≤ 0x1000) : a.toNat ≤ 0x10FE := by
  cases h with
  | stays => omega
  | skips =>
    rw [BitVec.toNat_add, BitVec.toNat_ofNat]
    omega
  | back =>
    rw [BitVec.toNat_sub, BitVec.toNat_ofNat]
    omega
  | jumps nnn =>
    have hnnn := nnn.isLt
    rw [addrOf_toNat]
    omega
  | jumpsPast nnn =>
    have hnnn := nnn.isLt
    have hV := (s.getV 0).isLt
    rw [BitVec.toNat_add, addrOf_toNat, State.wideV_toNat]
    omega
  | returns k =>
    have hk := hsaved k
    omega

/-- Whatever is outside a form's row and is neither `pc` nor the latch stays, also when the form raises. -/
theorem unchanged_of_exec {i : Instr} {s t : State} (h : exec i s = .next t) {k : Component}
    (hrow : ¬ mayWrite s i k) (hpc : k ≠ .pc) (hlatch : ¬ InLatch k) : Unchanged s t k := by
  rcases exec_next_failsCheck_or_frame h with ⟨c, n, _, rfl⟩ | hframe
  · exact (changesOnly_setPc s _ k hpc).trans (changesOnly_takeFault _ c n k hlatch)
  · exact hframe k hrow

theorem SP_le_of_exec {i : Instr} {s t : State} (h : exec i s = .next t) (hsp : s.SP.toNat ≤ 16) :
    t.SP.toNat ≤ 16 := by
  cases i with
  | ret =>
    rcases execRet_cases s with ⟨_, he⟩ | ⟨_, hpos, he⟩ | ⟨_, he⟩
    · cases h.symm.trans he
      exact hsp
    · cases h.symm.trans he
      rw [State.setPc_SP, State.setStack_SP, BitVec.toNat_sub, BitVec.toNat_ofNat]
      omega
    · cases h.symm.trans he
  | call nnn =>
    rcases execCall_cases nnn s with ⟨hlt, he⟩ | ⟨_, he⟩ | ⟨_, he⟩
    · cases h.symm.trans he
      rw [State.setPc_SP, State.setStack_SP, BitVec.toNat_add, BitVec.toNat_ofNat]
      omega
    · cases h.symm.trans he
      exact hsp
    · cases h.symm.trans he
  | _ =>
    have hkeep : t.SP = s.SP := unchanged_of_exec h (k := .SP) (by simp [mayWrite]) (by decide) (by simp [InLatch])
    rwa [hkeep]

/-- The only value a form stores in the stack is `pc`, by CALL's push (41_control.md R123). -/
theorem stack_entry_of_exec {i : Instr} {s t : State} (h : exec i s = .next t) (k : Fin 16) :
    t.stack[k] = s.stack[k] ∨ t.stack[k] = s.pc := by
  cases i with
  | call nnn =>
    rcases execCall_cases nnn s with ⟨hlt, he⟩ | ⟨_, he⟩ | ⟨_, he⟩
    · cases h.symm.trans he
      by_cases hk : s.SP.toNat = k.val
      · exact .inr (by simp [hk])
      · exact .inl (Vector.getElem_set_ne hlt k.isLt hk)
    · cases h.symm.trans he
      exact .inl rfl
    · cases h.symm.trans he
  | _ => exact .inl (unchanged_of_exec h (k := .stack k) (by simp [mayWrite]) (by simp) (by simp [InLatch]))

/-! ### The state invariant -/

/-- The invariant speaks of memory, SP, the stack and `pc` alone. -/
theorem Inv.of_eq {s t : State} (h : Inv s) (hmem : t.mem = s.mem) (hSP : t.SP = s.SP) (hstack : t.stack = s.stack)
    (hpc : t.pc = s.pc) : Inv t :=
  ⟨hmem ▸ h.memory, hSP ▸ h.stackPointer, hstack ▸ h.savedPcs, hpc ▸ h.programCounter⟩

theorem StoresOnly.wf {s t : State} (h : StoresOnly s t) (hwf : s.mem.wf = true) : t.mem.wf = true := by
  rcases h with hmem | ⟨a, vs, hmem⟩
  · rwa [hmem]
  · rw [hmem]
    exact Memory.wf_writeList hwf a vs

/-- A form keeps the invariant from where the fetch advance leaves `pc`. -/
theorem Inv.exec {i : Instr} {s t : State} (h : Inv s) (hlo : 2 ≤ s.pc.toNat) (hhi : s.pc.toNat ≤ 0x1000)
    (he : exec i s = .next t) : Inv t where
  memory := (storesOnly_of_exec he).wf h.memory
  stackPointer := SP_le_of_exec he h.stackPointer
  savedPcs k := by
    rcases stack_entry_of_exec he k with hk | hk
    · exact hk ▸ h.savedPcs k
    · exact hk ▸ hhi
  programCounter := (nextPc_of_exec he).toNat_le hlo hhi h.savedPcs

theorem Inv.advance {s : State} (h : Inv s) (hp : s.pc.toNat + 1 ≤ 0xFFF) : Inv s.advance :=
  ⟨h.memory, h.stackPointer, h.savedPcs, by rw [State.advance_pc_toNat hp]; omega⟩

theorem Inv.completes {s t : State} (h : Inv s) (hp : s.pc.toNat + 1 ≤ 0xFFF) (hc : Completes s t) : Inv t := by
  have hpc := State.advance_pc_toNat hp
  rcases hc with ⟨_, rfl⟩ | ⟨i, _, he, _⟩
  · exact h.advance hp
  · exact (h.advance hp).exec (by omega) (by omega) he

theorem Inv.cycle {s u : State} {r : CycleResult} (h : Inv s) (hcycle : cycle s = .next (u, r)) : Inv u := by
  rcases cycleEnd_of_cycle hcycle with ⟨_, rfl, _⟩ | ⟨_, c, n, _, rfl, _⟩ | ⟨_, _, _, rfl, _⟩ | ⟨_, hp, t, hc, rfl, _⟩
  · exact h
  · exact h.of_eq rfl rfl rfl rfl
  · exact h
  · exact (h.completes hp hc).of_eq rfl rfl rfl rfl

/-! ### The latch -/

/-- Whether a fault is due does not depend on the latch. -/
theorem due_takeFault {s : State} {c' : FaultCode} {m n : Nat} {c : FaultCode} :
    Due (s.takeFault c' m) n c ↔ Due s n c := by
  cases c <;> exact Iff.rfl

theorem latchTruth_of_clear {s : State} (hl : s.FAULT = .none) (hpc : s.FAULT_PC = 0#16) (hinfo : s.FAULT_INFO = 0#16) :
    LatchTruth s :=
  ⟨fun _ => ⟨hpc, hinfo⟩, fun h => absurd hl h, fun h => absurd hl h⟩

/-- The fault entry of a due fault leaves its condition as it was. -/
theorem latchTruth_takeFault {s : State} {n : Nat} {c : FaultCode} (h : Due s n c) : LatchTruth (s.takeFault c n) where
  clear hc := absurd hc h.code_ne_none
  at_pc _ := rfl
  due _ := ⟨n, due_takeFault.mpr h, rfl⟩

theorem LatchTruth.cycle {s u : State} {r : CycleResult} (h : LatchTruth s) (hcycle : cycle s = .next (u, r)) :
    LatchTruth u := by
  rcases cycleEnd_of_cycle hcycle with ⟨_, rfl, _⟩ | ⟨_, c, n, hdue, rfl, _⟩ | ⟨_, _, _, rfl, _⟩ |
    ⟨hl, _, t, hc, rfl, _⟩
  · exact h
  · exact latchTruth_takeFault hdue
  · exact h
  · have hpc : t.FAULT_PC = s.FAULT_PC := hc.latch_unchanged (.inr (.inl rfl))
    have hinfo : t.FAULT_INFO = s.FAULT_INFO := hc.latch_unchanged (.inr (.inr rfl))
    obtain ⟨hpc0, hinfo0⟩ := h.clear hl
    have hclear : t.FAULT = .none := hc.FAULT_eq_none hl
    exact latchTruth_of_clear hclear (hpc.trans hpc0) (hinfo.trans hinfo0)

/-! ### The state after reset -/

theorem inv_reset : Inv State.reset := ⟨Memory.wf_nil, by decide, by decide, by decide⟩

theorem latchTruth_reset : LatchTruth State.reset := latchTruth_of_clear rfl rfl rfl

/-! ### The obligations -/

/-- Settles O17: through the ends of a cycle, of which only a completed execute step writes memory, SP, the stack or
`pc`. -/
theorem stepKeepsTheStateInvariant : Obligations.StepKeepsTheStateInvariant := by
  unfold Obligations.StepKeepsTheStateInvariant
  intro s t h hstep
  obtain ⟨r, hcycle⟩ := step_next_iff.mp hstep
  exact h.cycle hcycle

/-- Settles O18: the latch is set only by the entry of a due fault, which changes nothing that the fault depends on. -/
theorem stepKeepsTheLatchTruthful : Obligations.StepKeepsTheLatchTruthful := by
  unfold Obligations.StepKeepsTheLatchTruthful
  intro s t h hstep
  obtain ⟨r, hcycle⟩ := step_next_iff.mp hstep
  exact h.cycle hcycle

/-- Settles O16: no byte is listed, every counter is in bounds, and the latch is clear and 0. -/
theorem resetMeetsTheInvariants : Obligations.ResetMeetsTheInvariants := by
  unfold Obligations.ResetMeetsTheInvariants
  exact ⟨inv_reset, latchTruth_reset⟩

end Sys2Proof.Machine
end

section
/-! The host's operations (60_exceptions.md R240 to R248; 70_reset_and_hazards.md R250 to R256): RESET, LOAD and
CYCLE, the invariant of a session, and that only RND sees the byte handed in. -/

namespace Sys2Proof.Machine

/-! ### LOAD -/

theorem hostStep_load {h : Session} (hl : h.loadable = true) (image : Option (List Byte)) :
    hostStep (.load image) h = .next
      ({ machine := h.machine.loadImage image, loadable := (loadStatus image).failed }, .loaded (loadStatus image)) :=
  if_pos hl

theorem hostStep_load_refused {h : Session} (hl : h.loadable = false) (image : Option (List Byte)) :
    hostStep (.load image) h = .refused .loadNotAdmitted :=
  if_neg (by simp [hl])

theorem State.loadImage_of_ok (s : State) {image : Option (List Byte)} (h : loadStatus image = .ok) :
    s.loadImage image = s.writeBytes Config.progBase (image.getD []) := by
  rw [State.loadImage, h]

theorem State.loadImage_of_failed (s : State) {image : Option (List Byte)} (h : (loadStatus image).failed = true) :
    s.loadImage image = s := by
  unfold State.loadImage
  cases hs : loadStatus image with
  | ok =>
    rw [hs] at h
    cases h
  | unreadable | empty | tooLarge => rfl

/-- LOAD writes memory or nothing. -/
theorem State.loadImage_eq (s : State) (image : Option (List Byte)) :
    ∃ vs, s.loadImage image = s.writeBytes Config.progBase vs := by
  cases hs : loadStatus image with
  | ok => exact ⟨_, s.loadImage_of_ok hs⟩
  | unreadable | empty | tooLarge => exact ⟨[], s.loadImage_of_failed (by rw [hs]; rfl)⟩

theorem loadStatus_some_of_fits {image : List Byte} (hpos : 1 ≤ image.length) (hfit : image.length ≤ 3584) :
    loadStatus (some image) = .ok := by
  rw [loadStatus, if_neg (by omega), if_neg (by simp only [Config.progMax]; omega)]

theorem loadStatus_some_of_tooLarge {image : List Byte} (h : image.length > 3584) :
    loadStatus (some image) = .tooLarge := by
  rw [loadStatus, if_neg (by omega), if_pos h]

/-- A LOAD that fails leaves the session as it was (R254). -/
theorem hostStep_load_of_failed {h : Session} (hl : h.loadable = true) {image : Option (List Byte)}
    (hf : (loadStatus image).failed = true) :
    hostStep (.load image) h = .next (h, .loaded (loadStatus image)) := by
  rw [hostStep_load hl, State.loadImage_of_failed _ hf, hf, ← hl]

/-! ### CYCLE -/

/-- CYCLE is the cycle with the byte in its field, which is emptied afterwards. -/
theorem hostStep_cycle_next {h h' : Session} {rnd : Byte} {r : HostReply}
    (hstep : hostStep (.cycle rnd) h = .next (h', r)) :
    ∃ t rep, cycle (h.machine.setRndIn (some rnd)) = .next (t, rep) ∧
      h' = { machine := t.setRndIn none, loadable := false } ∧ r = .ran rep := by
  rw [hostStep, runCycle] at hstep
  cases hc : cycle (h.machine.setRndIn (some rnd)) with
  | next p =>
    rw [hc] at hstep
    cases hstep
    exact ⟨p.1, p.2, rfl, rfl, rfl⟩
  | fault f =>
    rw [hc] at hstep
    cases hstep
  | refused r =>
    rw [hc] at hstep
    cases hstep

/-- While SP is in range a CYCLE answers. -/
theorem exists_hostStep_cycle_eq_next {h : Session} (hsp : h.machine.SP.toNat ≤ 16) (rnd : Byte) :
    ∃ h' r, hostStep (.cycle rnd) h = .next (h', .ran r) := by
  obtain ⟨u, r, hc⟩ := exists_cycle_eq_next (s := h.machine.setRndIn (some rnd)) hsp
  exact ⟨{ machine := u.setRndIn none, loadable := false }, r, by rw [hostStep, runCycle, hc]⟩

/-! ### The invariants under the host's own writes -/

/-- The fields that the host writes between cycles: the keys, the dirty flag and the byte for RND. -/
def State.withHostFields (s : State) (k : BitVec 16) (d : Bool) (b : Option Byte) : State :=
  ((s.setKeys k).setDirty d).setRndIn b

theorem Inv.withHostFields {s : State} (h : Inv s) (k : BitVec 16) (d : Bool) (b : Option Byte) :
    Inv (s.withHostFields k d b) :=
  h.of_eq rfl rfl rfl rfl

/-- No fault depends on what the host writes between cycles. -/
theorem due_withHostFields {s : State} {k : BitVec 16} {d : Bool} {b : Option Byte} {n : Nat} {c : FaultCode} :
    Due (s.withHostFields k d b) n c ↔ Due s n c := by
  cases c <;> exact Iff.rfl

theorem LatchTruth.withHostFields {s : State} (h : LatchTruth s) (k : BitVec 16) (d : Bool) (b : Option Byte) :
    LatchTruth (s.withHostFields k d b) where
  clear := h.clear
  at_pc := h.at_pc
  due hf := by
    obtain ⟨n, hdue, hinfo⟩ := h.due hf
    exact ⟨n, due_withHostFields.mpr hdue, hinfo⟩

theorem sessionInv_start : SessionInv Session.start :=
  ⟨inv_reset, latchTruth_reset, fun _ => rfl⟩

/-- While LOAD is allowed, the latch is as RESET left it. -/
theorem SessionInv.latch_of_loadable {h : Session} (hinv : SessionInv h) (hl : h.loadable = true) :
    h.machine.FAULT = .none ∧ h.machine.FAULT_PC = 0#16 ∧ h.machine.FAULT_INFO = 0#16 := by
  rw [hinv.fresh hl]
  exact ⟨rfl, rfl, rfl⟩

theorem SessionInv.load {h : Session} (hinv : SessionInv h) (hl : h.loadable = true) (image : Option (List Byte)) :
    SessionInv { machine := h.machine.loadImage image, loadable := (loadStatus image).failed } := by
  cases hf : (loadStatus image).failed with
  | true =>
    rw [State.loadImage_of_failed _ hf, ← hl]
    exact hinv
  | false =>
    obtain ⟨vs, hvs⟩ := h.machine.loadImage_eq image
    obtain ⟨hclear, hpc, hinfo⟩ := hinv.latch_of_loadable hl
    rw [hvs]
    exact ⟨⟨Memory.wf_writeList hinv.inv.memory _ _, hinv.inv.stackPointer, hinv.inv.savedPcs,
      hinv.inv.programCounter⟩, latchTruth_of_clear hclear hpc hinfo, fun e => absurd e Bool.false_ne_true⟩

theorem SessionInv.cycle {h : Session} (hinv : SessionInv h) {rnd : Byte} {t : State} {rep : CycleResult}
    (hc : cycle (h.machine.setRndIn (some rnd)) = .next (t, rep)) :
    SessionInv { machine := t.setRndIn none, loadable := false } where
  inv :=
    ((hinv.inv.withHostFields h.machine.keys h.machine.dirty (some rnd)).cycle hc).withHostFields t.keys t.dirty none
  latch :=
    ((hinv.latch.withHostFields h.machine.keys h.machine.dirty (some rnd)).cycle hc).withHostFields t.keys t.dirty none
  fresh e := absurd e Bool.false_ne_true

/-- SET_KEYS and CLEAR_DIRTY write fields that the invariant leaves to the host. -/
theorem SessionInv.withHostFields {h : Session} (hinv : SessionInv h) (k : BitVec 16) (d : Bool) :
    SessionInv { h with machine := h.machine.withHostFields k d h.machine.rndIn } where
  inv := hinv.inv.withHostFields k d _
  latch := hinv.latch.withHostFields k d _
  fresh hl := by
    change h.machine.withHostFields k d h.machine.rndIn = (State.reset.setKeys k).setDirty d
    rw [hinv.fresh hl]
    rfl

theorem SessionInv.hostStep {op : HostOp} {h h' : Session} {r : HostReply} (hinv : SessionInv h)
    (hstep : hostStep op h = .next (h', r)) : SessionInv h' := by
  cases op with
  | reset =>
    cases hstep
    exact sessionInv_start
  | load image =>
    cases hl : h.loadable with
    | true =>
      cases (hostStep_load hl image).symm.trans hstep
      exact hinv.load hl image
    | false => cases (hostStep_load_refused hl image).symm.trans hstep
  | setKeys k =>
    cases hstep
    exact hinv.withHostFields k h.machine.dirty
  | cycle rnd =>
    obtain ⟨t, rep, hc, rfl, _⟩ := hostStep_cycle_next hstep
    exact hinv.cycle hc
  | readDisplay =>
    cases hstep
    exact hinv
  | clearDirty =>
    cases hstep
    exact hinv.withHostFields h.machine.keys false

theorem Reachable.sessionInv {h : Session} (hr : Reachable h) : SessionInv h := by
  induction hr with
  | start => exact sessionInv_start
  | next op h h' r _ hstep ih => exact ih.hostStep hstep

/-! ### The latch and whether LOAD is allowed, under every operation but RESET -/

theorem FAULT_of_hostStep {op : HostOp} {h h' : Session} {r : HostReply} (hf : h.machine.FAULT ≠ .none)
    (hop : op ≠ .reset) (hstep : hostStep op h = .next (h', r)) : h'.machine.FAULT = h.machine.FAULT := by
  cases op with
  | reset => exact absurd rfl hop
  | load image =>
    cases hl : h.loadable with
    | true =>
      cases (hostStep_load hl image).symm.trans hstep
      obtain ⟨vs, hvs⟩ := h.machine.loadImage_eq image
      exact (congrArg State.FAULT hvs).trans (State.writeBytes_FAULT _ _ _)
    | false => cases (hostStep_load_refused hl image).symm.trans hstep
  | cycle rnd =>
    obtain ⟨t, rep, hc, rfl, _⟩ := hostStep_cycle_next hstep
    cases hc.symm.trans (cycle_latched hf)
    rfl
  | setKeys | readDisplay | clearDirty =>
    cases hstep
    rfl

theorem loadable_of_hostStep {op : HostOp} {h h' : Session} {r : HostReply} (hl : h.loadable = false)
    (hop : op ≠ .reset) (hstep : hostStep op h = .next (h', r)) : h'.loadable = false := by
  cases op with
  | reset => exact absurd rfl hop
  | load image => cases (hostStep_load_refused hl image).symm.trans hstep
  | cycle rnd =>
    obtain ⟨t, rep, _, rfl, _⟩ := hostStep_cycle_next hstep
    rfl
  | setKeys | readDisplay | clearDirty =>
    cases hstep
    exact hl

theorem WithoutReset.loadable {h k : Session} (hk : WithoutReset h k) (hl : h.loadable = false) :
    k.loadable = false := by
  induction hk with
  | refl => exact hl
  | next op k k' r _ hop hstep ih => exact loadable_of_hostStep ih hop hstep

/-! ### The obligations -/

/-- Settles O19: operation by operation; a successful LOAD meets the latch that RESET left. -/
theorem hostOperationsKeepTheSessionInvariant : Obligations.HostOperationsKeepTheSessionInvariant := by
  unfold Obligations.HostOperationsKeepTheSessionInvariant
  exact fun op h h' r hinv hstep => hinv.hostStep hstep

/-- Settles O20: a reachable session has the session invariant, which keeps SP in range and the latch truthful. -/
theorem reachableMachinesCanAlwaysCycle : Obligations.ReachableMachinesCanAlwaysCycle := by
  unfold Obligations.ReachableMachinesCanAlwaysCycle
  intro h rnd hr
  obtain ⟨hinv, hlatch, _⟩ := hr.sessionInv
  refine ⟨exists_hostStep_cycle_eq_next hinv.stackPointer rnd, fun hf => ⟨hlatch.at_pc hf, ?_⟩⟩
  obtain ⟨n, hdue, _⟩ := hlatch.due hf
  exact ⟨n, hdue⟩

/-- Settles O11: the cycle tests the latch first, and LOAD, SET_KEYS and CLEAR_DIRTY write other fields. -/
theorem latchedMachineDoesNothing : Obligations.LatchedMachineDoesNothing := by
  unfold Obligations.LatchedMachineDoesNothing
  refine ⟨fun s hf => ⟨cycle_latched hf, ?_⟩, fun op h h' r hf hop hstep => FAULT_of_hostStep hf hop hstep⟩
  exact step_next_iff.mpr ⟨_, cycle_latched hf⟩

/-- Settles O46: RESET opens the session of the reset state, whatever went before. -/
theorem resetLeavesTheResetState : Obligations.ResetLeavesTheResetState := by
  unfold Obligations.ResetLeavesTheResetState
  refine fun h => ⟨Session.start, rfl, fun a ha => if_pos ha, fun a ha _ => if_neg (Nat.not_lt.mpr ha),
    ?_, rfl, rfl, ?_, rfl, rfl, rfl, ?_, fun j _ => Display.cell_clear j, rfl, rfl, rfl, rfl⟩
  · decide
  · decide
  · decide

/-- Settles O47: the image is stored as consecutive bytes, and 0x200 + 3584 is the end of memory. -/
theorem loadCopiesTheImage : Obligations.LoadCopiesTheImage := by
  unfold Obligations.LoadCopiesTheImage
  intro h image hl hwf hpos hfit
  have hok := loadStatus_some_of_fits hpos hfit
  refine ⟨{ machine := h.machine.writeBytes Config.progBase image, loadable := false }, ?step, rfl,
    fun k hk => ?byte, ?frame⟩
  case step =>
    rw [hostStep_load hl, State.loadImage_of_ok _ hok, hok]
    rfl
  case byte =>
    rw [List.getD_eq_getElem _ _ hk]
    exact readMem_writeBytes hwf Config.progBase image (by simp only [Config.progBase, Config.memSize]; omega) hk
  case frame => exact changesOnly_writeBytes h.machine Config.progBase image

/-- Settles O48: each failure's test comes in R254's order, and a failed LOAD leaves the session. -/
theorem failedLoadChangesNothing : Obligations.FailedLoadChangesNothing := by
  unfold Obligations.FailedLoadChangesNothing
  refine fun h hl => ⟨hostStep_load_of_failed hl rfl, hostStep_load_of_failed hl rfl, fun image hlong => ?_⟩
  have hs := loadStatus_some_of_tooLarge hlong
  rw [hostStep_load_of_failed hl (by rw [hs]; rfl), hs]

/-- Settles O49: CYCLE and a successful LOAD clear `loadable`, and no operation but RESET sets it again. -/
theorem loadIsRefusedAfterACycleOrALoad : Obligations.LoadIsRefusedAfterACycleOrALoad := by
  unfold Obligations.LoadIsRefusedAfterACycleOrALoad
  refine ⟨fun h h' k rnd r image hstep hk => ?cycle, fun h h' k image image' hstep hk => ?load,
    fun h h' op r hl hop hstep => loadable_of_hostStep hl hop hstep, fun h image hl => hostStep_load_refused hl image⟩
  case cycle =>
    obtain ⟨t, rep, _, rfl, _⟩ := hostStep_cycle_next hstep
    have hl := hk.loadable rfl
    exact ⟨hl, hostStep_load_refused hl image⟩
  case load =>
    have hafter : h'.loadable = false := by
      cases hadm : h.loadable with
      | false => cases (hostStep_load_refused hadm image).symm.trans hstep
      | true =>
        have heq := (hostStep_load hadm image).symm.trans hstep
        injection heq with hpair
        obtain ⟨rfl, hreply⟩ := Prod.mk.inj hpair
        rw [HostReply.loaded.inj hreply]
        rfl
    have hl := hk.loadable hafter
    exact ⟨hl, hostStep_load_refused hl image'⟩

end Sys2Proof.Machine
end

section
/-! The random byte of a cycle (45_timers_input_random.md R200; 60_exceptions.md R243): every form but RND does the same
whatever byte is handed in. -/

namespace Sys2Proof.Machine

/-- An outcome with its next value changed. -/
def mapNext {σ τ : Type} (f : σ → τ) : Host.Outcome σ Fault Refusal → Host.Outcome τ Fault Refusal
  | .next a => .next (f a)
  | .fault e => .fault e
  | .refused e => .refused e

/-- A state and its report, with `b` as the byte handed in. -/
def withByte (b : Option Byte) (p : State × CycleResult) : State × CycleResult := (p.1.setRndIn b, p.2)

/-! ### The shared operations -/

theorem skipIf_setRndIn (s : State) (b : Option Byte) (c : Bool) :
    (s.setRndIn b).skipIf c = (s.skipIf c).setRndIn b := by
  cases c <;> rfl

theorem checkRange_setRndIn (s t : State) (b : Option Byte) (lo hi : Nat) :
    (s.setRndIn b).checkRange lo hi (.next (t.setRndIn b)) =
      mapNext (fun t => t.setRndIn b) (s.checkRange lo hi (.next t)) := by
  unfold State.checkRange
  split <;> rfl

theorem withKeyIndex_setRndIn (s : State) (b : Option Byte) (x : Reg) (c : Nat → Bool) :
    (s.setRndIn b).withKeyIndex x (fun k => .next ((s.setRndIn b).skipIf (c k))) =
      mapNext (fun t => t.setRndIn b) (s.withKeyIndex x fun k => .next (s.skipIf (c k))) := by
  have hV : (s.setRndIn b).getV x = s.getV x := rfl
  rw [State.withKeyIndex, State.withKeyIndex, hV]
  split
  · rfl
  · exact congrArg Host.Outcome.next (skipIf_setRndIn s b _)

theorem pop_setRndIn (s : State) (b : Option Byte) :
    (s.setRndIn b).pop = s.pop.map fun p => (p.1, p.2.setRndIn b) := by
  by_cases h : s.SP.toNat - 1 < 16
  · rw [State.pop_of_le h, State.pop_of_le (s := s.setRndIn b) h]
    rfl
  · have hgt : 16 < s.SP.toNat := by omega
    rw [State.pop_of_gt hgt, State.pop_of_gt (s := s.setRndIn b) hgt]
    rfl

theorem push_setRndIn (s : State) (b : Option Byte) (a : Word) :
    (s.setRndIn b).push a = (s.push a).map fun t => t.setRndIn b := by
  by_cases h : s.SP.toNat < 16
  · rw [State.push_of_lt a h, State.push_of_lt (s := s.setRndIn b) a h]
    rfl
  · have hge : 16 ≤ s.SP.toNat := by omega
    rw [State.push_of_ge a hge, State.push_of_ge (s := s.setRndIn b) a hge]
    rfl

/-! ### The meanings that branch -/

theorem execRet_setRndIn (s : State) (b : Option Byte) :
    execRet (s.setRndIn b) = mapNext (fun t => t.setRndIn b) (execRet s) := by
  by_cases h : s.SP = 0#5
  · simp only [execRet, State.setRndIn_SP, h, if_true]
    rfl
  · simp only [execRet, State.setRndIn_SP, h, if_false, pop_setRndIn]
    cases s.pop <;> rfl

theorem execCall_setRndIn (nnn : Imm12) (s : State) (b : Option Byte) :
    execCall nnn (s.setRndIn b) = mapNext (fun t => t.setRndIn b) (execCall nnn s) := by
  by_cases h : s.SP = 16#5
  · simp only [execCall, State.setRndIn_SP, h, if_true]
    rfl
  · simp only [execCall, State.setRndIn_SP, h, if_false, State.setRndIn_pc, push_setRndIn]
    cases s.push s.pc <;> rfl

theorem execDrw_setRndIn (x y : Reg) (n : Nibble) (s : State) (b : Option Byte) :
    execDrw x y n (s.setRndIn b) = mapNext (fun t => t.setRndIn b) (execDrw x y n s) := by
  unfold execDrw
  split
  · rfl
  · exact checkRange_setRndIn s (s.draw x y n) b _ _

theorem execLdVxK_setRndIn (x : Reg) (s : State) (b : Option Byte) :
    execLdVxK x (s.setRndIn b) = mapNext (fun t => t.setRndIn b) (execLdVxK x s) := by
  have hkey : (s.setRndIn b).leastKey = s.leastKey := rfl
  unfold execLdVxK
  rw [hkey]
  cases s.leastKey <;> rfl

/-! ### The execute step and the cycle -/

theorem exec_setRndIn {i : Instr} (hi : ∀ x nn, i ≠ .rnd x nn) (s : State) (b : Option Byte) :
    exec i (s.setRndIn b) = mapNext (fun t => t.setRndIn b) (exec i s) := by
  cases i with
  | rnd x nn => exact absurd rfl (hi x nn)
  | ret => exact execRet_setRndIn s b
  | call nnn => exact execCall_setRndIn nnn s b
  | seImm | sneImm | seReg | sneReg => exact congrArg Host.Outcome.next (skipIf_setRndIn s b _)
  | drw x y n => exact execDrw_setRndIn x y n s b
  | skp x => exact withKeyIndex_setRndIn s b x _
  | sknp x => exact withKeyIndex_setRndIn s b x fun k => !s.key k
  | ldVxK x => exact execLdVxK_setRndIn x s b
  | ldB x => exact checkRange_setRndIn s (s.writeBytes s.I.toNat (bcdDigits (s.getV x))) b _ _
  | dump x => exact checkRange_setRndIn s ((s.writeBytes s.I.toNat (s.regsUpTo x)).bumpI x) b _ _
  | load x => exact checkRange_setRndIn s ((s.loadRegs x).bumpI x) b _ _
  | _ => rfl

theorem waits_setRndIn (i : Instr) (s : State) (b : Option Byte) : waits i (s.setRndIn b) = waits i s := by
  cases i <;> rfl

theorem finish_setRndIn (i : Instr) (s t : State) (b : Option Byte) :
    finish i (s.setRndIn b) (t.setRndIn b) = withByte b (finish i s t) := by
  rw [finish, finish, waits_setRndIn, State.setRndIn_FAULT]
  split
  · rfl
  · split <;> rfl

theorem execute_setRndIn {i : Instr} (hi : ∀ x nn, i ≠ .rnd x nn) (s : State) (b : Option Byte) :
    execute i (s.setRndIn b) = mapNext (withByte b) (execute i s) := by
  rw [execute, execute, exec_setRndIn hi]
  cases exec i s with
  | next t => exact congrArg Host.Outcome.next (finish_setRndIn i s t b)
  | fault f => rfl
  | refused r => rfl

theorem cycle_setRndIn {s : State} (hno : ∀ x nn, decode s.fetchWord ≠ .ok (.rnd x nn)) (b : Option Byte) :
    cycle (s.setRndIn b) = mapNext (withByte b) (cycle s) := by
  by_cases hl : s.FAULT = .none
  · by_cases hp : s.pc.toNat + 1 ≤ 0xFFF
    · cases hd : decode s.fetchWord with
      | ok i =>
        rw [cycle_decoded (s := s.setRndIn b) hl hp hd, cycle_decoded hl hp hd]
        exact execute_setRndIn (fun x nn e => hno x nn (e ▸ hd)) s.advance b
      | error r =>
        rw [cycle_unrecognized (s := s.setRndIn b) hl hp hd, cycle_unrecognized hl hp hd]
        rfl
    · rw [cycle_unfetchable (s := s.setRndIn b) hl (by simpa using hp), cycle_unfetchable hl (by omega)]
      rfl
  · rw [cycle_latched (s := s.setRndIn b) hl, cycle_latched hl]
    rfl

/-- CYCLE takes the byte back, so that nothing of it is left in the session. -/
theorem runCycle_eq {s : State} (hno : ∀ x nn, decode s.fetchWord ≠ .ok (.rnd x nn)) (rnd : Byte) :
    runCycle rnd s = mapNext (withByte none) (cycle s) := by
  rw [runCycle, cycle_setRndIn hno]
  cases cycle s <;> rfl

/-! ### The obligation -/

/-- Settles O51: without RND, CYCLE is the cycle of the session's machine, in which the byte does not occur. -/
theorem randomByteMattersOnlyToRnd : Obligations.RandomByteMattersOnlyToRnd := by
  unfold Obligations.RandomByteMattersOnlyToRnd
  intro h a b hno
  rw [hostStep, hostStep, runCycle_eq hno, runCycle_eq hno]

end Sys2Proof.Machine
end

section
/-! Control transfer: CALL, RET, SYS and JP V0 (41_control.md R121, R123, R128, R129), and a CALL with the RET it leads
to. -/

namespace Sys2Proof.Machine

/-! ### Words and meanings -/

theorem decode_call {w : Word} (h : opOf w = 0x2#4) : decode w = .ok (.call (nnnOf w)) :=
  decode_of_hasKeys (f := .call) (by decide) (by simp [hasKeys, h])

theorem decode_jpV0 {w : Word} (h : opOf w = 0xB#4) : decode w = .ok (.jpV0 (nnnOf w)) :=
  decode_of_hasKeys (f := .jpV0) (by decide) (by simp [hasKeys, h])

theorem decode_ret : decode 0x00EE#16 = .ok .ret :=
  decode_of_hasKeys (f := .ret) (by decide) (by decide)

/-- A word of group 0 is SYS unless it is one of the two words tried before (R84). -/
theorem decode_sys {w : Word} (h : opOf w = 0x0#4) (hcls : w ≠ 0x00E0#16) (hret : w ≠ 0x00EE#16) :
    decode w = .ok (.sys (nnnOf w)) := by
  have hk : hasKeys w .sys = true := by simp [hasKeys, h]
  exact decode_of_formOf_eq_some
    (formOf_eq_some_of_hasPattern ((hasPattern_eq_hasKeys w .sys).trans hk) fun _ => ⟨hcls, hret⟩)

theorem exec_jpV0 (nnn : Imm12) (s : State) : exec (.jpV0 nnn) s = .next (s.setPc (addrOf nnn + s.wideV 0)) := rfl

theorem exec_ret_of_SP {s : State} {k : Fin 16} (h : s.SP.toNat = k.val + 1) :
    exec .ret s = .next ((s.setStack s.stack (s.SP - 1#5)).setPc s.stack[k]) := by
  rcases execRet_cases s with ⟨h0, _⟩ | ⟨_, _, he⟩ | ⟨hgt, _⟩
  · omega
  · have hk : s.SP.toNat - 1 = k.val := by omega
    exact he.trans (by simp [hk])
  · omega

theorem exec_call_of_SP {s : State} (nnn : Imm12) (h : s.SP.toNat < 16) :
    exec (.call nnn) s =
      .next ((s.setStack (s.stack.set s.SP.toNat s.pc) (s.SP + 1#5)).setPc (addrOf nnn)) := by
  rcases execCall_cases nnn s with ⟨_, he⟩ | ⟨h16, _⟩ | ⟨hgt, _⟩
  · exact he
  · omega
  · omega

/-- A form whose check fails leaves the fault entry. -/
theorem raisedFrom_of_failsCheck {i : Instr} {s : State} {c : FaultCode} {n : Nat} (h : FailsCheck s i n c) :
    ∃ t, exec i s = .next t ∧ RaisedFrom s t c n := by
  rw [exec_of_failsCheck h]
  exact s.raise_spec c n

/-! ### A CALL and its RET -/

theorem step_call {s : State} {nnn : Imm12} (hl : s.FAULT = .none) (hp : s.pc.toNat + 1 ≤ 0xFFF)
    (hsp : s.SP.toNat < 16) (hd : decode s.fetchWord = .ok (.call nnn)) :
    step s = .next
      ((s.advance.setStack (s.stack.set s.SP.toNat (s.pc + 2#16)) (s.SP + 1#5)).setPc (addrOf nnn)).tick :=
  step_of_exec hl hp hd (exec_call_of_SP (s := s.advance) nnn hsp) hl rfl

theorem step_ret {s : State} {k : Fin 16} (hl : s.FAULT = .none) (hp : s.pc.toNat + 1 ≤ 0xFFF)
    (hsp : s.SP.toNat = k.val + 1) (hd : decode s.fetchWord = .ok .ret) :
    step s = .next ((s.advance.setStack s.stack (s.SP - 1#5)).setPc s.stack[k]).tick :=
  step_of_exec hl hp hd (exec_ret_of_SP (s := s.advance) hsp) hl rfl

theorem SP_add_one_toNat {sp : BitVec 5} (h : sp.toNat < 16) : (sp + 1#5).toNat = sp.toNat + 1 := by
  rw [BitVec.toNat_add, BitVec.toNat_ofNat]
  omega

/-! ### The obligations -/

/-- Settles O23: the pop reads the entry below SP and writes SP and `pc`. -/
theorem retPopsTheSavedPc : Obligations.RetPopsTheSavedPc := by
  unfold Obligations.RetPopsTheSavedPc
  refine ⟨decode_ret, fun s => ⟨fun k hk => ?pop, fun h0 => ?underflow⟩⟩
  case pop =>
    refine ⟨_, exec_ret_of_SP hk, ?_, rfl, changesOnly_pop_setPc s _ _⟩
    rw [State.setPc_SP, State.setStack_SP, BitVec.toNat_sub, BitVec.toNat_ofNat]
    omega
  case underflow =>
    exact raisedFrom_of_failsCheck (c := .stackUnderflow) ⟨rfl, BitVec.eq_of_toNat_eq h0, rfl⟩

/-- Settles O25: the push writes the entry at SP, SP and `pc`. -/
theorem callPushesTheReturnAddress : Obligations.CallPushesTheReturnAddress := by
  unfold Obligations.CallPushesTheReturnAddress
  refine ⟨fun w h => decode_call h, fun nnn s => ⟨fun k hk => ?push, fun h16 => ?overflow⟩⟩
  case push =>
    have hlt : s.SP.toNat < 16 := hk ▸ k.isLt
    refine ⟨_, exec_call_of_SP nnn hlt, ?entry, ?sp, addrOf_toNat nnn, ?frame⟩
    case entry => simp [hk]
    case sp => exact (SP_add_one_toNat hlt).trans (by rw [hk])
    case frame =>
      refine (changesOnly_push_setPc hlt _ _).mono ?_
      rintro c (⟨j, hj, rfl⟩ | hc)
      · exact .inl (by rw [Fin.ext (hj.trans hk)])
      · exact .inr hc
  case overflow =>
    exact raisedFrom_of_failsCheck (c := .stackOverflow) ⟨nnn, rfl, BitVec.eq_of_toNat_eq h16, rfl⟩

/-- Settles O27: the sum of 12 bits and 8 bits fits in 16. -/
theorem jpV0AddsV0ToNNN : Obligations.JpV0AddsV0ToNNN := by
  unfold Obligations.JpV0AddsV0ToNNN
  refine ⟨fun w h => decode_jpV0 h, fun nnn s => ⟨_, exec_jpV0 nnn s, ?_, changesOnly_setPc s _⟩⟩
  have hnnn := nnn.isLt
  have hV := (s.getV 0).isLt
  rw [State.setPc_pc, BitVec.toNat_add, addrOf_toNat, State.wideV_toNat]
  omega

/-- Settles O28: only 00E0 and 00EE come before SYS, whose meaning is the state itself. -/
theorem sysHasNoEffect : Obligations.SysHasNoEffect := by
  unfold Obligations.SysHasNoEffect
  exact ⟨fun w h hcls hret => decode_sys h hcls hret, fun nnn s => rfl⟩

/-- Settles O52: RET pops the entry that CALL pushed, the address past the CALL. -/
theorem callThenRetComesBack : Obligations.CallThenRetComesBack := by
  unfold Obligations.CallThenRetComesBack
  intro s t u nnn hl hp hsp hcall hnnn hst hret htu
  have ht := Host.Outcome.next.inj (hst.symm.trans (step_call hl hp hsp hcall))
  have htl : t.FAULT = .none := by rw [ht, ← hl]; rfl
  have htpc : t.pc.toNat + 1 ≤ 0xFFF := by
    rw [ht]
    simpa using hnnn
  have htsp : t.SP = s.SP + 1#5 := by rw [ht]; rfl
  have hentry : t.stack[s.SP.toNat] = s.pc + 2#16 := by simp [ht]
  have hu := Host.Outcome.next.inj
    (htu.symm.trans (step_ret (k := ⟨s.SP.toNat, hsp⟩) htl htpc (htsp ▸ SP_add_one_toNat hsp) hret))
  refine ⟨?pc, ?sp, ?latch⟩
  case pc =>
    rw [hu, ← State.advance_pc_toNat hp]
    exact congrArg BitVec.toNat hentry
  case sp =>
    rw [hu]
    exact (congrArg (· - 1#5) htsp).trans (BitVec.add_sub_cancel s.SP 1#5)
  case latch => rw [hu, ← htl]; rfl

end Sys2Proof.Machine
end

section
/-! Register arithmetic and logic (42_alu.md R140, R143 to R151). -/

namespace Sys2Proof.Machine

/-! ### Words and meanings -/

theorem decode_of_op8_and_N {w : Word} {n : Nibble} {f : Config.Form} (hf : f ≠ .sys)
    (hkeys : hasKeys w f = (opOf w == 0x8#4 && nOf w == n)) (h : opOf w = 0x8#4) (hn : nOf w = n) :
    decode w = .ok (buildInstr w f) :=
  decode_of_hasKeys hf (by simp [hkeys, h, hn])

/-- A form whose meaning is a register write and then the flag: the flag is what VF is left with, also when the
register is VF (R140). -/
theorem write_then_flag {i : Instr} {s : State} {x : Reg} {v f : Byte} {n m : Nat}
    (he : exec i s = .next (s.setVThenFlag x v f)) (hv : v.toNat = n) (hf : f.toNat = m) :
    ∃ t, exec i s = .next t ∧ (x ≠ VF → (t.getV x).toNat = n) ∧ (t.getV VF).toNat = m ∧
      ChangesOnly s t (fun c => c = .V x ∨ c = .V VF) := by
  refine ⟨_, he, fun hx => ?_, ?_, changesOnly_setVThenFlag s x v f⟩
  · rw [State.getV_setVThenFlag, if_neg hx, if_pos rfl, hv]
  · rw [State.getV_setVThenFlag, if_pos rfl, hf]

/-- A form whose meaning is one register write, read bit by bit. -/
theorem write_bits_of_Vx {i : Instr} {s : State} {x : Reg} {v : Byte} {bit : Nat → Bool}
    (he : exec i s = .next (s.setV x v)) (hv : ∀ k, v.getLsbD k = bit k) :
    ∃ t, exec i s = .next t ∧ (∀ k, (t.getV x).getLsbD k = bit k) ∧ ChangesOnly s t (fun c => c = .V x) := by
  obtain ⟨t, hexec, hval, hframe⟩ := write_changes_only_Vx he
  exact ⟨t, hexec, fun k => by rw [hval, hv], hframe⟩

/-! ### Results and flags as numbers -/

theorem carryFlag_toNat (a b : Byte) : (carryFlag a b).toNat = if a.toNat + b.toNat > 255 then 1 else 0 := by
  simp [carryFlag, bool8_toNat]

theorem notBorrowFlag_toNat (a b : Byte) : (notBorrowFlag a b).toNat = if a.toNat ≥ b.toNat then 1 else 0 := by
  simp [notBorrowFlag, bool8_toNat]

theorem byte_sub_toNat (a b : Byte) : (a - b).toNat = (a.toNat + 256 - b.toNat) % 256 := by
  have hb := b.isLt
  rw [BitVec.toNat_sub]
  omega

theorem lsbFlag_toNat (a : Byte) : (lsbFlag a).toNat = a.toNat % 2 := by
  rw [lsbFlag, BitVec.toNat_and]
  exact Nat.and_one_is_mod _

theorem msbFlag_toNat (a : Byte) : (msbFlag a).toNat = a.toNat / 128 := by
  have ha := a.isLt
  rw [msbFlag, BitVec.toNat_and, BitVec.toNat_ushiftRight, Nat.shiftRight_eq_div_pow]
  exact (Nat.and_one_is_mod _).trans (by omega)

theorem byte_shiftRight_one_toNat (a : Byte) : (a >>> 1).toNat = a.toNat / 2 := by
  rw [BitVec.toNat_ushiftRight, Nat.shiftRight_eq_div_pow, pow_one]

theorem byte_shiftLeft_one_toNat (a : Byte) : (a <<< 1).toNat = a.toNat * 2 % 256 := by
  rw [BitVec.toNat_shiftLeft, Nat.shiftLeft_eq, pow_one]

/-! ### The obligations -/

/-- Settles O30: each meaning is one write to Vx. -/
theorem copyAndLogicWriteOnlyVx : Obligations.CopyAndLogicWriteOnlyVx := by
  unfold Obligations.CopyAndLogicWriteOnlyVx
  refine ⟨fun w => decode_of_op8_and_N (f := .ldReg) (by decide) rfl,
    fun w => decode_of_op8_and_N (f := .orReg) (by decide) rfl,
    fun w => decode_of_op8_and_N (f := .andReg) (by decide) rfl,
    fun w => decode_of_op8_and_N (f := .xorReg) (by decide) rfl,
    fun x y s => ⟨?copy, ?or, ?and, ?xor⟩⟩
  case copy => exact write_changes_only_Vx (i := .ldReg x y) rfl
  case or => exact write_bits_of_Vx (i := .orReg x y) rfl fun k => BitVec.getLsbD_or
  case and => exact write_bits_of_Vx (i := .andReg x y) rfl fun k => BitVec.getLsbD_and
  case xor => exact write_bits_of_Vx (i := .xorReg x y) rfl fun k => BitVec.getLsbD_xor

/-- Settles O31: the sum is written first and the carry of the old values last. -/
theorem addSetsSumThenCarry : Obligations.AddSetsSumThenCarry := by
  unfold Obligations.AddSetsSumThenCarry
  refine ⟨fun w => decode_of_op8_and_N (f := .addReg) (by decide) rfl, fun x y s => ?_⟩
  exact write_then_flag (i := .addReg x y) rfl (BitVec.toNat_add _ _) (carryFlag_toNat _ _)

/-- Settles O32: the difference is written first and NOT borrow of the old values last; SUBN exchanges the operands. -/
theorem subtractsSetDifferenceThenNotBorrow : Obligations.SubtractsSetDifferenceThenNotBorrow := by
  unfold Obligations.SubtractsSetDifferenceThenNotBorrow
  refine ⟨fun w => decode_of_op8_and_N (f := .subReg) (by decide) rfl,
    fun w => decode_of_op8_and_N (f := .subnReg) (by decide) rfl, fun x y s => ⟨?sub, ?subn⟩⟩
  case sub => exact write_then_flag (i := .subReg x y) rfl (byte_sub_toNat _ _) (notBorrowFlag_toNat _ _)
  case subn => exact write_then_flag (i := .subnReg x y) rfl (byte_sub_toNat _ _) (notBorrowFlag_toNat _ _)

/-- Settles O33: a shift by one halves or doubles, and the bit shifted out is written last. -/
theorem shiftsSetResultThenTheBitShiftedOut : Obligations.ShiftsSetResultThenTheBitShiftedOut := by
  unfold Obligations.ShiftsSetResultThenTheBitShiftedOut
  refine ⟨fun w => decode_of_op8_and_N (f := .shr) (by decide) rfl,
    fun w => decode_of_op8_and_N (f := .shl) (by decide) rfl,
    fun x y s => ⟨?right, ?left⟩⟩
  case right => exact write_then_flag (i := .shr x y) rfl (byte_shiftRight_one_toNat _) (lsbFlag_toNat _)
  case left => exact write_then_flag (i := .shl x y) rfl (byte_shiftLeft_one_toNat _) (msbFlag_toNat _)

end Sys2Proof.Machine
end

section
/-! The index register and memory transfer (43_index_memory.md R170, R172, R174 to R176), and a store that the next
fetch sees (20_memory.md R62). -/

namespace Sys2Proof.Machine

/-! ### Words and meanings -/

theorem decode_of_opF_and_NN {w : Word} {nn : Byte} {f : Config.Form} (hf : f ≠ .sys)
    (hkeys : hasKeys w f = (opOf w == 0xF#4 && nnOf w == nn)) (h : opOf w = 0xF#4) (hnn : nnOf w = nn) :
    decode w = .ok (buildInstr w f) :=
  decode_of_hasKeys hf (by simp [hkeys, h, hnn])

theorem exec_addI (x : Reg) (s : State) :
    exec (.addI x) s = .next ((s.setI (s.I + s.wideV x)).setV VF (indexFlag (s.I + s.wideV x))) := rfl

theorem exec_ldB_of_le {x : Reg} {s : State} (h : s.I.toNat + 2 ≤ 0xFFF) :
    exec (.ldB x) s = .next (s.writeBytes s.I.toNat (bcdDigits (s.getV x))) :=
  State.checkRange_of_le _ h

theorem exec_dump_of_le {x : Reg} {s : State} (h : s.I.toNat + x.val ≤ 0xFFF) :
    exec (.dump x) s = .next ((s.writeBytes s.I.toNat (s.regsUpTo x)).bumpI x) :=
  State.checkRange_of_le _ h

theorem exec_load_of_le {x : Reg} {s : State} (h : s.I.toNat + x.val ≤ 0xFFF) :
    exec (.load x) s = .next ((s.loadRegs x).bumpI x) :=
  State.checkRange_of_le _ h

/-! ### Values -/

theorem I_add_wideV_toNat (s : State) (x : Reg) :
    (s.I + s.wideV x).toNat = (s.I.toNat + (s.getV x).toNat) % 65536 := by
  rw [BitVec.toNat_add, State.wideV_toNat]

theorem indexFlag_toNat (t : Word) : (indexFlag t).toNat = if t.toNat > 0x0FFF then 1 else 0 := by
  simp [indexFlag, bool8_toNat]

theorem bumpI_I_toNat {s t : State} (hI : t.I = s.I) (x : Reg) :
    (t.bumpI x).I.toNat = (s.I.toNat + x.val + 1) % 65536 := by
  rw [State.bumpI_I, hI, BitVec.toNat_add, BitVec.toNat_ofNat]
  omega

theorem byte_ofNat_toNat {n : Nat} (h : n < 256) : (BitVec.ofNat 8 n).toNat = n := by
  rw [BitVec.toNat_ofNat]
  exact Nat.mod_eq_of_lt h

theorem regsUpTo_getElem (s : State) {x k : Reg} (hk : k.val < (s.regsUpTo x).length) :
    (s.regsUpTo x)[k.val] = s.getV k := by
  simp [State.regsUpTo, State.getV]

/-- The bytes that the register dump stores (R175). -/
theorem readMem_dump {s : State} (hwf : s.mem.wf = true) {x k : Reg} (hI : s.I.toNat + x.val ≤ 0xFFF) (hk : k ≤ x) :
    ((s.writeBytes s.I.toNat (s.regsUpTo x)).bumpI x).readMem (s.I.toNat + k.val) = s.getV k := by
  have hlen : k.val < (s.regsUpTo x).length := (Nat.lt_succ_of_le hk).trans_eq (s.length_regsUpTo x).symm
  have hfit : s.I.toNat + (s.regsUpTo x).length ≤ Config.memSize := by
    rw [State.length_regsUpTo, Config.memSize]
    omega
  exact (readMem_writeBytes hwf s.I.toNat (s.regsUpTo x) hfit hlen).trans (regsUpTo_getElem s hlen)

theorem step_dump {s : State} {x : Reg} (hl : s.FAULT = .none) (hp : s.pc.toNat + 1 ≤ 0xFFF)
    (hd : decode s.fetchWord = .ok (.dump x)) (hI : s.I.toNat + x.val ≤ 0xFFF) :
    step s = .next ((s.advance.writeBytes s.I.toNat (s.regsUpTo x)).bumpI x).tick :=
  step_of_exec hl hp hd (exec_dump_of_le (s := s.advance) hI) hl rfl

/-! ### The obligations -/

/-- Settles O35: `I` is written first, and the flag tests what was written. -/
theorem addISetsSumThenOverflowFlag : Obligations.AddISetsSumThenOverflowFlag := by
  unfold Obligations.AddISetsSumThenOverflowFlag
  refine ⟨fun w => decode_of_opF_and_NN (f := .addI) (by decide) rfl, fun x s => ?_⟩
  refine ⟨_, exec_addI x s, I_add_wideV_toNat s x, ?_, changesOnly_setI_setV s _ _⟩
  rw [State.getV_setV_same, indexFlag_toNat]
  rfl

/-- Settles O36: the three digits are stored as consecutive bytes, after the range check. -/
theorem ldBStoresTheThreeDigits : Obligations.LdBStoresTheThreeDigits := by
  unfold Obligations.LdBStoresTheThreeDigits
  refine ⟨fun w => decode_of_opF_and_NN (f := .ldB) (by decide) rfl,
    fun x s hwf => ⟨fun hI => ?store, fun hI => ?fault⟩⟩
  case store =>
    have hV := (s.getV x).isLt
    have hfit : s.I.toNat + (bcdDigits (s.getV x)).length ≤ Config.memSize := Nat.succ_le_succ hI
    have hdigit {k : Nat} (hk : k < (bcdDigits (s.getV x)).length) := readMem_writeBytes hwf s.I.toNat _ hfit hk
    refine ⟨_, exec_ldB_of_le hI, ?hundreds, ?tens, ?units, changesOnly_storeDigits s _⟩
    case hundreds =>
      exact (congrArg BitVec.toNat (hdigit (k := 0) (by simp [bcdDigits]))).trans (byte_ofNat_toNat (by omega))
    case tens =>
      exact (congrArg BitVec.toNat (hdigit (k := 1) (by simp [bcdDigits]))).trans (byte_ofNat_toNat (by omega))
    case units =>
      exact (congrArg BitVec.toNat (hdigit (k := 2) (by simp [bcdDigits]))).trans (byte_ofNat_toNat (by omega))
  case fault => exact raisedFrom_of_failsCheck (c := .dataRange) ⟨hI, rfl⟩

/-- Settles O37: V0 to Vx are stored as consecutive bytes, after the range check. -/
theorem dumpStoresV0ToVx : Obligations.DumpStoresV0ToVx := by
  unfold Obligations.DumpStoresV0ToVx
  refine ⟨fun w => decode_of_opF_and_NN (f := .dump) (by decide) rfl,
    fun x s hwf => ⟨fun hI => ?store, fun hI => ?fault⟩⟩
  case store =>
    exact ⟨_, exec_dump_of_le hI, fun k hk => readMem_dump hwf hI hk, bumpI_I_toNat rfl x, changesOnly_dump s x⟩
  case fault => exact raisedFrom_of_failsCheck (c := .dataRange) ⟨hI, rfl⟩

/-- Settles O38: the registers up to Vx, VF among them when x is F, are read after the range check. -/
theorem loadReadsV0ToVx : Obligations.LoadReadsV0ToVx := by
  unfold Obligations.LoadReadsV0ToVx
  refine ⟨fun w => decode_of_opF_and_NN (f := .load) (by decide) rfl, fun x s => ⟨fun hI => ?load, fun hI => ?fault⟩⟩
  case load =>
    refine ⟨_, exec_load_of_le hI, fun k hk => ?_, bumpI_I_toNat (State.loadRegs_I s x) x,
      changesOnly_loadRegs_bumpI s x⟩
    rw [State.getV_of_V (State.bumpI_V _ x), State.getV_loadRegs, if_pos hk]
  case fault => exact raisedFrom_of_failsCheck (c := .dataRange) ⟨hI, rfl⟩

/-- Settles O54: the two bytes at the new `pc` are the two that the dump stored. -/
theorem storeIsSeenByTheNextFetch : Obligations.StoreIsSeenByTheNextFetch := by
  unfold Obligations.StoreIsSeenByTheNextFetch
  intro s t hwf hl hp hd hI hst
  have hrange : s.I.toNat + (1 : Reg).val ≤ 0xFFF := by
    rw [hI]
    exact hp
  have ht := Host.Outcome.next.inj (hst.symm.trans (step_dump hl (by omega) hd hrange))
  have htpc : t.pc.toNat = s.I.toNat := by
    rw [ht, hI]
    exact State.advance_pc_toNat (by omega)
  have hbyte {k : Reg} (hk : k ≤ 1) : t.readMem (s.I.toNat + k.val) = s.getV k := by
    rw [ht]
    exact readMem_dump (s := s.advance) hwf hrange hk
  have hhi : t.readMem s.I.toNat = s.getV 0 := hbyte (k := 0) (by decide)
  have hlo : t.readMem (s.I.toNat + 1) = s.getV 1 := hbyte (k := 1) (by decide)
  rw [State.fetchWord, toNat_wordOfBytes, htpc, hhi, hlo]

end Sys2Proof.Machine
end

section
/-! The display: CLS and DRW (44_display.md R190 to R192), and a sprite drawn twice. -/

namespace Sys2Proof.Machine

/-! ### Words and meanings -/

theorem decode_cls : decode 0x00E0#16 = .ok .cls :=
  decode_of_hasKeys (f := .cls) (by decide) (by decide)

theorem decode_drw {w : Word} (h : opOf w = 0xD#4) : decode w = .ok (.drw (xOf w) (yOf w) (nOf w)) :=
  decode_of_hasKeys (f := .drw) (by decide) (by simp [hasKeys, h])

theorem exec_cls (s : State) : exec .cls s = .next (s.setDisp Display.clear) := rfl

theorem exec_drw_of_inRange {x y : Reg} {n : Nibble} {s : State}
    (h : n.toNat = 0 ∨ s.I.toNat + n.toNat - 1 ≤ 0xFFF) : exec (.drw x y n) s = .next (s.draw x y n) := by
  rcases execDrw_cases x y n s with ⟨_, he⟩ | ⟨hout, _⟩
  · exact he
  · omega

/-! ### A cell after a draw -/

theorem State.cell_draw_of_spriteBit {s : State} {x y : Reg} {n : Nibble} {px py : Nat} (hx : px < 64) (hy : py < 32)
    (h : SpriteBit s x y n px py) : (s.draw x y n).cell (px + 64 * py) = !s.cell (px + 64 * py) := by
  rw [State.cell_draw s x y n hx hy, (spritePixel_bytesAtI s x y n px py).mpr h, Bool.xor_true]

theorem State.cell_draw_of_not_spriteBit {s : State} {x y : Reg} {n : Nibble} {px py : Nat} (hx : px < 64)
    (hy : py < 32) (h : ¬ SpriteBit s x y n px py) :
    (s.draw x y n).cell (px + 64 * py) = s.cell (px + 64 * py) := by
  have hp := Bool.eq_false_iff.mpr (mt (spritePixel_bytesAtI s x y n px py).mp h)
  rw [State.cell_draw s x y n hx hy, hp, Bool.xor_false]

theorem getV_VF_draw_toNat (s : State) (x y : Reg) (n : Nibble) :
    ((s.draw x y n).getV VF).toNat = if (s.drawn x y n).hit then 1 else 0 := by
  rw [State.getV_VF_draw, collisionFlag, bool8_toNat]

/-- A cell that a draw changes lies in the frame, under a set bit of the sprite. -/
theorem exists_spriteBit_of_cell_ne {s : State} {x y : Reg} {n : Nibble} {j : Nat}
    (h : (s.draw x y n).cell j ≠ s.cell j) :
    ∃ px py, px < 64 ∧ py < 32 ∧ SpriteBit s x y n px py ∧ j = px + 64 * py := by
  by_contra hno
  refine h (changesOnly_draw_bits s x y n (.cell j) ?_)
  rintro (hc | hc | ⟨px, py, hx, hy, hbit, hc⟩)
  · cases hc
  · cases hc
  · exact hno ⟨px, py, hx, hy, hbit, Component.cell.inj hc⟩

/-! ### Drawing twice -/

/-- A draw that leaves its coordinates in place has the same sprite when it runs again: memory and `I` are as before. -/
theorem spriteBit_draw {s : State} {x y : Reg} {n : Nibble} (hx : (s.draw x y n).getV x = s.getV x)
    (hy : (s.draw x y n).getV y = s.getV y) (px py : Nat) :
    SpriteBit (s.draw x y n) x y n px py ↔ SpriteBit s x y n px py := by
  rw [SpriteBit, SpriteBit, hx, hy, State.readMem, State.draw_mem, State.draw_I, State.readMem]

theorem cell_draw_draw {s : State} {x y : Reg} {n : Nibble} (hx : (s.draw x y n).getV x = s.getV x)
    (hy : (s.draw x y n).getV y = s.getV y) (j : Nat) : ((s.draw x y n).draw x y n).cell j = s.cell j := by
  by_cases h : ((s.draw x y n).draw x y n).cell j = (s.draw x y n).cell j
  · by_contra hne
    rw [h] at hne
    obtain ⟨px, py, hpx, hpy, hbit, rfl⟩ := exists_spriteBit_of_cell_ne hne
    rw [State.cell_draw_of_spriteBit hpx hpy ((spriteBit_draw hx hy px py).mpr hbit)] at h
    simp at h
  · obtain ⟨px, py, hpx, hpy, hbit, rfl⟩ := exists_spriteBit_of_cell_ne h
    rw [State.cell_draw_of_spriteBit hpx hpy hbit,
      State.cell_draw_of_spriteBit hpx hpy ((spriteBit_draw hx hy px py).mp hbit), Bool.not_not]

/-- The second draw collides exactly where the first one lit a cell. -/
theorem drawn_draw_hit_iff {s : State} {x y : Reg} {n : Nibble} (hx : (s.draw x y n).getV x = s.getV x)
    (hy : (s.draw x y n).getV y = s.getV y) :
    ((s.draw x y n).drawn x y n).hit = true ↔ ∃ j, s.cell j = false ∧ (s.draw x y n).cell j = true := by
  rw [State.drawn_hit]
  constructor
  · rintro ⟨px, py, hpx, hpy, hbit, hlit⟩
    refine ⟨px + 64 * py, ?_, hlit⟩
    rw [State.cell_draw_of_spriteBit hpx hpy ((spriteBit_draw hx hy px py).mp hbit)] at hlit
    simpa using hlit
  · rintro ⟨j, hdark, hlit⟩
    obtain ⟨px, py, hpx, hpy, hbit, rfl⟩ := exists_spriteBit_of_cell_ne (by rw [hdark, hlit]; decide)
    exact ⟨px, py, hpx, hpy, (spriteBit_draw hx hy px py).mpr hbit, hlit⟩

/-! ### The obligations -/

/-- Settles O39: the meaning is one write of the cleared display, which sets dirty. -/
theorem clsClearsEveryCell : Obligations.ClsClearsEveryCell := by
  unfold Obligations.ClsClearsEveryCell
  exact ⟨decode_cls, fun s => ⟨_, exec_cls s, fun j _ => Display.cell_clear j, rfl, changesOnly_setDisp s _⟩⟩

/-- Settles O40: a draw in range flips the cells under the sprite's set bits, and its hit is a lit one among them. -/
theorem drwXorsTheSpriteAndReportsCollision : Obligations.DrwXorsTheSpriteAndReportsCollision := by
  unfold Obligations.DrwXorsTheSpriteAndReportsCollision
  refine ⟨fun w h => decode_drw h, fun x y n s => ⟨fun hin => ?draw, fun hout => ?fault⟩⟩
  case draw =>
    refine ⟨_, exec_drw_of_inRange hin, fun px py hx hy =>
      ⟨State.cell_draw_of_spriteBit hx hy, State.cell_draw_of_not_spriteBit hx hy⟩, fun hlit => ?collision,
      fun hdark => ?none, rfl, changesOnly_draw s x y n⟩
    case collision => rw [getV_VF_draw_toNat, (State.drawn_hit s x y n).mpr hlit, if_pos rfl]
    case none =>
      have hnot : ¬ (s.drawn x y n).hit = true := fun hhit => by
        obtain ⟨px, py, hx, hy, hbit, hlit⟩ := (State.drawn_hit s x y n).mp hhit
        exact absurd hlit (by rw [hdark px py hx hy hbit]; decide)
      rw [getV_VF_draw_toNat, if_neg hnot]
  case fault => exact raisedFrom_of_failsCheck (c := .dataRange) ⟨hout, rfl⟩

/-- Settles O41: both draws are in range, since `I` is the same, and the second has the same sprite. -/
theorem drawingTwiceRestoresTheDisplay : Obligations.DrawingTwiceRestoresTheDisplay := by
  unfold Obligations.DrawingTwiceRestoresTheDisplay
  intro x y n s t u hst ht hx hy htu
  rcases execDrw_cases x y n s with ⟨hin, he⟩ | ⟨_, he⟩
  · obtain rfl := Host.Outcome.next.inj (hst.symm.trans he)
    obtain rfl := Host.Outcome.next.inj (htu.symm.trans (exec_drw_of_inRange (s := s.draw x y n) hin))
    refine ⟨cell_draw_draw hx hy, ?_⟩
    rw [getV_VF_draw_toNat, ← drawn_draw_hit_iff hx hy]
    cases ((s.draw x y n).drawn x y n).hit <;> simp
  · obtain rfl := Host.Outcome.next.inj (hst.symm.trans he)
    cases ht

end Sys2Proof.Machine
end

section
/-! Random, keys and timers: RND, SKP, SKNP and LD Vx, K (45_timers_input_random.md R200 to R202, R206), and a delay
timer read back in the next cycle (70_reset_and_hazards.md R262). -/

namespace Sys2Proof.Machine

/-! ### Words and meanings -/

theorem decode_rnd {w : Word} (h : opOf w = 0xC#4) : decode w = .ok (.rnd (xOf w) (nnOf w)) :=
  decode_of_hasKeys (f := .rnd) (by decide) (by simp [hasKeys, h])

theorem decode_skp {w : Word} (h : opOf w = 0xE#4) (hnn : nnOf w = 0x9E#8) : decode w = .ok (.skp (xOf w)) :=
  decode_of_hasKeys (f := .skp) (by decide) (by simp [hasKeys, h, hnn])

theorem decode_sknp {w : Word} (h : opOf w = 0xE#4) (hnn : nnOf w = 0xA1#8) : decode w = .ok (.sknp (xOf w)) :=
  decode_of_hasKeys (f := .sknp) (by decide) (by simp [hasKeys, h, hnn])

theorem exec_rnd (x : Reg) (nn : Byte) (s : State) : exec (.rnd x nn) s = .next (s.useRnd.setV x (s.rnd &&& nn)) := rfl

theorem exec_skp_of_le {x : Reg} {s : State} (h : (s.getV x).toNat ≤ 0x0F) :
    exec (.skp x) s = .next (s.skipIf (s.key (s.getV x).toNat)) :=
  if_neg (Nat.not_lt.mpr h)

theorem exec_sknp_of_le {x : Reg} {s : State} (h : (s.getV x).toNat ≤ 0x0F) :
    exec (.sknp x) s = .next (s.skipIf (!s.key (s.getV x).toNat)) :=
  if_neg (Nat.not_lt.mpr h)

/-! ### The draw of RND (R200) -/

theorem State.rnd_of_some {s : State} {b : Byte} (h : s.rndIn = some b) : s.rnd = b := by
  rw [State.rnd, h]

theorem State.rnd_of_none {s : State} (h : s.rndIn = none) : s.rnd = Config.randomByte s.draws := by
  rw [State.rnd, h]

theorem State.draws_useRnd_of_some {s : State} {b : Byte} (h : s.rndIn = some b) : s.useRnd.draws = s.draws := by
  rw [State.useRnd, h]

theorem State.draws_useRnd_of_none {s : State} (h : s.rndIn = none) : s.useRnd.draws = s.draws + 1 := by
  rw [State.useRnd, h]

/-! ### The least key (R206) -/

theorem State.leastKey_of_least {s : State} {m : Nat} (hm : m < 16) (hpressed : s.keys.getLsbD m = true)
    (hleast : ∀ j, j < m → s.keys.getLsbD j = false) : s.leastKey = some m := by
  cases hk : s.leastKey with
  | none => cases hpressed.symm.trans (State.leastKey_eq_none hk m hm)
  | some k =>
    obtain ⟨_, hkpressed, hkleast⟩ := State.leastKey_eq_some hk
    rcases Nat.lt_trichotomy k m with hlt | heq | hgt
    · cases hkpressed.symm.trans (hleast k hlt)
    · rw [heq]
    · cases hpressed.symm.trans (hkleast m hgt)

theorem State.leastKey_of_none_pressed {s : State} (h : ∀ j, j < 16 → s.keys.getLsbD j = false) :
    s.leastKey = none := by
  cases hk : s.leastKey with
  | none => rfl
  | some k =>
    obtain ⟨hlt, hpressed, _⟩ := State.leastKey_eq_some hk
    cases hpressed.symm.trans (h k hlt)

theorem exec_ldVxK_of_some {x : Reg} {s : State} {k : Nat} (h : s.leastKey = some k) :
    exec (.ldVxK x) s = .next (s.setV x (BitVec.ofNat 8 k)) := by
  rw [exec, execLdVxK, h]

theorem exec_ldVxK_of_none {x : Reg} {s : State} (h : s.leastKey = none) :
    exec (.ldVxK x) s = .next s.undoFetch := by
  rw [exec, execLdVxK, h]

/-- A cycle that waits leaves the state it started in. -/
theorem cycle_of_waits {s : State} {x : Reg} (hl : s.FAULT = .none) (hp : s.pc.toNat + 1 ≤ 0xFFF)
    (hd : decode s.fetchWord = .ok (.ldVxK x)) (hk : s.leastKey = none) : cycle s = .next (quiet s) := by
  have he : exec (.ldVxK x) s.advance = .next s :=
    (exec_ldVxK_of_none (s := s.advance) hk).trans (by rw [State.undoFetch_advance])
  have hw : waits (.ldVxK x) s.advance = true := by rw [waits_eq_true]; exact ⟨⟨x, rfl⟩, hk⟩
  rw [cycle_decoded hl hp hd, execute, he]
  simp [finish, hl, hw]

/-! ### The obligations -/

/-- Settles O42: RND masks the byte that `rnd` gives, and uses it up. -/
theorem rndMasksTheRandomByte : Obligations.RndMasksTheRandomByte := by
  unfold Obligations.RndMasksTheRandomByte
  refine ⟨fun w h => decode_rnd h, fun x nn s => ⟨_, exec_rnd x nn s, fun b hb => ⟨?_, s.useRnd_rndIn, ?_⟩,
    fun hno => ⟨?_, s.useRnd_rndIn, ?_⟩, changesOnly_useRnd_setV s x _⟩⟩
  · rw [State.getV_setV_same, State.rnd_of_some hb]
  · exact State.draws_useRnd_of_some hb
  · rw [State.getV_setV_same, State.rnd_of_none hno]
  · exact State.draws_useRnd_of_none hno

/-- Settles O43: in range each form is a skip on one bit of `keys`, and above 0xF its check fails. -/
theorem keySkipsTestTheNamedKey : Obligations.KeySkipsTestTheNamedKey := by
  unfold Obligations.KeySkipsTestTheNamedKey
  refine ⟨fun w h hnn => decode_skp h hnn, fun w h hnn => decode_sknp h hnn,
    fun x s => ⟨fun hle => ⟨?skp, ?sknp⟩, fun hgt => ⟨?skpFault, ?sknpFault⟩⟩⟩
  case skp => exact skip_moves_only_pc (exec_skp_of_le hle) Iff.rfl
  case sknp => exact skip_moves_only_pc (exec_sknp_of_le hle) (Bool.not_eq_true' _).to_iff
  case skpFault => exact raisedFrom_of_failsCheck (c := .keyRange) ⟨x, .inl rfl, hgt, rfl⟩
  case sknpFault => exact raisedFrom_of_failsCheck (c := .keyRange) ⟨x, .inr rfl, hgt, rfl⟩

/-- Settles O45: the scan finds the least pressed key; when it finds none, the fetch is undone and the cycle ends before
the timer update. -/
theorem awaitKeyTakesTheLeastKeyOrWaits : Obligations.AwaitKeyTakesTheLeastKeyOrWaits := by
  unfold Obligations.AwaitKeyTakesTheLeastKeyOrWaits
  refine ⟨fun w => decode_of_opF_and_NN (f := .ldVxK) (by decide) rfl,
    fun x s m hm hpressed hleast => ?pressed, fun x s hno => ?waiting⟩
  case pressed =>
    have hk := State.leastKey_of_least hm hpressed hleast
    obtain ⟨t, he, hval, hframe⟩ := write_changes_only_Vx (exec_ldVxK_of_some (x := x) hk)
    refine ⟨by rw [waits, hk]; rfl, t, he, ?_, hframe⟩
    rw [hval, BitVec.toNat_ofNat]
    omega
  case waiting =>
    have hk := State.leastKey_of_none_pressed hno
    refine ⟨by rw [waits, hk]; rfl, ⟨_, exec_ldVxK_of_none hk, rfl, changesOnly_setPc s _⟩, fun hl hp hd => ?_⟩
    rw [cycle_of_waits hl hp hd hk, quiet, hl]

/-- Settles O53: the timer update of the first cycle comes between the write and the read. -/
theorem delayTimerReadsBackOneLess : Obligations.DelayTimerReadsBackOneLess := by
  unfold Obligations.DelayTimerReadsBackOneLess
  intro s t u x y hl hp hwrite hst hread htu
  have ht := Host.Outcome.next.inj (hst.symm.trans (step_next_iff.mpr (cycle_ldDTVx hl (by omega) hwrite)))
  have htl : t.FAULT = .none := by rw [ht, ← hl]; rfl
  have htpc : t.pc.toNat = s.pc.toNat + 2 := by
    rw [ht]
    exact State.advance_pc_toNat (by omega)
  have htDT : t.DT.toNat = (s.getV x).toNat - 1 := by
    rw [ht]
    exact tickByte_toNat (s.getV x)
  have hu := Host.Outcome.next.inj (htu.symm.trans (step_next_iff.mpr (cycle_ldVxDT htl (by omega) hread)))
  rw [hu, ← htDT]
  exact congrArg BitVec.toNat (t.advance.getV_setV_same y t.DT)

end Sys2Proof.Machine
end
